-- ==== Sys2Proof/Word.lean ====
section
/-! DEFINITION. The words of HUFC: register words, symbols, node indices and bit-strings
(spec/00_scope.md rules R5, R7, R8, R9, R11; spec/10_state.md rule R20). -/

namespace Sys2Proof

/-- A register, window or command word: 32 bits (R20, R71, R100). -/
abbrev Word := BitVec 32

/-- A symbol: one 8-bit unsigned value, equal exactly when the values are equal (R7). -/
abbrev Symbol := BitVec 8

/-- A node index: 9 bits, for the 512 slots of the arena (R5, R36). -/
abbrev NodeIdx := BitVec 9

/-- A bit-string, its first bit at the head (R9). -/
abbrev Bits := List Bool

end Sys2Proof
end

