-- ==== Sys2Proof/Config.lean ====
section
/-! DEFINITION. What one HUFC fixes (its parameters, spec/00_scope.md rule R5) and the values the spec
leaves free (spec/93_implementation_defined.md items U1, U2, U5). -/

namespace Sys2Proof

/-- The legal values of the two parameters (R5; U9: a model refuses values outside them). -/
abbrev LegalParams (maxLen maxBits : Nat) : Prop :=
  1 ≤ maxLen ∧ maxLen ≤ 2 ^ 20 ∧ maxBits % 32 = 0 ∧ 8 * maxLen ≤ maxBits ∧ maxBits ≤ 2 ^ 24

/-- The parameters MAX_LEN and MAX_BITS of one HUFC (R5). A value outside the legal ranges cannot be
built, which is how the model refuses it (U9). -/
structure Params where
  /-- capacity of SYM_IN, in symbols -/
  maxLen : Nat
  /-- capacity of BIT_IN and BIT_OUT in bits and of SYM_OUT in symbols -/
  maxBits : Nat
  /-- the values are legal (R5) -/
  legal : LegalParams maxLen maxBits
deriving DecidableEq, Repr

namespace Config

/-- The default parameters (R5). -/
def defaults : Params where
  maxLen := 2 ^ 20
  maxBits := 2 ^ 24
  legal := by decide

/-- MAX_CODE, the longest code, in bits (R5, R161). -/
def maxCode : Nat := 255

/-- FREE VALUE (U1; notes/assumptions/1.md): what element `i` of SYM_IN holds after the `launch`-th reset
until the host writes it. -/
opaque symInInit : Nat → Nat → Symbol

/-- FREE VALUE (U1; notes/assumptions/1.md): what word `j` of BIT_IN holds after the `launch`-th reset
until the host writes it. -/
opaque bitInInit : Nat → Nat → Word

/-- FREE VALUE (U2; notes/assumptions/2.md): what the `n`-th draw gives for a host read of a result
while a command runs. -/
opaque busyRead : Nat → Word

/-- FREE VALUE (U5, CMD_LATENCY; notes/assumptions/3.md): how many statements the host performs, at most,
before the command issued at the `n`-th draw completes. It is finite, which is all the spec says (R285). -/
opaque cmdLatency : Nat → Nat

end Config

end Sys2Proof
end

