-- ==== Sys2Proof/Syntax.lean ====
section
/-! DEFINITION. The commands (one constructor of `Instr` per row of spec/opcode_table.json), the places the
host can name at the port, and the host's own statements (spec/30_encoding.md, spec/20_memory.md R72). -/

namespace Sys2Proof

/-- The source select S of DECODE (R101, R190). -/
inductive Src where
  /-- S = 0: BIT_IN with length BIT_IN_LEN -/
  | bitIn
  /-- S = 1: BIT_OUT with length BIT_OUT_LEN -/
  | bitOut
deriving DecidableEq, Repr

/-- The commands (R103). Every operand but S is implicit (R102). -/
inductive Instr where
  /-- FREQ: build the frequency table (R120) -/
  | freq
  /-- TREE: build the Huffman tree (R140) -/
  | tree
  /-- CODES: generate the CodeBook (R160) -/
  | codes
  /-- ENCODE: encode the symbol input (R180) -/
  | encode
  /-- DECODE: decode a bit-stream (R190) -/
  | decode (src : Src)
  /-- STATS: compute the size and ratio metrics (R210) -/
  | stats
  /-- COMPRESS: the whole compression request (R215) -/
  | compress
  /-- CLEAR: clear the session (R220) -/
  | clear
deriving DecidableEq, Repr

/-- The mnemonic of a command, as the opcode table spells it (R103). -/
def Instr.mnemonic : Instr → String
  | .freq => "FREQ"
  | .tree => "TREE"
  | .codes => "CODES"
  | .encode => "ENCODE"
  | .decode _ => "DECODE"
  | .stats => "STATS"
  | .compress => "COMPRESS"
  | .clear => "CLEAR"

/-- The 22 registers (R20), in the order of their offsets. -/
inductive Reg where
  | id | paramMaxLen | paramMaxBits | ctrl | cmd | status | symLen | bitInLen
  | bitOutLen | encSkip | symOutLen | decTail | ftN | ftTotal | nodeCount | root
  | statOrigBits | statCompBits | statRatioNum | statRatioDen | statRatioBp | statSavedBits
deriving DecidableEq, Repr

/-- The four words of a NODE window slot (R78). -/
inductive NodeWord where
  | freq | info | left | right
deriving DecidableEq, Repr

/-- A place of the host address map (R72): a register, one word of a window, or reserved. -/
inductive Loc where
  /-- a register (R20) -/
  | reg (r : Reg)
  /-- word `x` of the FREQ window (R75) -/
  | freq (x : Symbol)
  /-- word `i` of the FT_ORDER window (R76) -/
  | ftOrder (i : Nat)
  /-- a word of slot `i` of the NODE window (R78) -/
  | node (i : Nat) (k : NodeWord)
  /-- word `k` of entry `x` of the CB window (R82) -/
  | cb (x : Symbol) (k : Nat)
  /-- word `i` of the SYM_IN window (R77) -/
  | symIn (i : Nat)
  /-- word `j` of the BIT_IN window (R79) -/
  | bitIn (j : Nat)
  /-- word `j` of the BIT_OUT window (R80) -/
  | bitOut (j : Nat)
  /-- word `i` of the SYM_OUT window (R81) -/
  | symOut (i : Nat)
  /-- a reserved address, a reserved register offset or the unimplemented tail of a window (R73) -/
  | reserved
deriving DecidableEq, Repr

/-- What the outside of HUFC does, one entry at a time (R70, R89, R108): the two transactions of the host
port, the host's own branch, and the platform's assertion of `rst` (R270). Temporaries are numbered; branch
targets are positions in the list of entries. -/
inductive PortOp where
  /-- `t <- HostRead(addr)` -/
  | rd (addr : Word) (t : Nat)
  /-- `HostWrite(addr, w)` -/
  | wr (addr w : Word)
  /-- `if t[hi:lo] = v goto target`: no transaction (R108) -/
  | br (t hi lo v target : Nat)
  /-- the platform asserts `rst` (R270) -/
  | rst
deriving DecidableEq, Repr

/-- A statement of a host program (R108). Temporaries and labels are numbered. -/
inductive Stmt where
  /-- `wr NAME, v` -/
  | wr (name : Loc) (v : Word)
  /-- `rd NAME -> t` -/
  | rd (name : Loc) (t : Nat)
  /-- `cmd M`, with both forms of DECODE -/
  | cmd (i : Instr)
  /-- `cmd .word v` -/
  | cmdWord (v : Word)
  /-- `wait` -/
  | wait
  /-- `ack` -/
  | ack
  /-- `fill "text"` -/
  | fill (text : List Symbol)
  /-- `fillbits "bits"` -/
  | fillbits (bits : Bits)
  /-- `L:` -/
  | label (l : Nat)
  /-- `if t[hi:lo] = v goto L`; the form `t[i]` is `t[i:i]` (R8) -/
  | goto (t hi lo v l : Nat)
deriving DecidableEq, Repr

end Sys2Proof
end

