-- ==== Sys2Proof/WellFormed.lean ====
section
/-! DEFINITION. What a well-formed command, place, port entry and host statement is. -/

namespace Sys2Proof

/-- A command has no immediate and no register-number field, and S has a meaning at both its values
(R101, R102), so every term of `Instr` is well formed: `Src` admits no third source. -/
def Instr.wf : Instr → Bool
  | .freq => true
  | .tree => true
  | .codes => true
  | .encode => true
  | .decode _ => true
  | .stats => true
  | .compress => true
  | .clear => true

/-- A place that the map of R72 implements under the parameters `p`: each index inside its window. -/
def Loc.wf (p : Params) : Loc → Bool
  | .reg _ => true
  | .freq _ => true
  | .ftOrder i => decide (i < 256)
  | .node i _ => decide (i < 512)
  | .cb _ k => decide (k < 16)
  | .symIn i => decide (i < p.maxLen)
  | .bitIn j => decide (j < p.maxBits / 32)
  | .bitOut j => decide (j < p.maxBits / 32)
  | .symOut i => decide (i < p.maxBits)
  | .reserved => false

/-- A port entry of a list of `n` entries: a branch tests a field of a 32-bit word, compares it with a
value the field can hold (R8), and continues inside the list or at its end (R108). -/
def PortOp.wf (n : Nat) : PortOp → Bool
  | .rd _ _ => true
  | .wr _ _ => true
  | .br _ hi lo v target =>
      decide (lo ≤ hi) && decide (hi < 32) && decide (v < 2 ^ (hi - lo + 1)) && decide (target ≤ n)
  | .rst => true

/-- The registers and windows `wr` may name: registers, SYM_IN and BIT_IN words (R108). -/
def Loc.writable : Loc → Bool
  | .reg _ => true
  | .symIn _ => true
  | .bitIn _ => true
  | .freq _ => false
  | .ftOrder _ => false
  | .node _ _ => false
  | .cb _ _ => false
  | .bitOut _ => false
  | .symOut _ => false
  | .reserved => false

/-- A host statement (R108, R109): names are implemented places, `fill` and `fillbits` stay inside their
buffers, and a branch tests a field as in `PortOp.wf`. -/
def Stmt.wf (p : Params) : Stmt → Bool
  | .wr name _ => name.wf p && name.writable
  | .rd name _ => name.wf p
  | .cmd i => i.wf
  | .cmdWord _ => true
  | .wait => true
  | .ack => true
  | .fill text => decide (text.length ≤ p.maxLen)
  | .fillbits bits => decide (bits.length ≤ p.maxBits)
  | .label _ => true
  | .goto _ hi lo v _ => decide (lo ≤ hi) && decide (hi < 32) && decide (v < 2 ^ (hi - lo + 1))

end Sys2Proof
end

