-- ==== Sys2Proof/Decode.lean ====
section
/-! DEFINITION. The command word (spec/30_encoding.md): its fields, the decoder, total on every word and
rejecting by name, the encoder, and the opcode map as a table of masks. -/

namespace Sys2Proof

/-- OPC = w[7:0] (R100, R101). -/
def opcOf (w : Word) : BitVec 8 := w.extractLsb' 0 8

/-- S = w[8] (R100, R101). -/
def selOf (w : Word) : BitVec 1 := w.extractLsb' 8 1

/-- RES = w[31:9] (R100, R101). -/
def resOf (w : Word) : BitVec 23 := w.extractLsb' 9 23

/-- Why a word is ILLEGAL: the cases of R105. -/
inductive Illegal where
  /-- RES ≠ 0 -/
  | reservedBits
  /-- OPC = 0x00 or OPC in 0x09..0xFF -/
  | opcode
  /-- S = 1 with OPC in 0x01..0x08 other than 0x05 -/
  | sourceSelect
deriving DecidableEq, Repr

/-- A command whose S must be 0 (R101, R104). -/
def needsSZero (sel : BitVec 1) (i : Instr) : Except Illegal Instr :=
  if sel = 0#1 then .ok i else .error .sourceSelect

/-- `decodeCmd` of R104, with the reason of R105 where it returns ILLEGAL. -/
def decodeCmd (w : Word) : Except Illegal Instr :=
  if resOf w ≠ 0#23 then .error .reservedBits
  else
    match (opcOf w).toNat with
    | 0x01 => needsSZero (selOf w) .freq
    | 0x02 => needsSZero (selOf w) .tree
    | 0x03 => needsSZero (selOf w) .codes
    | 0x04 => needsSZero (selOf w) .encode
    | 0x05 => .ok (.decode (if selOf w = 0#1 then .bitIn else .bitOut))
    | 0x06 => needsSZero (selOf w) .stats
    | 0x07 => needsSZero (selOf w) .compress
    | 0x08 => needsSZero (selOf w) .clear
    | _ => .error .opcode

/-- The encoder: the word of a command (R103, R109). -/
def encode : Instr → Word
  | .freq => 0x00000001#32
  | .tree => 0x00000002#32
  | .codes => 0x00000003#32
  | .encode => 0x00000004#32
  | .decode .bitIn => 0x00000005#32
  | .decode .bitOut => 0x00000105#32
  | .stats => 0x00000006#32
  | .compress => 0x00000007#32
  | .clear => 0x00000008#32

/-- The command a word decodes to, if it is legal. -/
def legalCmd (w : Word) : Option Instr :=
  match decodeCmd w with
  | .ok i => some i
  | .error _ => none

/-- A row of the opcode map (R103): a word `w` selects it when `w & mask = match`. -/
structure OpcodeRow where
  mnemonic : String
  value : Word
  mask : Word
deriving DecidableEq, Repr

/-- Does the word select the row (R103)? -/
def OpcodeRow.selects (r : OpcodeRow) (w : Word) : Bool := decide (w &&& r.mask = r.value)

/-- The opcode map (R103). -/
def opcodeMap : List OpcodeRow :=
  [⟨"FREQ", 0x00000001#32, 0xFFFFFFFF#32⟩, ⟨"TREE", 0x00000002#32, 0xFFFFFFFF#32⟩,
   ⟨"CODES", 0x00000003#32, 0xFFFFFFFF#32⟩, ⟨"ENCODE", 0x00000004#32, 0xFFFFFFFF#32⟩,
   ⟨"DECODE", 0x00000005#32, 0xFFFFFEFF#32⟩, ⟨"STATS", 0x00000006#32, 0xFFFFFFFF#32⟩,
   ⟨"COMPRESS", 0x00000007#32, 0xFFFFFFFF#32⟩, ⟨"CLEAR", 0x00000008#32, 0xFFFFFFFF#32⟩]

/-- The command word that the low `nbits` bits of `w` stand for. The whole word is written at once (R71),
and every bit above `nbits` is 0. -/
def tableWord (nbits w : Nat) : Word := BitVec.ofNat 32 (w % 2 ^ nbits)

/-- What the decoder reads from a word numbered as the opcode table numbers it (bit 0 least significant);
HUFC's one instruction length is 32 bits (R107). -/
def decodeTableWord (nbits w : Nat) : Option Instr := legalCmd (tableWord nbits w)

end Sys2Proof
end

