-- ==== Sys2Proof/Machine/State.lean ====
section
/-! DEFINITION. The state of HUFC (spec/10_state.md), the reasons a step could stop, and the state after
reset (spec/70_reset_and_hazards.md rule R270). -/

namespace Sys2Proof.Machine

/-- The command sequencer SEQ (R21): idle, or executing the 32-bit command word `w`. -/
inductive Seq where
  | idle
  | busy (w : Word)
deriving DecidableEq, Repr

/-- The error codes of STATUS.ERR (R241); codes 4 to 15 are never produced (U13). -/
inductive ErrCode where
  /-- 0: success -/
  | ok
  /-- 1: `decodeCmd` gave ILLEGAL -/
  | illegalCmd
  /-- 2: a length register beyond its buffer -/
  | lenRange
  /-- 3: the encoded string would exceed MAX_BITS -/
  | capacity
deriving DecidableEq, Repr

/-- The tree state of STATUS.TREE (R37); 3 is never read (U13). -/
inductive TreeShape where
  /-- 0: no tree -/
  | absent
  /-- 1: a single leaf -/
  | single
  /-- 2: two or more leaves -/
  | general
deriving DecidableEq, Repr

/-- A record of the node arena NODE (R36). -/
structure NodeRec where
  isLeaf : Bool
  sym : Symbol
  freq : Word
  left : NodeIdx
  right : NodeIdx
deriving DecidableEq, Repr

/-- The frequency table: FREQ and FT_ORDER with FT_N and FT_TOTAL (R32, R34, R35). -/
structure FreqTable where
  freq : Vector Word 256
  ftOrder : List Symbol
  ftN : Word
  ftTotal : Word
deriving DecidableEq, Repr

/-- The tree: NODE with NODE_COUNT, ROOT and STATUS.TREE (R33, R36, R37). -/
structure HuffTree where
  node : List NodeRec
  nodeCount : Word
  root : NodeIdx
  shape : TreeShape
deriving DecidableEq, Repr

/-- The CodeBook CB: a bit-string per symbol, empty where the symbol has no entry (R42). -/
abbrev CodeBook := Vector Bits 256

/-- The encoded stream: BIT_OUT with BIT_OUT_LEN and ENC_SKIP (R30, R40). -/
structure Encoded where
  bitOut : Bits
  bitOutLen : Word
  encSkip : Word
deriving DecidableEq, Repr

/-- The decoded sequence: SYM_OUT with SYM_OUT_LEN and DEC_TAIL (R31, R41). -/
structure Decoded where
  symOut : List Symbol
  symOutLen : Word
  decTail : Word
deriving DecidableEq, Repr

/-- The six statistics registers (R43); `ratioNum` and `ratioBp` hold two's complement. -/
structure Stats where
  origBits : Word
  compBits : Word
  ratioNum : Word
  ratioDen : Word
  ratioBp : Word
  savedBits : Word
deriving DecidableEq, Repr

/-- The inputs: SYM_LEN, BIT_IN_LEN and the two input buffers (R28, R29, R38, R39). The buffers list the
elements (SYM_IN) and words (BIT_IN) the host has written since reset, indices rising; `launch`, the model's
own, counts resets and is the argument of the free contents of the rest (U1). -/
structure Inputs where
  symLen : Word
  bitInLen : Word
  symIn : List Host.Cell
  bitIn : List (Nat × Word)
  launch : Nat
deriving DecidableEq, Repr

/-- The outside of HUFC, the model's own: what the host and the platform still do at the port, in order
(R70, R89, R108), the position reached, and the host's temporaries. -/
structure HostAgent where
  prog : List PortOp
  pos : Nat
  temps : List (Nat × Word)
deriving DecidableEq, Repr

/-- What the spec leaves open between issue and completion (U2, U5), the model's own: `due` host statements
may still go by before the running command completes; `latencies` gives that number for the commands issued
next, and `draws` counts the free values drawn. -/
structure Env where
  due : Nat
  latencies : List Nat
  draws : Nat
deriving DecidableEq, Repr

/-- The state carried from one step to the next (R46). STATUS.BUSY is not stored: it is 1 exactly when `seq`
is not idle (R21). STATUS.TREE is `tre.shape`. -/
structure State where
  /-- MAX_LEN and MAX_BITS (R5, R23) -/
  cfg : Params
  /-- SEQ (R21) -/
  seq : Seq
  /-- CTRL.IE (R24) -/
  ie : Bool
  /-- STATUS.DONE (R26) -/
  done : Bool
  /-- STATUS.OVR (R26) -/
  ovr : Bool
  /-- STATUS.ERR (R26, R241) -/
  err : ErrCode
  /-- STATUS.LAST_OP (R26) -/
  lastOp : BitVec 8
  /-- SYM_LEN, BIT_IN_LEN, SYM_IN, BIT_IN -/
  inp : Inputs
  /-- FREQ, FT_ORDER, FT_N, FT_TOTAL -/
  tbl : FreqTable
  /-- NODE, NODE_COUNT, ROOT, STATUS.TREE -/
  tre : HuffTree
  /-- CB -/
  cb : CodeBook
  /-- BIT_OUT, BIT_OUT_LEN, ENC_SKIP -/
  enc : Encoded
  /-- SYM_OUT, SYM_OUT_LEN, DEC_TAIL -/
  dec : Decoded
  /-- STAT_* -/
  sts : Stats
  /-- the host and the platform (the model's own) -/
  host : HostAgent
  /-- the open timing (the model's own) -/
  env : Env
deriving DecidableEq, Repr

/-- The memories the core reads by an index that could lie outside them in a state no run reaches. -/
inductive Space where
  | ftOrder | node | bitOut
deriving DecidableEq, Repr

/-- Why a step could stop. HUFC itself has no faults (R240, R253): both reasons name what the spec says
cannot happen, and no state reached from reset raises them (notes/assumptions/5.md). -/
inductive Fault where
  /-- TREE, CODES, DECODE and COMPRESS raise it where the core would read `sp` outside its elements, which R94
  excludes. SAFE: the model stops where the spec admits no state (U4). -/
  | indexOutside (sp : Space)
  /-- CODES and COMPRESS raise it where the traversal goes deeper than 255 levels, which R161 excludes.
  SAFE: the model stops where the spec admits no state (U4). -/
  | codeTooLong
deriving DecidableEq, Repr

/-- Why an instruction has no meaning in the model. -/
inductive Refusal where
  /-- Raised by an arm of `exec` whose instruction has no meaning yet. SAFE. No arm raises it. -/
  | notModelled (mnemonic : String)
deriving DecidableEq, Repr

/-- The empty frequency table (R270). -/
def FreqTable.empty : FreqTable :=
  { freq := Vector.replicate 256 0#32, ftOrder := [], ftN := 0#32, ftTotal := 0#32 }

/-- The absent tree (R37, R270). -/
def HuffTree.absent : HuffTree :=
  { node := [], nodeCount := 0#32, root := 0#9, shape := .absent }

/-- The CodeBook without entries (R270). -/
def CodeBook.empty : CodeBook := Vector.replicate 256 []

/-- The empty encoded stream (R270). -/
def Encoded.empty : Encoded := { bitOut := [], bitOutLen := 0#32, encSkip := 0#32 }

/-- The empty decoded sequence (R270). -/
def Decoded.empty : Decoded := { symOut := [], symOutLen := 0#32, decTail := 0#32 }

/-- The statistics of the empty input, STAT_RATIO_DEN = 1 (R43, R270). -/
def Stats.zero : Stats :=
  { origBits := 0#32, compBits := 0#32, ratioNum := 0#32, ratioDen := 1#32, ratioBp := 0#32,
    savedBits := 0#32 }

/-- The inputs after the `launch`-th reset: lengths 0, nothing written (R270). -/
def Inputs.blank (launch : Nat) : Inputs :=
  { symLen := 0#32, bitInLen := 0#32, symIn := [], bitIn := [], launch := launch }

/-- The state after reset with the default parameters (R270). The fields `inp.launch`, `host` and `env` are
the model's own (notes/assumptions/1.md to 4.md). -/
def State.reset : State :=
  { cfg := Config.defaults
    seq := .idle
    ie := false
    done := false
    ovr := false
    err := .ok
    lastOp := 0#8
    inp := Inputs.blank 0
    tbl := FreqTable.empty
    tre := HuffTree.absent
    cb := CodeBook.empty
    enc := Encoded.empty
    dec := Decoded.empty
    sts := Stats.zero
    host := { prog := [], pos := 0, temps := [] }
    env := { due := 0, latencies := [], draws := 0 } }

end Sys2Proof.Machine
end

