-- ==== Sys2Proof/Machine/Ops.lean ====
section
/-! DEFINITION. The named operations over HUFC's memories and registers: the sparse memories, the tables
indexed by a symbol, the MSB-first packing, the writes of each command, and the life cycle of a command
(issue, completion, reset: spec/60_exceptions.md R245 to R247, spec/70_reset_and_hazards.md R270). -/

namespace Sys2Proof.Machine

/-! ### Sparse memories -/

/-- The canonical form: indices strictly rising. An index that is not listed holds no written value, so no
entry can equal what an unlisted index reads as (notes/assumptions/1.md). -/
abbrev Memory.wf {w : Nat} (m : List (Nat × BitVec w)) : Prop :=
  m.Pairwise (fun a b => a.1 < b.1)

/-- What was last written at an index; none where nothing was written since reset. -/
def Memory.find {w : Nat} : List (Nat × BitVec w) → Nat → Option (BitVec w)
  | [], _ => none
  | (k, x) :: m, i => if k = i then some x else Memory.find m i

/-- Writing one element, keeping the canonical form. -/
def Memory.put {w : Nat} : List (Nat × BitVec w) → Nat → BitVec w → List (Nat × BitVec w)
  | [], i, v => [(i, v)]
  | (k, x) :: m, i, v =>
    if i < k then (i, v) :: (k, x) :: m
    else if i = k then (i, v) :: m
    else (k, x) :: Memory.put m i v

/-! ### Tables indexed by a symbol (FREQ and CB) -/

/-- The element of a symbol. -/
def SymTable.get {α : Type} (t : Vector α 256) (x : Symbol) : α := t[x.toNat]'x.isLt

/-- Replacing the element of a symbol. -/
def SymTable.set {α : Type} (t : Vector α 256) (x : Symbol) (v : α) : Vector α 256 :=
  t.set x.toNat v x.isLt

/-- The same function of every element. -/
def SymTable.map {α β : Type} (f : α → β) (t : Vector α 256) : Vector β 256 :=
  ⟨⟨t.toList.map f⟩, by simp⟩

/-! ### Packing (R79, R80, R82, R84) -/

/-- The number whose `n` binary digits, most significant first, are `f 0 … f (n-1)`. -/
def packNat (f : Nat → Bool) : Nat → Nat
  | 0 => 0
  | n + 1 => 2 * packNat f n + (f n).toNat

/-- The word whose bit `31 − t` is `f t` (R84). -/
def packWord (f : Nat → Bool) : Word := BitVec.ofNat 32 (packNat f 32)

/-- Bit `k` of a stream whose word `j` is `word j`: word `k div 32`, word bit `31 − (k mod 32)` (R84). -/
def streamBit (word : Nat → Word) (k : Nat) : Bool := (word (k / 32)).getMsbD (k % 32)

/-! ### Writes of each command (R102), one per piece of the session -/

/-- Writing FREQ, FT_ORDER, FT_N, FT_TOTAL. -/
def State.setTable (s : State) (t : FreqTable) : State := { s with tbl := t }

/-- Writing NODE, NODE_COUNT, ROOT, STATUS.TREE. -/
def State.setTree (s : State) (t : HuffTree) : State := { s with tre := t }

/-- Writing CB. -/
def State.setCodes (s : State) (c : CodeBook) : State := { s with cb := c }

/-- Writing BIT_OUT, BIT_OUT_LEN, ENC_SKIP. -/
def State.setEncoded (s : State) (e : Encoded) : State := { s with enc := e }

/-- Writing SYM_OUT, SYM_OUT_LEN, DEC_TAIL. -/
def State.setDecoded (s : State) (d : Decoded) : State := { s with dec := d }

/-- Writing the six STAT_* registers. -/
def State.setStats (s : State) (x : Stats) : State := { s with sts := x }

/-! ### The life cycle of a command -/

/-- STATUS.BUSY (R21, R26). -/
def State.isBusy (s : State) : Bool :=
  match s.seq with
  | .idle => false
  | .busy _ => true

/-- COMPLETION (R246), the one shared end of every command: the error code is recorded, SEQ returns to IDLE
(so BUSY is 0) and DONE is set. HUFC has no trap entry (R253); this stands in its place. -/
def State.complete (s : State) (code : ErrCode) : State :=
  { s with err := code, seq := .idle, done := true }

/-- The four writes of an accepted issue (R245); BUSY is 1 by SEQ. -/
def State.acceptWord (s : State) (w : Word) : State :=
  { s with seq := .busy w, done := false, lastOp := opcOf w }

/-- The number of host statements that may go by before the command now issued completes (U5): the next
given latency, or a free value. -/
def State.drawLatency (s : State) : State :=
  match s.env.latencies with
  | d :: ds => { s with env := { s.env with due := d, latencies := ds } }
  | [] => { s with env := { s.env with due := Config.cmdLatency s.env.draws, draws := s.env.draws + 1 } }

/-- A host write was dropped because BUSY = 1 (R83, R247). -/
def State.setOvr (s : State) : State := { s with ovr := true }

/-- ISSUE (R245, R247): accepted while idle, dropped with OVR set while a command runs. -/
def State.issue (s : State) (w : Word) : State :=
  match s.seq with
  | .idle => (s.acceptWord w).drawLatency
  | .busy _ => s.setOvr

/-- An ILLEGAL word completes with ERR = 1 and writes nothing else (R243). -/
def State.completeIllegal (s : State) : State := s.complete .illegalCmd

/-- The session back at its reset values (R220). -/
def State.clearSession (s : State) : State :=
  { s with tbl := FreqTable.empty, tre := HuffTree.absent, cb := CodeBook.empty, enc := Encoded.empty,
           dec := Decoded.empty, sts := Stats.zero }

/-- RESET (R270): every piece of HUFC's state to its reset value, a running command ended without effect, and
fresh unspecified contents in the input buffers. The parameters are the instance's; the host, the given
latencies and the draw counter are not HUFC's and stay. -/
def State.assertRst (s : State) : State :=
  { State.reset with
    cfg := s.cfg
    inp := Inputs.blank (s.inp.launch + 1)
    host := s.host
    env := { due := 0, latencies := s.env.latencies, draws := s.env.draws } }

end Sys2Proof.Machine
end

