-- ==== Sys2Proof/Machine/Operands.lean ====
section
/-! DEFINITION. The implicit operands of the commands (spec/30_encoding.md R102): the input buffers as the core
reads them (spec/10_state.md R38, R39), and the two streams DECODE can read. -/

namespace Sys2Proof.Machine

/-- `MemRead(SYM_IN, i)`: what the host last wrote there, or the free initial content (R38, U1). -/
def Inputs.symAt (p : Inputs) (i : Nat) : Symbol :=
  match Memory.find p.symIn i with
  | some v => v
  | none => Config.symInInit p.launch i

/-- Word `j` of BIT_IN: what the host last wrote there, or the free initial content (R39, U1). -/
def Inputs.bitWordAt (p : Inputs) (j : Nat) : Word :=
  match Memory.find p.bitIn j with
  | some v => v
  | none => Config.bitInInit p.launch j

/-- `MemRead(BIT_IN, k)`: one bit (R39, R84). -/
def Inputs.bitAt (p : Inputs) (k : Nat) : Bool := streamBit p.bitWordAt k

/-- SYM_IN[0..SYM_LEN−1], the operand of FREQ, ENCODE and COMPRESS. -/
def State.symInput (s : State) : List Symbol := (List.range s.inp.symLen.toNat).map s.inp.symAt

/-- BIT_IN[0..BIT_IN_LEN−1], the operand of DECODE with S = 0. -/
def State.bitInput (s : State) : Bits := (List.range s.inp.bitInLen.toNat).map s.inp.bitAt

/-- SYM_LEN > MAX_LEN, the check of FREQ, ENCODE, STATS and COMPRESS (R241, R242). -/
def State.symLenBad (s : State) : Bool := decide (s.cfg.maxLen < s.inp.symLen.toNat)

/-- BIT_IN_LEN > MAX_BITS, the check of DECODE with S = 0 (R241, R242). -/
def State.bitInLenBad (s : State) : Bool := decide (s.cfg.maxBits < s.inp.bitInLen.toNat)

/-- `NODE[i]`; an index past the arena is what R94 excludes. -/
def nodeAt (nodes : List NodeRec) (i : Nat) : Except Fault NodeRec :=
  match nodes[i]? with
  | some r => .ok r
  | none => .error (.indexOutside .node)

/-- The first `n` elements of a memory; fewer elements than that is what R94 excludes. -/
def firstOf {α : Type} (sp : Space) (n : Nat) (xs : List α) : Except Fault (List α) :=
  if n ≤ xs.length then .ok (xs.take n) else .error (.indexOutside sp)

end Sys2Proof.Machine
end

