-- ==== Sys2Proof/Machine/Flags.lean ====
section
/-! DEFINITION. STATUS, CTRL and the interrupt output: how the fields are laid out in the words the host reads
(spec/10_state.md R24, R26), the write-one-to-clear write (R27), and `irq` (spec/60_exceptions.md R250). -/

namespace Sys2Proof.Machine

/-- The code of STATUS.ERR (R241). -/
def ErrCode.code : ErrCode → BitVec 4
  | .ok => 0#4
  | .illegalCmd => 1#4
  | .lenRange => 2#4
  | .capacity => 3#4

/-- The code of STATUS.TREE (R37). -/
def TreeShape.code : TreeShape → BitVec 2
  | .absent => 0#2
  | .single => 1#2
  | .general => 2#2

/-- The word the host reads from STATUS (R26), fields from high to low; the gaps are reserved bits. -/
def State.statusWord (s : State) : Word :=
  0#8 ++ s.lastOp ++ 0#6 ++ s.tre.shape.code ++ s.err.code ++ 0#1
    ++ BitVec.ofBool s.ovr ++ BitVec.ofBool s.done ++ BitVec.ofBool s.isBusy

/-- The word the host reads from CTRL (R24). -/
def State.ctrlWord (s : State) : Word := 0#31 ++ BitVec.ofBool s.ie

/-- A host write of `w` to STATUS: bits 1 and 2 clear DONE and OVR (R27). -/
def State.writeStatus (s : State) (w : Word) : State :=
  { s with done := s.done && !w.getLsbD 1, ovr := s.ovr && !w.getLsbD 2 }

/-- A host write of `w` to CTRL (R24). -/
def State.writeCtrl (s : State) (w : Word) : State := { s with ie := w.getLsbD 0 }

/-- The interrupt output `irq = CTRL.IE ∧ STATUS.DONE` (R250). -/
def State.irq (s : State) : Bool := s.ie && s.done

end Sys2Proof.Machine
end

