-- ==== Sys2Proof/Machine/HostPort.lean ====
section
/-! DEFINITION. The host port (spec/20_memory.md): the address map, what each place reads as, what a write does,
access while a command runs, and the statements of the host agent (spec/30_encoding.md R108). -/

namespace Sys2Proof.Machine

/-! ### The address map (R20, R72) -/

/-- The word offset of a register: its byte offset divided by 4 (R20). -/
def Reg.wordOffset : Reg → Nat
  | .id => 0x00 / 4
  | .paramMaxLen => 0x04 / 4
  | .paramMaxBits => 0x08 / 4
  | .ctrl => 0x0C / 4
  | .cmd => 0x10 / 4
  | .status => 0x14 / 4
  | .symLen => 0x18 / 4
  | .bitInLen => 0x1C / 4
  | .bitOutLen => 0x20 / 4
  | .encSkip => 0x24 / 4
  | .symOutLen => 0x28 / 4
  | .decTail => 0x2C / 4
  | .ftN => 0x30 / 4
  | .ftTotal => 0x34 / 4
  | .nodeCount => 0x38 / 4
  | .root => 0x3C / 4
  | .statOrigBits => 0x40 / 4
  | .statCompBits => 0x44 / 4
  | .statRatioNum => 0x48 / 4
  | .statRatioDen => 0x4C / 4
  | .statRatioBp => 0x50 / 4
  | .statSavedBits => 0x54 / 4

/-- The registers in the order of their offsets (R20). -/
def allRegs : List Reg :=
  [.id, .paramMaxLen, .paramMaxBits, .ctrl, .cmd, .status, .symLen, .bitInLen, .bitOutLen, .encSkip,
   .symOutLen, .decTail, .ftN, .ftTotal, .nodeCount, .root, .statOrigBits, .statCompBits, .statRatioNum,
   .statRatioDen, .statRatioBp, .statSavedBits]

/-- Word `k` of a NODE slot (R78). -/
def nodeWordOf : Nat → NodeWord
  | 0 => .freq
  | 1 => .info
  | 2 => .left
  | _ => .right

/-- The position of a word in its NODE slot (R78). -/
def nodeWordIndex : NodeWord → Nat
  | .freq => 0
  | .info => 1
  | .left => 2
  | .right => 3

/-- Place `loc` where the window implements it, else reserved (R72: the unimplemented tail of a window). -/
def implementedIf (c : Bool) (loc : Loc) : Loc := if c then loc else .reserved

/-- The place a word index (byte address divided by 4) names, by the map of R72. -/
def locateWord (p : Params) (a : Nat) : Loc :=
  if a < 0x0100 / 4 then
    match allRegs[a]? with
    | some r => .reg r
    | none => .reserved
  else if a < 0x1000 / 4 then .reserved
  else if a < 0x1400 / 4 then .freq (BitVec.ofNat 8 (a - 0x1000 / 4))
  else if a < 0x1800 / 4 then .ftOrder (a - 0x1400 / 4)
  else if a < 0x2000 / 4 then .reserved
  else if a < 0x4000 / 4 then .node ((a - 0x2000 / 4) / 4) (nodeWordOf ((a - 0x2000 / 4) % 4))
  else if a < 0x8000 / 4 then .cb (BitVec.ofNat 8 ((a - 0x4000 / 4) / 16)) ((a - 0x4000 / 4) % 16)
  else if a < 0x01000000 / 4 then .reserved
  else if a < 0x02000000 / 4 then
    implementedIf (decide (a - 0x01000000 / 4 < p.maxLen)) (.symIn (a - 0x01000000 / 4))
  else if a < 0x03000000 / 4 then
    implementedIf (decide (a - 0x02000000 / 4 < p.maxBits / 32)) (.bitIn (a - 0x02000000 / 4))
  else if a < 0x04000000 / 4 then
    implementedIf (decide (a - 0x03000000 / 4 < p.maxBits / 32)) (.bitOut (a - 0x03000000 / 4))
  else if a < 0x08000000 / 4 then
    implementedIf (decide (a - 0x04000000 / 4 < p.maxBits)) (.symOut (a - 0x04000000 / 4))
  else .reserved

/-- The place an address names: address bits 1..0 are ignored (R71). -/
def locate (p : Params) (addr : Word) : Loc := locateWord p (addr.toNat / 4)

/-- The word index of a place (R72); for a reserved place the first reserved register offset. -/
def wordIndex : Loc → Nat
  | .reg r => Reg.wordOffset r
  | .freq x => 0x1000 / 4 + x.toNat
  | .ftOrder i => 0x1400 / 4 + i
  | .node i k => 0x2000 / 4 + 4 * i + nodeWordIndex k
  | .cb x k => 0x4000 / 4 + 16 * x.toNat + k
  | .symIn i => 0x01000000 / 4 + i
  | .bitIn j => 0x02000000 / 4 + j
  | .bitOut j => 0x03000000 / 4 + j
  | .symOut i => 0x04000000 / 4 + i
  | .reserved => 0x58 / 4

/-- The address of a place (R72, R108 "address of NAME"). -/
def addressOf (loc : Loc) : Word := BitVec.ofNat 32 (4 * wordIndex loc)

/-! ### What each place reads as -/

/-- The constant of ID (R22). -/
def idConstant : Word := 0x48554631#32

/-- What a register reads as when its value is defined (R20 to R33, R43, R74). -/
def State.regRead (s : State) : Reg → Word
  | .id => idConstant
  | .paramMaxLen => BitVec.ofNat 32 s.cfg.maxLen
  | .paramMaxBits => BitVec.ofNat 32 s.cfg.maxBits
  | .ctrl => s.ctrlWord
  | .cmd => 0#32
  | .status => s.statusWord
  | .symLen => s.inp.symLen
  | .bitInLen => s.inp.bitInLen
  | .bitOutLen => s.enc.bitOutLen
  | .encSkip => s.enc.encSkip
  | .symOutLen => s.dec.symOutLen
  | .decTail => s.dec.decTail
  | .ftN => s.tbl.ftN
  | .ftTotal => s.tbl.ftTotal
  | .nodeCount => s.tre.nodeCount
  | .root => s.tre.root.setWidth 32
  | .statOrigBits => s.sts.origBits
  | .statCompBits => s.sts.compBits
  | .statRatioNum => s.sts.ratioNum
  | .statRatioDen => s.sts.ratioDen
  | .statRatioBp => s.sts.ratioBp
  | .statSavedBits => s.sts.savedBits

/-- A word of the FT_ORDER or SYM_OUT window: the symbol zero-extended below the length, 0 past it
(R76, R81, R85). -/
def symWord (syms : List Symbol) (len : Word) (i : Nat) : Word :=
  if i < len.toNat then (syms[i]?.getD 0#8).setWidth 32 else 0#32

/-- A word of a NODE record (R78). -/
def NodeRec.word (r : NodeRec) : NodeWord → Word
  | .freq => r.freq
  | .info => BitVec.ofBool r.isLeaf ++ 0#23 ++ r.sym
  | .left => r.left.setWidth 32
  | .right => r.right.setWidth 32

/-- A word of the NODE window: 0 past NODE_COUNT (R78). -/
def HuffTree.windowWord (t : HuffTree) (i : Nat) (k : NodeWord) : Word :=
  if i < t.nodeCount.toNat then
    match t.node[i]? with
    | some r => r.word k
    | none => 0#32
  else 0#32

/-- A word of a bit-string packed MSB-first, bits past its length reading 0 (R80, R82, R84). -/
def packedWord (bits : Bits) (len j : Nat) : Word :=
  packWord (fun t => decide (32 * j + t < len) && bits.getD (32 * j + t) false)

/-- Word `k` of a CB window entry (R82). -/
def codeWord (code : Bits) (k : Nat) : Word :=
  if k = 0 then BitVec.ofNat 32 code.length
  else if k ≤ 8 then packedWord code code.length (k - 1)
  else 0#32

/-- What a place reads as when its value is defined (R73 to R82). -/
def State.view (s : State) : Loc → Word
  | .reg r => s.regRead r
  | .freq x => SymTable.get s.tbl.freq x
  | .ftOrder i => symWord s.tbl.ftOrder s.tbl.ftN i
  | .node i k => s.tre.windowWord i k
  | .cb x k => codeWord (SymTable.get s.cb x) k
  | .symIn i => (s.inp.symAt i).setWidth 32
  | .bitIn j => s.inp.bitWordAt j
  | .bitOut j => packedWord s.enc.bitOut s.enc.bitOutLen.toNat j
  | .symOut i => symWord s.dec.symOut s.dec.symOutLen i
  | .reserved => 0#32

/-! ### Transactions -/

/-- The result registers, offsets 0x20 to 0x54 (R83). -/
def Reg.isResult (r : Reg) : Bool := decide (0x20 / 4 ≤ Reg.wordOffset r)

/-- The result registers and result windows, which R83 leaves unspecified while a command runs. -/
def Loc.isResult : Loc → Bool
  | .reg r => Reg.isResult r
  | .freq _ => true
  | .ftOrder _ => true
  | .node _ _ => true
  | .cb _ _ => true
  | .bitOut _ => true
  | .symOut _ => true
  | .symIn _ => false
  | .bitIn _ => false
  | .reserved => false

/-- `HostRead(addr)` (R70): the word, and the state after it. A read changes nothing of HUFC (R88); a result read
while busy draws a free word (R83, U2). -/
def State.hostRead (s : State) (addr : Word) : Word × State :=
  if s.isBusy && Loc.isResult (locate s.cfg addr) then
    (Config.busyRead s.env.draws, { s with env := { s.env with draws := s.env.draws + 1 } })
  else (s.view (locate s.cfg addr), s)

/-- A write of an input register or buffer word while idle (R28, R29, R77, R79). -/
def State.writeInput (s : State) (p : Inputs) : State :=
  if s.isBusy then s.setOvr else { s with inp := p }

/-- A write to a register (R74): CTRL, CMD, STATUS, SYM_LEN and BIT_IN_LEN as their rules say; every other
register ignores it (R73). -/
def State.writeReg (s : State) (r : Reg) (w : Word) : State :=
  match r with
  | .ctrl => s.writeCtrl w
  | .cmd => s.issue w
  | .status => s.writeStatus w
  | .symLen => s.writeInput { s.inp with symLen := w }
  | .bitInLen => s.writeInput { s.inp with bitInLen := w }
  | .id | .paramMaxLen | .paramMaxBits | .bitOutLen | .encSkip | .symOutLen | .decTail | .ftN | .ftTotal
  | .nodeCount | .root | .statOrigBits | .statCompBits | .statRatioNum | .statRatioDen | .statRatioBp
  | .statSavedBits => s

/-- A write to a place (R73, R74, R77, R79, R83): a register as its rule says, an input buffer when idle; every
other place ignores it. -/
def State.writeLoc (s : State) (loc : Loc) (w : Word) : State :=
  match loc with
  | .reg r => s.writeReg r w
  | .symIn i => s.writeInput { s.inp with symIn := Memory.put s.inp.symIn i (w.setWidth 8) }
  | .bitIn j => s.writeInput { s.inp with bitIn := Memory.put s.inp.bitIn j w }
  | .freq _ | .ftOrder _ | .node _ _ | .cb _ _ | .bitOut _ | .symOut _ | .reserved => s

/-- `HostWrite(addr, w)` (R70). -/
def State.hostWrite (s : State) (addr w : Word) : State := s.writeLoc (locate s.cfg addr) w

/-! ### The host agent (R89, R108) -/

/-- The field `t[hi:lo]` of a word (R8). -/
def fieldOf (w : Word) (hi lo : Nat) : Nat := w.toNat / 2 ^ lo % 2 ^ (hi - lo + 1)

/-- Is the branch taken? Its test is of the value last read into the temporary (R108); with none, it is not
(notes/assumptions/6.md). -/
def HostAgent.branchTaken (h : HostAgent) (t hi lo v : Nat) : Bool :=
  match Memory.find h.temps t with
  | some w => decide (fieldOf w hi lo = v)
  | none => false

/-- Moving the host to another position of its list. -/
def State.hostAt (s : State) (pos : Nat) : State := { s with host := { s.host with pos := pos } }

/-- One entry of the outside: a transaction, a branch of the host's own, or `rst` (R70, R108, R270). -/
def State.perform (s : State) (op : PortOp) : State :=
  match op with
  | .rd addr t =>
    let (w, s1) := s.hostRead addr
    { s1 with host := { s1.host with temps := Memory.put s1.host.temps t w, pos := s1.host.pos + 1 } }
  | .wr addr w => (s.hostWrite addr w).hostAt (s.host.pos + 1)
  | .br t hi lo v target =>
    s.hostAt (if s.host.branchTaken t hi lo v then target else s.host.pos + 1)
  | .rst => s.assertRst.hostAt (s.host.pos + 1)

/-- What the outside does next, if anything (R108: a program ends after its last statement). -/
def HostAgent.next (h : HostAgent) : Option PortOp := h.prog[h.pos]?

/-- The turn of the outside: its next entry, or nothing (R261: an idle HUFC holds all its state). -/
def State.hostTurn (s : State) : State :=
  match s.host.next with
  | some op => s.perform op
  | none => s

/-- One of the host statements that may go by before the running command completes has gone by (U5). -/
def State.tickDue (s : State) : State := { s with env := { s.env with due := s.env.due - 1 } }

/-- Is the running command's completion the next thing to happen (R246, U5)? It is when no host statement may go
by any more, or the host has none. -/
def State.completionDue (s : State) : Bool := decide (s.env.due = 0) || s.host.next.isNone

/-- The end of a run (R286): the host has performed its last transaction and SEQ is IDLE. -/
def State.runOver (s : State) : Bool := s.host.next.isNone && !s.isBusy

end Sys2Proof.Machine
end

