-- ==== Sys2Proof/Machine/Assembler.lean ====
section
/-! DEFINITION. The host's assembler (spec/30_encoding.md R108, R109): the pseudo-instructions expand into
transactions and branches, labels into positions; and the disassembly of a command word. -/

namespace Sys2Proof.Machine

/-- The temporary of `wait`'s own loop; temporary `t` of a program is numbered `t + 1`. -/
def waitTemp : Nat := 0

/-- The transactions of `fill`: SYM_IN words in order, then SYM_LEN (R109). -/
def fillWrites : Nat → List Symbol → List PortOp
  | n, [] => [.wr (addressOf (.reg .symLen)) (BitVec.ofNat 32 n)]
  | i, x :: xs => .wr (addressOf (.symIn i)) (x.setWidth 32) :: fillWrites (i + 1) xs

/-- The number of 32-bit words that hold `m` bits: ⌈m/32⌉ (R109). -/
def wordsFor (m : Nat) : Nat := (m + 31) / 32

/-- The transactions of `fillbits`: BIT_IN words in order, then BIT_IN_LEN (R109). -/
def fillbitsWrites (bits : Bits) : List PortOp :=
  (List.range (wordsFor bits.length)).map
      (fun j => .wr (addressOf (.bitIn j)) (packedWord bits bits.length j))
    ++ [.wr (addressOf (.reg .bitInLen)) (BitVec.ofNat 32 bits.length)]

/-- How many port entries a statement expands to (R109). -/
def Stmt.size : Stmt → Nat
  | .wr _ _ => 1
  | .rd _ _ => 1
  | .cmd _ => 1
  | .cmdWord _ => 1
  | .wait => 2
  | .ack => 1
  | .fill text => text.length + 1
  | .fillbits bits => wordsFor bits.length + 1
  | .label _ => 0
  | .goto _ _ _ _ _ => 1

/-- The positions of the labels of a program that starts at `pos` (R108). -/
def labelPositions : Nat → List Stmt → List (Nat × Nat)
  | _, [] => []
  | pos, .label l :: rest => (l, pos) :: labelPositions pos rest
  | pos, st :: rest => labelPositions (pos + Stmt.size st) rest

/-- The position of a label; none unless it is defined exactly once. -/
def labelPos (labels : List (Nat × Nat)) (l : Nat) : Option Nat :=
  match labels.filter (fun p => decide (p.1 = l)) with
  | [p] => some p.2
  | _ => none

/-- The expansion of one statement at position `pos` (R109); none where it goes to a label without a
position. -/
def Stmt.expand (labels : List (Nat × Nat)) (pos : Nat) : Stmt → Option (List PortOp)
  | .wr name v => some [.wr (addressOf name) v]
  | .rd name t => some [.rd (addressOf name) (t + 1)]
  | .cmd i => some [.wr (addressOf (.reg .cmd)) (Sys2Proof.encode i)]
  | .cmdWord v => some [.wr (addressOf (.reg .cmd)) v]
  | .wait => some [.rd (addressOf (.reg .status)) waitTemp, .br waitTemp 0 0 1 pos]
  | .ack => some [.wr (addressOf (.reg .status)) 0x00000006#32]
  | .fill text => some (fillWrites 0 text)
  | .fillbits bits => some (fillbitsWrites bits)
  | .label _ => some []
  | .goto t hi lo v l =>
    match labelPos labels l with
    | some target => some [.br (t + 1) hi lo v target]
    | none => none

/-- The expansion of the statements from position `pos` on. -/
def expandFrom (labels : List (Nat × Nat)) : Nat → List Stmt → Option (List PortOp)
  | _, [] => some []
  | pos, st :: rest =>
    match Stmt.expand labels pos st, expandFrom labels (pos + Stmt.size st) rest with
    | some ops, some more => some (ops ++ more)
    | _, _ => none

/-- A host program as port entries (R108, R109). -/
def assemble (stmts : List Stmt) : Option (List PortOp) := expandFrom (labelPositions 0 stmts) 0 stmts

/-- Loading a host program, from its first statement, with no temporary read. -/
def State.withHostProgram (s : State) (prog : List PortOp) : State :=
  { s with host := { prog := prog, pos := 0, temps := [] } }

/-- The `n` low hexadecimal digits of a number, most significant first, in capitals. -/
def hexDigits : Nat → Nat → List Char
  | 0, _ => []
  | n + 1, v => hexDigits n (v / 16) ++ [("0123456789ABCDEF".toList.getD (v % 16) '0')]

/-- Disassembly of a command word (R108): a mnemonic with DECODE's source, or `.word 0x%08X`. -/
def disassemble (w : Word) : String :=
  match decodeCmd w with
  | .ok (.decode .bitIn) => "DECODE src=in"
  | .ok (.decode .bitOut) => "DECODE src=out"
  | .ok i => i.mnemonic
  | .error _ => ".word 0x" ++ String.ofList (hexDigits 8 w.toNat)

end Sys2Proof.Machine
end

