-- ==== Sys2Proof/Machine/CodeBook.lean ====
section
/-! DEFINITION. CODES, the code-book generator (spec/42_codebook.md): a depth-first traversal of the tree. -/

namespace Sys2Proof.Machine

/-- `visit(n, p)` of R160: a leaf records the bits from the root to it; an internal node is left before right.
`levels` is how many levels may still be below `n`: R161 says there are at most 255. -/
def visit (nodes : List NodeRec) (levels n : Nat) (p : Bits) (c : CodeBook) : Except Fault CodeBook :=
  match nodeAt nodes n with
  | .error f => .error f
  | .ok r =>
    if r.isLeaf then .ok (SymTable.set c r.sym p)
    else
      match levels with
      | 0 => .error .codeTooLong
      | l + 1 =>
        match visit nodes l r.left.toNat (p ++ [false]) c with
        | .error f => .error f
        | .ok c' => visit nodes l r.right.toNat (p ++ [true]) c'

/-- The CodeBook of a tree (R160). -/
def generateCodes (t : HuffTree) : Except Fault CodeBook :=
  match t.shape with
  | .absent => .ok CodeBook.empty
  | .single =>
    match nodeAt t.node 0 with
    | .ok r => .ok (SymTable.set CodeBook.empty r.sym [false])
    | .error f => .error f
  | .general => visit t.node Config.maxCode t.root.toNat [] CodeBook.empty

/-- CODES (R160). -/
def execCodes (s : State) : Host.Outcome State Fault Refusal :=
  match generateCodes s.tre with
  | .ok c => .next ((s.setCodes c).complete .ok)
  | .error f => .fault f

end Sys2Proof.Machine
end

