-- ==== Sys2Proof/Machine/Codec.lean ====
section
/-! DEFINITION. ENCODE and DECODE, the bit-stream codec (spec/43_codec.md). -/

namespace Sys2Proof.Machine

/-- The length of the encoded string: `total` of R180. -/
def encodedLength (c : CodeBook) (syms : List Symbol) : Nat :=
  (syms.map (fun x => (SymTable.get c x).length)).sum

/-- The concatenation of the CodeBook entries in input order (R180); an empty entry contributes nothing. -/
def encodedBits (c : CodeBook) (syms : List Symbol) : Bits := syms.flatMap (SymTable.get c)

/-- How many symbols have no entry (R181). -/
def skippedCount (c : CodeBook) (syms : List Symbol) : Nat :=
  syms.countP (fun x => (SymTable.get c x).isEmpty)

/-- The body of ENCODE (R180); none where the string would be longer than `maxBits` (CAPACITY). -/
def encodeSymbols (maxBits : Nat) (c : CodeBook) (syms : List Symbol) : Option Encoded :=
  if maxBits < encodedLength c syms then none
  else some
    { bitOut := encodedBits c syms
      bitOutLen := BitVec.ofNat 32 (encodedBits c syms).length
      encSkip := BitVec.ofNat 32 (skippedCount c syms) }

/-- ENCODE (R180): LEN_RANGE first, then CAPACITY. -/
def execEncode (s : State) : Host.Outcome State Fault Refusal :=
  if s.symLenBad then .next (s.complete .lenRange)
  else
    match encodeSymbols s.cfg.maxBits s.cb s.symInput with
    | none => .next (s.complete .capacity)
    | some e => .next ((s.setEncoded e).complete .ok)

/-- The walk of R190 in the general state, from node `cur` with `tail` bits consumed since the last symbol:
the symbols emitted, and the bits left over at the end. -/
def walk (nodes : List NodeRec) (root : Nat) : Bits → Nat → Nat → Except Fault (List Symbol × Nat)
  | [], _, tail => .ok ([], tail)
  | b :: bs, cur, tail =>
    match nodeAt nodes cur with
    | .error f => .error f
    | .ok r =>
      let cur' := if b then r.right.toNat else r.left.toNat
      match nodeAt nodes cur' with
      | .error f => .error f
      | .ok r' =>
        if r'.isLeaf then
          match walk nodes root bs root 0 with
          | .error f => .error f
          | .ok (out, tl) => .ok (r'.sym :: out, tl)
        else walk nodes root bs cur' (tail + 1)

/-- The body of DECODE on a stream (R190, R191). -/
def decodeBits (t : HuffTree) (bits : Bits) : Except Fault (List Symbol × Nat) :=
  match t.shape with
  | .absent => .ok ([], 0)
  | .single =>
    match nodeAt t.node 0 with
    | .ok r => .ok (List.replicate bits.length r.sym, 0)
    | .error f => .error f
  | .general => walk t.node t.root.toNat bits t.root.toNat 0

/-- DECODE on the stream `bits` (R190). -/
def State.decodeStream (s : State) (bits : Bits) : Host.Outcome State Fault Refusal :=
  match decodeBits s.tre bits with
  | .ok (out, tail) =>
    .next ((s.setDecoded
      { symOut := out, symOutLen := BitVec.ofNat 32 out.length, decTail := BitVec.ofNat 32 tail }).complete .ok)
  | .error f => .fault f

/-- DECODE (R190): S selects the stream; only BIT_IN_LEN is checked (R242). -/
def execDecode (src : Src) (s : State) : Host.Outcome State Fault Refusal :=
  match src with
  | .bitIn => if s.bitInLenBad then .next (s.complete .lenRange) else s.decodeStream s.bitInput
  | .bitOut =>
    match firstOf .bitOut s.enc.bitOutLen.toNat s.enc.bitOut with
    | .ok bits => s.decodeStream bits
    | .error f => .fault f

end Sys2Proof.Machine
end

