-- ==== Sys2Proof/Machine/Frequency.lean ====
section
/-! DEFINITION. FREQ, the frequency counter (spec/40_frequency.md). -/

namespace Sys2Proof.Machine

/-- What the pass of FREQ carries: the counts, as mathematical integers, and the keys met so far in order of
first occurrence (R120). -/
structure Counting where
  counts : Vector Nat 256
  order : List Symbol
deriving DecidableEq, Repr

/-- The pass before its first symbol (R120). -/
def Counting.start : Counting := { counts := Vector.replicate 256 0, order := [] }

/-- The body of FREQ's loop for one symbol (R120). -/
def Counting.count (a : Counting) (x : Symbol) : Counting :=
  { counts := SymTable.set a.counts x (SymTable.get a.counts x + 1)
    order := if SymTable.get a.counts x = 0 then a.order ++ [x] else a.order }

/-- The frequency table of a symbol sequence: one linear pass (R120, R121). -/
def buildFrequencyTable (syms : List Symbol) : FreqTable :=
  let a := syms.foldl Counting.count Counting.start
  { freq := SymTable.map (BitVec.ofNat 32) a.counts
    ftOrder := a.order
    ftN := BitVec.ofNat 32 a.order.length
    ftTotal := BitVec.ofNat 32 syms.length }

/-- FREQ (R120). -/
def execFreq (s : State) : Host.Outcome State Fault Refusal :=
  if s.symLenBad then .next (s.complete .lenRange)
  else .next ((s.setTable (buildFrequencyTable s.symInput)).complete .ok)

end Sys2Proof.Machine
end

