-- ==== Sys2Proof/Machine/Tree.lean ====
section
/-! DEFINITION. TREE, the tree builder (spec/41_tree.md): a priority queue of (frequency, index) pairs and the
merge of its two least. -/

namespace Sys2Proof.Machine

/-- The priority queue Q: pairs (frequency, node index), least first (R142; R144 leaves the structure open). -/
abbrev Queue := List (Nat × Nat)

/-- The order of R142: smaller frequency first, and for equal frequencies smaller index first. -/
def queueBefore (p q : Nat × Nat) : Bool := decide (p.1 < q.1) || (decide (p.1 = q.1) && decide (p.2 < q.2))

/-- `insert(Q, p)` of R142, keeping the least pair first. -/
def Queue.insert (p : Nat × Nat) : Queue → Queue
  | [] => [p]
  | q :: qs => if queueBefore p q then p :: q :: qs else q :: Queue.insert p qs

/-- `extractMin(Q)` of R142: the least pair and the queue without it. -/
def Queue.extractMin : Queue → Option ((Nat × Nat) × Queue)
  | [] => none
  | q :: qs => some (q, qs)

/-- The leaf of a key (R140). -/
def leafOf (freq : Vector Word 256) (x : Symbol) : NodeRec :=
  { isLeaf := true, sym := x, freq := SymTable.get freq x, left := 0#9, right := 0#9 }

/-- The internal node over nodes `a` and `b` with frequency sum `f` (R140). -/
def internalOf (f a b : Nat) : NodeRec :=
  { isLeaf := false, sym := 0#8, freq := BitVec.ofNat 32 f, left := BitVec.ofNat 9 a,
    right := BitVec.ofNat 9 b }

/-- The queue of the leaves `ls`, the first of which has index `i` (R140, R141). -/
def enqueueLeaves : Nat → List NodeRec → Queue → Queue
  | _, [], q => q
  | i, r :: rs, q => enqueueLeaves (i + 1) rs (Queue.insert (r.freq.toNat, i) q)

/-- The merge loop of R140, `while |Q| > 1`, with the number of merges still to come as the bound: the pair
removed first goes left, the pair removed second right, and the new node's index is the arena's length. -/
def mergeLoop : Nat → Queue → List NodeRec → List NodeRec
  | 0, _, arena => arena
  | n + 1, q, arena =>
    match q.extractMin with
    | none => arena
    | some ((fa, a), q1) =>
      match q1.extractMin with
      | none => arena
      | some ((fb, b), q2) =>
        mergeLoop n (q2.insert (fa + fb, arena.length)) (arena ++ [internalOf (fa + fb) a b])

/-- The tree over the keys `keys` with their counts (R140): absent, a single leaf, or N − 1 merges. -/
def huffman (freq : Vector Word 256) (keys : List Symbol) : HuffTree :=
  match keys with
  | [] => HuffTree.absent
  | [x] => { node := [leafOf freq x], nodeCount := 1#32, root := 0#9, shape := .single }
  | x :: y :: rest =>
    let leaves := (x :: y :: rest).map (leafOf freq)
    { node := mergeLoop (leaves.length - 1) (enqueueLeaves 0 leaves []) leaves
      nodeCount := BitVec.ofNat 32 (2 * leaves.length - 1)
      root := BitVec.ofNat 9 (2 * leaves.length - 2)
      shape := .general }

/-- The tree of a frequency table: its keys are FT_ORDER[0..FT_N−1] (R140, R141). -/
def buildTree (t : FreqTable) : Except Fault HuffTree :=
  match firstOf .ftOrder t.ftN.toNat t.ftOrder with
  | .ok keys => .ok (huffman t.freq keys)
  | .error f => .error f

/-- TREE (R140). -/
def execTree (s : State) : Host.Outcome State Fault Refusal :=
  match buildTree s.tbl with
  | .ok t => .next ((s.setTree t).complete .ok)
  | .error f => .fault f

end Sys2Proof.Machine
end

