-- ==== Sys2Proof/Machine/StatsControl.lean ====
section
/-! DEFINITION. STATS, COMPRESS and CLEAR (spec/44_stats_control.md). -/

namespace Sys2Proof.Machine

/-- `sat32s`: clamping to the signed 32-bit range (R10). -/
def sat32s (v : Int) : Int := max (-2 ^ 31) (min v (2 ^ 31 - 1))

/-- The numerator of ratioPercent (R211). -/
def ratioNumOf (orig comp : Nat) : Int := if orig = 0 then 0 else ((orig : Int) - comp) * 100

/-- The denominator of ratioPercent (R211). -/
def ratioDenOf (orig : Nat) : Nat := if orig = 0 then 1 else orig

/-- The ratio in hundredths of a percent: truncated toward zero, then clamped (R211). -/
def ratioBpOf (orig comp : Nat) : Int :=
  if orig = 0 then 0 else sat32s (Int.tdiv (ratioNumOf orig comp * 100) orig)

/-- `statsFn` of R211. -/
def statsOf (orig comp : Nat) : Stats :=
  { origBits := BitVec.ofNat 32 orig
    compBits := BitVec.ofNat 32 comp
    ratioNum := BitVec.ofInt 32 (ratioNumOf orig comp)
    ratioDen := BitVec.ofNat 32 (ratioDenOf orig)
    ratioBp := BitVec.ofInt 32 (ratioBpOf orig comp)
    savedBits := BitVec.ofNat 32 (orig - comp) }

/-- STATS (R210): from SYM_LEN and BIT_OUT_LEN only. -/
def execStats (s : State) : Host.Outcome State Fault Refusal :=
  if s.symLenBad then .next (s.complete .lenRange)
  else .next ((s.setStats (statsOf (8 * s.inp.symLen.toNat) s.enc.bitOutLen.toNat)).complete .ok)

/-- The ENCODE and STATS stages of COMPRESS on a state whose table, tree and CodeBook are written (R215): where
ENCODE raises CAPACITY, those three are kept and nothing else is written. -/
def State.compressTail (s : State) : State :=
  match encodeSymbols s.cfg.maxBits s.cb s.symInput with
  | none => s.complete .capacity
  | some e =>
    ((s.setEncoded e).setStats (statsOf (8 * s.inp.symLen.toNat) e.bitOutLen.toNat)).complete .ok

/-- COMPRESS (R215): one length check, then the bodies of FREQ, TREE, CODES, ENCODE and STATS. -/
def execCompress (s : State) : Host.Outcome State Fault Refusal :=
  if s.symLenBad then .next (s.complete .lenRange)
  else
    let t := buildFrequencyTable s.symInput
    match buildTree t with
    | .error f => .fault f
    | .ok h =>
      match generateCodes h with
      | .error f => .fault f
      | .ok c => .next (((s.setTable t).setTree h).setCodes c).compressTail

/-- CLEAR (R220). -/
def execClear (s : State) : Host.Outcome State Fault Refusal := .next (s.clearSession.complete .ok)

end Sys2Proof.Machine
end

