-- ==== Sys2Proof/Machine/Dispatch.lean ====
section
/-! DEFINITION. One arm per command of the opcode table (spec/30_encoding.md R103). -/

namespace Sys2Proof.Machine

def exec (i : Instr) (s : State) : Host.Outcome State Fault Refusal :=
  match i with
  | .freq => Sys2Proof.Machine.execFreq s
  | .tree => Sys2Proof.Machine.execTree s
  | .codes => Sys2Proof.Machine.execCodes s
  | .encode => Sys2Proof.Machine.execEncode s
  | .decode src => Sys2Proof.Machine.execDecode src s
  | .stats => Sys2Proof.Machine.execStats s
  | .compress => Sys2Proof.Machine.execCompress s
  | .clear => Sys2Proof.Machine.execClear s

end Sys2Proof.Machine
end

