-- ==== Sys2Proof/Machine/Step.lean ====
section
/-! DEFINITION. One step of HUFC and its outside: the turn of the host, or the completion of the running command
(spec/60_exceptions.md R246). -/

namespace Sys2Proof.Machine

/-- The core's one enabled step while SEQ = BUSY(w) (R246): the whole command and its completion; an ILLEGAL word
completes with ERR = 1 (R243). -/
def runCommand (w : Word) (s : State) : Host.Outcome State Fault Refusal :=
  match decodeCmd w with
  | .ok i => exec i s
  | .error _ => .next s.completeIllegal

/-- One step. While idle, the outside's next entry, or nothing (R261). While a command runs, its completion when
that is due, else one more entry of the outside (R246: host transactions may occur between issue and
completion). -/
def step (s : State) : Host.Outcome State Fault Refusal :=
  match s.seq with
  | .idle => .next s.hostTurn
  | .busy w => if s.completionDue then runCommand w s else .next s.tickDue.hostTurn

/-- `s` with the word just accepted (R245) and its completion due, so that the very next step runs it
(notes/assumptions/7.md). -/
def State.withFetchWord (s : State) (nbits w : Nat) : State :=
  let s1 := s.acceptWord (tableWord nbits w)
  { s1 with env := { s1.env with due := 0 } }

end Sys2Proof.Machine
end

