-- ==== Sys2Proof/Safety.lean ====
section
/-! DEFINITION. The terms the statements use: the invariant of the machine (spec/10_state.md R30 to R43, R94), the
tree and the code as the spec describes them (spec/41_tree.md R146, spec/42_codebook.md R162), and what each
command may write (spec/30_encoding.md R102). -/

namespace Sys2Proof.Machine

/-! ### The frequency table (R34, R35) -/

/-- R35: FT_N keys, no key twice, a count exactly for the keys, and the total is the sum of the counts; R34: no
count exceeds MAX_LEN. -/
structure FreqTable.Ok (p : Params) (t : FreqTable) : Prop where
  size : t.ftN.toNat = t.ftOrder.length
  distinct : t.ftOrder.Nodup
  keys : ∀ x : Symbol, x ∈ t.ftOrder ↔ 0 < (SymTable.get t.freq x).toNat
  total : t.ftTotal.toNat = (t.freq.toList.map BitVec.toNat).sum
  bound : t.ftTotal.toNat ≤ p.maxLen

/-! ### The tree (R37, R146) -/

/-- All LEFT and RIGHT fields of the internal nodes of an arena, in arena order. -/
def childrenOf (nodes : List NodeRec) : List Nat :=
  nodes.flatMap (fun r => if r.isLeaf then [] else [r.left.toNat, r.right.toNat])

/-- R37, R146: a full binary tree over `n` leaves in the arena layout: leaves at 0..n−1 with different symbols,
internal nodes at n..2n−2, each over two nodes of smaller index (R145) and with the sum of their frequencies, and
every node but the root 2n−2 the child of exactly one internal node, once. -/
structure FullTree (n : Nat) (nodes : List NodeRec) : Prop where
  atLeast : 2 ≤ n
  atMost : n ≤ 256
  size : nodes.length = 2 * n - 1
  leaf : ∀ i r, i < n → nodes[i]? = some r → r.isLeaf = true ∧ r.left = 0#9 ∧ r.right = 0#9
  inner : ∀ i r, n ≤ i → nodes[i]? = some r →
    r.isLeaf = false ∧ r.sym = 0#8 ∧ r.left.toNat < i ∧ r.right.toNat < i
  sums : ∀ i r a b, n ≤ i → nodes[i]? = some r → nodes[r.left.toNat]? = some a →
    nodes[r.right.toNat]? = some b → r.freq.toNat = a.freq.toNat + b.freq.toNat
  parents : (childrenOf nodes).Perm (List.range (2 * n - 2))
  symbols : ((nodes.take n).map NodeRec.sym).Nodup

/-- R37: the three states of the tree, with NODE_COUNT and ROOT. -/
def HuffTree.Ok (t : HuffTree) : Prop :=
  match t.shape with
  | .absent => t.node = [] ∧ t.nodeCount = 0#32 ∧ t.root = 0#9
  | .single =>
    (∃ x f, t.node = [{ isLeaf := true, sym := x, freq := f, left := 0#9, right := 0#9 }]) ∧
      t.nodeCount = 1#32 ∧ t.root = 0#9
  | .general =>
    ∃ n, FullTree n t.node ∧ t.nodeCount.toNat = 2 * n - 1 ∧ t.root.toNat = 2 * n - 2

/-! ### The rest of the state -/

/-- R42: codes of at most 255 bits. -/
def CodeBook.Ok (c : CodeBook) : Prop := ∀ x : Symbol, (SymTable.get c x).length ≤ Config.maxCode

/-- R40: BIT_OUT_LEN is the length of BIT_OUT, at most MAX_BITS. -/
structure Encoded.Ok (p : Params) (e : Encoded) : Prop where
  size : e.bitOutLen.toNat = e.bitOut.length
  bound : e.bitOut.length ≤ p.maxBits

/-- R41, R192: SYM_OUT_LEN is the length of SYM_OUT, at most MAX_BITS, and DEC_TAIL is at most 254. -/
structure Decoded.Ok (p : Params) (d : Decoded) : Prop where
  size : d.symOutLen.toNat = d.symOut.length
  bound : d.symOut.length ≤ p.maxBits
  tail : d.decTail.toNat ≤ 254

/-- The input buffers keep the canonical form and list only elements that exist (R38, R39). -/
structure Inputs.Ok (p : Params) (x : Inputs) : Prop where
  symForm : Memory.wf x.symIn
  symRange : ∀ c ∈ x.symIn, c.1 < p.maxLen
  bitForm : Memory.wf x.bitIn
  bitRange : ∀ c ∈ x.bitIn, c.1 < p.maxBits / 32

/-- While a command runs, DONE is 0 and LAST_OP is the low byte of its word (R245). -/
def State.LifeCycleOk (s : State) : Prop :=
  ∀ w, s.seq = .busy w → s.done = false ∧ s.lastOp = opcOf w

/-- The invariant of the machine: what R35, R37, R40 to R43, R192 and R245 say of every state a run reaches. -/
structure State.Inv (s : State) : Prop where
  tbl : s.tbl.Ok s.cfg
  tre : s.tre.Ok
  cb : s.cb.Ok
  enc : s.enc.Ok s.cfg
  dec : s.dec.Ok s.cfg
  /-- STAT_RATIO_DEN is never 0 (R43, R212) -/
  den : s.sts.ratioDen ≠ 0#32
  inp : s.inp.Ok s.cfg
  life : s.LifeCycleOk

/-! ### Paths and codes (R162) -/

/-- The node reached from node `n` by the bits `p`, 0 to the left and 1 to the right; none where a bit would go
below a leaf or outside the arena. -/
def descend (nodes : List NodeRec) : Nat → Bits → Option Nat
  | n, [] => if n < nodes.length then some n else none
  | n, b :: bs =>
    match nodes[n]? with
    | none => none
    | some r =>
      if r.isLeaf then none else descend nodes (if b then r.right.toNat else r.left.toNat) bs

/-- The bits `p` lead from node `root` to a leaf with symbol `x` (R162). -/
def IsCode (nodes : List NodeRec) (root : Nat) (x : Symbol) (p : Bits) : Prop :=
  ∃ l r, descend nodes root p = some l ∧ nodes[l]? = some r ∧ r.isLeaf = true ∧ r.sym = x

/-- The bits `p` lead from node `root` to an internal node: an incomplete code (R192). -/
def IsPartialCode (nodes : List NodeRec) (root : Nat) (p : Bits) : Prop :=
  ∃ l r, descend nodes root p = some l ∧ nodes[l]? = some r ∧ r.isLeaf = false

/-- The Kraft sum of the entries of a CodeBook, times 2^255 (R163). -/
def kraftScaled (c : CodeBook) : Nat :=
  (c.toList.map (fun p => if p.isEmpty then 0 else 2 ^ (Config.maxCode - p.length))).sum

/-- Node `i` of an arena as the pair the queue holds for it (R142). -/
def queuePair (nodes : List NodeRec) (i : Nat) : Nat × Nat :=
  (((nodes[i]?.map NodeRec.freq).getD 0#32).toNat, i)

/-- R140, R142: internal node `k` merges the two least of the nodes that are in the queue then, the least of them
left: a node is in the queue when it is before `k` and no internal node before `k` has it as a child. -/
def MergesTwoLeast (nodes : List NodeRec) (k : Nat) (r : NodeRec) : Prop :=
  queueBefore (queuePair nodes r.left.toNat) (queuePair nodes r.right.toNat) = true ∧
  r.left.toNat ∉ childrenOf (nodes.take k) ∧ r.right.toNat ∉ childrenOf (nodes.take k) ∧
  ∀ j, j < k → j ∉ childrenOf (nodes.take k) → j ≠ r.left.toNat → j ≠ r.right.toNat →
    queueBefore (queuePair nodes r.right.toNat) (queuePair nodes j) = true

/-! ### What each command may write (R102) -/

/-- The host-visible places other than STATUS that a command may change (the "writes" column of R102). -/
def mayWrite : Instr → Loc → Bool
  | .freq, .freq _ => true
  | .freq, .ftOrder _ => true
  | .freq, .reg .ftN => true
  | .freq, .reg .ftTotal => true
  | .tree, .node _ _ => true
  | .tree, .reg .nodeCount => true
  | .tree, .reg .root => true
  | .codes, .cb _ _ => true
  | .encode, .bitOut _ => true
  | .encode, .reg .bitOutLen => true
  | .encode, .reg .encSkip => true
  | .decode _, .symOut _ => true
  | .decode _, .reg .symOutLen => true
  | .decode _, .reg .decTail => true
  | .stats, .reg r => decide (0x40 / 4 ≤ Reg.wordOffset r)
  | .compress, .reg r => Reg.isResult r && decide (r ≠ .symOutLen) && decide (r ≠ .decTail)
  | .compress, .freq _ => true
  | .compress, .ftOrder _ => true
  | .compress, .node _ _ => true
  | .compress, .cb _ _ => true
  | .compress, .bitOut _ => true
  | .clear, loc => Loc.isResult loc
  | _, _ => false

/-- The commands that write STATUS.TREE (R26). -/
def writesShape : Instr → Bool
  | .tree => true
  | .compress => true
  | .clear => true
  | .freq => false
  | .codes => false
  | .encode => false
  | .decode _ => false
  | .stats => false

/-- The session of two states is the same: the memories and result registers that commands write (R46). -/
def SameSession (s t : State) : Prop :=
  t.tbl = s.tbl ∧ t.tre = s.tre ∧ t.cb = s.cb ∧ t.enc = s.enc ∧ t.dec = s.dec ∧ t.sts = s.sts

/-- Performing a list of host writes, in order, as the host does while idle (R89). -/
def State.performWrites (s : State) : List PortOp → State
  | [] => s
  | .wr addr w :: ops => (s.hostWrite addr w).performWrites ops
  | _ :: ops => s.performWrites ops

end Sys2Proof.Machine
end

