-- ==== Sys2Proof/Certificates/Slice0/Obligations.lean ====
section
/-! DEFINITION. The statements for the provers, from the numbered rules of spec/. -/

open Sys2Proof Sys2Proof.Machine

/-! ### Encoding -/

/-- R103, R105: words of the opcode map and of its illegal neighbours, written out (95_test_vectors.md V-CMD). -/
def Obligations.CommandWordsDecode : Prop :=
  decodeCmd 0x00000001#32 = .ok .freq ∧ decodeCmd 0x00000002#32 = .ok .tree ∧
  decodeCmd 0x00000003#32 = .ok .codes ∧ decodeCmd 0x00000004#32 = .ok .encode ∧
  decodeCmd 0x00000005#32 = .ok (.decode .bitIn) ∧ decodeCmd 0x00000105#32 = .ok (.decode .bitOut) ∧
  decodeCmd 0x00000006#32 = .ok .stats ∧ decodeCmd 0x00000007#32 = .ok .compress ∧
  decodeCmd 0x00000008#32 = .ok .clear ∧ decodeCmd 0x00000000#32 = .error .opcode ∧
  decodeCmd 0x00000009#32 = .error .opcode ∧ decodeCmd 0x00000101#32 = .error .sourceSelect ∧
  decodeCmd 0x00000205#32 = .error .reservedBits

/-- R103, R109: decoding the encoding of a well-formed command gives it back. -/
def Obligations.DecodeInvertsEncode : Prop :=
  ∀ i : Instr, i.wf = true → decodeCmd (encode i) = .ok i

/-- R103: exactly nine words are legal, each is the encoding of its command, and over all words the masks and
matches of the opcode map select the command the decoder gives. -/
def Obligations.LegalWordsAreTheNine : Prop :=
  (∀ w : Word, (∃ i, decodeCmd w = .ok i) ↔
    w ∈ [1#32, 2#32, 3#32, 4#32, 5#32, 6#32, 7#32, 8#32, 0x105#32]) ∧
  (∀ w i, decodeCmd w = .ok i → w = encode i) ∧
  (∀ w : Word, (legalCmd w).map Instr.mnemonic =
    (opcodeMap.find? (fun r => r.selects w)).map OpcodeRow.mnemonic)

/-- R105: the illegal words. -/
def Obligations.IllegalWordsAreThose : Prop :=
  ∀ w : Word, (∃ e, decodeCmd w = .error e) ↔
    (w.extractLsb' 0 8 = 0#8 ∨ 9 ≤ (w.extractLsb' 0 8).toNat ∨ w.extractLsb' 9 23 ≠ 0#23 ∨
      (w.getLsbD 8 = true ∧ w.extractLsb' 0 8 ≠ 5#8))

/-! ### The life cycle of a command -/

/-- R245, R246: while a command word that decodes to `i` runs and its completion is due, a step is exec of `i`; when the
completion is not due, or while idle, a step is a turn of the outside. The word `withFetchWord` places is run by
the very next step. When a completion is due, what a turn of the outside is, and what `withFetchWord` stands for are the
model's choices: notes/assumptions/3.md, 4.md and 7.md. -/
def Obligations.StepRunsDecodedCommand : Prop :=
  (∀ s w i, s.seq = .busy w → s.completionDue = true → decodeCmd w = .ok i → step s = exec i s) ∧
  (∀ s w, s.seq = .busy w → s.completionDue = false → step s = .next s.tickDue.hostTurn) ∧
  (∀ s, s.seq = .idle → step s = .next s.hostTurn) ∧
  (∀ (s : State) (w : Word) i, decodeCmd w = .ok i →
    (s.withFetchWord 32 w.toNat).seq = .busy w ∧
    step (s.withFetchWord 32 w.toNat) = exec i (s.withFetchWord 32 w.toNat))

/-- R243: an illegal word issued while idle is accepted, and the step that completes it writes ERR = 1, DONE and
BUSY and nothing else. (When a completion is due is the model's choice: notes/assumptions/3.md.) -/
def Obligations.IllegalWordWritesNoData : Prop :=
  ∀ (s : State) (addr w : Word) e, decodeCmd w = .error e → s.seq = .idle → addr.toNat / 4 = 0x10 / 4 →
    (s.hostWrite addr w).seq = .busy w ∧
    ∀ u : State, u.seq = .busy w → u.completionDue = true →
      step u = .next { u with err := .illegalCmd, seq := .idle, done := true }

/-- R245: a command write while idle is accepted: SEQ (and so BUSY), DONE and LAST_OP as the rule says, nothing
else of HUFC changes (`env` is the model's own: notes/assumptions/3.md), ERR included. -/
def Obligations.IssueWhileIdleIsAccepted : Prop :=
  ∀ (s : State) (addr w : Word), s.seq = .idle → addr.toNat / 4 = 0x10 / 4 →
    ∃ e, s.hostWrite addr w =
        { s with seq := .busy w, done := false, lastOp := w.extractLsb' 0 8, env := e } ∧
      (s.hostWrite addr w).isBusy = true ∧ (s.hostWrite addr w).err = s.err

/-- R247: a command write while a command runs changes STATUS.OVR and nothing else. -/
def Obligations.IssueWhileBusyIsDropped : Prop :=
  ∀ (s : State) (addr w v : Word), s.seq = .busy v → addr.toNat / 4 = 0x10 / 4 →
    s.hostWrite addr w = { s with ovr := true }

/-- R83: while a command runs, input writes are dropped with OVR set; reads of results give a free word and change
nothing but the model's draw counter; every other access is as when idle. That the free word is the draw counter's, which
then advances, is the model's choice: notes/assumptions/2.md. -/
def Obligations.AccessWhileBusy : Prop :=
  ∀ (s : State) (addr w v : Word), s.seq = .busy v →
    (locate s.cfg addr = .reg .symLen ∨ locate s.cfg addr = .reg .bitInLen ∨
        (∃ i, locate s.cfg addr = .symIn i) ∨ (∃ j, locate s.cfg addr = .bitIn j) →
      s.hostWrite addr w = { s with ovr := true }) ∧
    (Loc.isResult (locate s.cfg addr) = true →
      s.hostRead addr = (Config.busyRead s.env.draws, { s with env := { s.env with draws := s.env.draws + 1 } })) ∧
    (Loc.isResult (locate s.cfg addr) = false → locate s.cfg addr ≠ .reg .status →
      s.hostRead addr = ((State.hostRead { s with seq := .idle } addr).1, s)) ∧
    (locate s.cfg addr = .reg .status →
      s.hostRead addr = ((State.hostRead { s with seq := .idle } addr).1 ||| 1#32, s)) ∧
    (locate s.cfg addr ≠ .reg .cmd → locate s.cfg addr ≠ .reg .symLen → locate s.cfg addr ≠ .reg .bitInLen →
        (∀ i, locate s.cfg addr ≠ .symIn i) → (∀ j, locate s.cfg addr ≠ .bitIn j) →
      s.hostWrite addr w = { State.hostWrite { s with seq := .idle } addr w with seq := .busy v })

/-- R246, R285, R83: from a state with the invariant in which `w` runs, at most `env.due` steps go by, in which `w`
runs on and the session and the inputs stay, and then a step either completes `w`, with DONE = 1 and the session and
the error code that completing it at once would have given, or is an `rst` of the outside, and `w` ends without effect. The
bound and the order of completion and outside are the model's choices: notes/assumptions/3.md and 4.md. -/
def Obligations.AcceptedCommandCompletes : Prop :=
  ∀ (s : State) (w : Word), s.Inv → s.seq = .busy w →
    ∃ k u t, k ≤ s.env.due ∧ core.run k s = .next u ∧ u.seq = .busy w ∧ u.inp = s.inp ∧ SameSession s u ∧
      step u = .next t ∧ t.seq = .idle ∧
      ((runCommand w u = .next t ∧ t.done = true ∧
          ∃ t0, runCommand w s = .next t0 ∧ SameSession t0 t ∧ t.err = t0.err) ∨
        (PortOp.rst ∈ s.host.prog ∧ u.host.next = some .rst ∧ u.completionDue = false))

/-! ### The invariant -/

/-- The invariant holds at reset (R270). -/
def Obligations.ResetMeetsInvariant : Prop := State.reset.Inv

/-- Every step keeps the invariant: R35, R37, R40 to R43, R192, R245, and the canonical form of the buffers. -/
def Obligations.StepKeepsInvariant : Prop :=
  ∀ s t : State, s.Inv → step s = .next t → t.Inv

/-- R94, R161, R193, R240: from a state with the invariant every command completes and no step stops: no access of
the core falls outside its memory, and no traversal goes too deep. -/
def Obligations.NoStepStops : Prop :=
  ∀ s : State, s.Inv → (∀ i, ∃ t, exec i s = .next t) ∧ ∃ t, step s = .next t

/-! ### FREQ -/

/-- R122, R123: FREQ counts every symbol of the input; its keys are the symbols that occur; FT_TOTAL and FT_N are
their totals; nothing but the table and the completion bookkeeping changes. -/
def Obligations.FreqCountsTheInput : Prop :=
  ∀ s : State, s.inp.symLen.toNat ≤ s.cfg.maxLen →
    ∃ t, exec .freq s = .next { s with tbl := t, err := .ok, seq := .idle, done := true } ∧
      (∀ x, (SymTable.get t.freq x).toNat = s.symInput.count x) ∧
      (∀ x, x ∈ t.ftOrder ↔ x ∈ s.symInput) ∧ t.ftOrder.Nodup ∧
      (∀ x, x ∈ t.ftOrder → 0 < (SymTable.get t.freq x).toNat) ∧
      t.ftTotal = s.inp.symLen ∧ t.ftTotal.toNat = (t.freq.toList.map BitVec.toNat).sum ∧
      t.ftN.toNat = s.symInput.dedup.length ∧ t.ftN.toNat ≤ min 256 s.inp.symLen.toNat

/-- R121: the key order is the order of first occurrence. -/
def Obligations.FreqOrderIsFirstOccurrence : Prop :=
  ∀ s t : State, s.inp.symLen.toNat ≤ s.cfg.maxLen → exec .freq s = .next t →
    ∀ x y, x ∈ t.tbl.ftOrder → y ∈ t.tbl.ftOrder → x ≠ y →
      (t.tbl.ftOrder.idxOf x < t.tbl.ftOrder.idxOf y ↔ s.symInput.idxOf x < s.symInput.idxOf y)

/-- R124: FREQ depends on SYM_LEN and SYM_IN[0..SYM_LEN−1] only. -/
def Obligations.FreqDependsOnTheInputOnly : Prop :=
  ∀ s s' t t' : State, s.inp.symLen.toNat ≤ s.cfg.maxLen → s'.inp.symLen.toNat ≤ s'.cfg.maxLen →
    s.inp.symLen = s'.inp.symLen →
    (∀ i, i < s.inp.symLen.toNat → s.inp.symAt i = s'.inp.symAt i) →
    exec .freq s = .next t → exec .freq s' = .next t' → t.tbl = t'.tbl

/-! ### Errors -/

/-- R242: a bad length is reported before anything is read or written, and the commands without a length check never
report LEN_RANGE. -/
def Obligations.LengthErrorsWriteNothing : Prop :=
  (∀ (s : State) i, i = .freq ∨ i = .encode ∨ i = .stats ∨ i = .compress → s.cfg.maxLen < s.inp.symLen.toNat →
    exec i s = .next { s with err := .lenRange, seq := .idle, done := true }) ∧
  (∀ s : State, s.cfg.maxBits < s.inp.bitInLen.toNat →
    exec (.decode .bitIn) s = .next { s with err := .lenRange, seq := .idle, done := true }) ∧
  (∀ (s t : State) i, i = .tree ∨ i = .codes ∨ i = .clear ∨ i = .decode .bitOut → exec i s = .next t →
    t.err = .ok)

/-- R248, R241: the one code a command reports, by the order of the checks; OVR is not a command's to write, and only
a write of 1 to its bit or a reset clears it. -/
def Obligations.OneErrorCodeByOrder : Prop :=
  (∀ (s t : State) (w : Word) e, decodeCmd w = .error e → runCommand w s = .next t → t.err = .illegalCmd) ∧
  (∀ (s t : State) (w : Word) i, decodeCmd w = .ok i → runCommand w s = .next t →
    t.ovr = s.ovr ∧
    t.err =
      (if (i = .freq ∨ i = .encode ∨ i = .stats ∨ i = .compress) ∧ s.cfg.maxLen < s.inp.symLen.toNat then .lenRange
       else if i = .decode .bitIn ∧ s.cfg.maxBits < s.inp.bitInLen.toNat then .lenRange
       else if (i = .encode ∨ i = .compress) ∧
           s.cfg.maxBits < (s.symInput.map (fun x => (SymTable.get t.cb x).length)).sum then .capacity
       else .ok)) ∧
  (∀ s t : State, step s = .next t → s.ovr = true → t.ovr = false →
    s.host.next = some .rst ∨
      ∃ addr w, s.host.next = some (.wr addr w) ∧ locate s.cfg addr = .reg .status ∧ w.getLsbD 2 = true)

/-- R244: a command word, legal or not, that completes with an error writes no data state, except COMPRESS with
CAPACITY, which keeps its table, tree and CodeBook and writes nothing else (R215). -/
def Obligations.ErrorsWriteNoData : Prop :=
  ∀ (s t : State) (w : Word), runCommand w s = .next t → t.err ≠ .ok →
    SameSession s t ∨
      (decodeCmd w = .ok .compress ∧ t.err = .capacity ∧ t.enc = s.enc ∧ t.dec = s.dec ∧ t.sts = s.sts)

/-! ### TREE -/

/-- R140, R146, R148: from a consistent table TREE completes; the tree is absent, a single leaf or the full binary tree
over the N keys in table order with their counts, the root's frequency is FT_TOTAL, every leaf is 1 to N−1 levels
deep, and nothing but the tree changes. -/
def Obligations.TreeIsFullOverTheKeys : Prop :=
  ∀ s : State, s.tbl.Ok s.cfg →
    ∃ t : HuffTree, exec .tree s = .next { s with tre := t, err := .ok, seq := .idle, done := true } ∧ t.Ok ∧
      (s.tbl.ftN.toNat = 0 → t.shape = .absent ∧ t.node = [] ∧ t.nodeCount = 0#32 ∧ t.root = 0#9) ∧
      (∀ x, s.tbl.ftOrder = [x] → t.shape = .single ∧ t.nodeCount = 1#32 ∧ t.root = 0#9 ∧
        t.node = [NodeRec.mk true x (SymTable.get s.tbl.freq x) 0#9 0#9]) ∧
      (2 ≤ s.tbl.ftN.toNat →
        t.shape = .general ∧ FullTree s.tbl.ftN.toNat t.node ∧
        t.nodeCount.toNat = 2 * s.tbl.ftN.toNat - 1 ∧ t.root.toNat = 2 * s.tbl.ftN.toNat - 2 ∧
        (∀ (i : Nat) (x : Symbol), s.tbl.ftOrder[i]? = some x → t.node[i]? =
          some (NodeRec.mk true x (SymTable.get s.tbl.freq x) 0#9 0#9)) ∧
        (∃ r, t.node[t.root.toNat]? = some r ∧ r.freq = s.tbl.ftTotal) ∧
        (∀ x p, IsCode t.node t.root.toNat x p → 1 ≤ p.length ∧ p.length ≤ s.tbl.ftN.toNat - 1))

/-- R140 to R143, R145: every internal node, in arena order, merges the two least pairs (frequency, index) of the queue
then, the least left, and its index is larger than both. -/
def Obligations.TreeMergesTheTwoLeast : Prop :=
  ∀ s t : State, s.tbl.Ok s.cfg → exec .tree s = .next t →
    ∀ (k : Nat) (r : NodeRec), t.tre.node[k]? = some r → r.isLeaf = false →
      r.left.toNat < k ∧ r.right.toNat < k ∧ MergesTwoLeast t.tre.node k r

/-- R147: TREE is a function of FT_ORDER (with FT_N) and the counts of the keys. -/
def Obligations.TreeDependsOnTheTableOnly : Prop :=
  ∀ s s' t t' : State, s.tbl.ftN = s'.tbl.ftN → s.tbl.ftOrder = s'.tbl.ftOrder →
    (∀ x ∈ s.tbl.ftOrder, SymTable.get s.tbl.freq x = SymTable.get s'.tbl.freq x) →
    exec .tree s = .next t → exec .tree s' = .next t' → t.tre = t'.tre

/-! ### CODES -/

/-- R160, R162, R164: CODES completes; an absent tree gives no entry, a single leaf the code "0", and in the general
state an entry is exactly the path from ROOT to the leaf of its symbol; nothing but CB changes. -/
def Obligations.CodesAreThePaths : Prop :=
  ∀ s : State, s.tre.Ok →
    ∃ c, exec .codes s = .next { s with cb := c, err := .ok, seq := .idle, done := true } ∧
      (s.tre.shape = .absent → ∀ x, SymTable.get c x = []) ∧
      (s.tre.shape = .single → ∀ r, s.tre.node[0]? = some r →
        ∀ x, SymTable.get c x = if x = r.sym then [false] else []) ∧
      (s.tre.shape = .general →
        ∀ x p, p ≠ [] → (SymTable.get c x = p ↔ IsCode s.tre.node s.tre.root.toNat x p))

/-- R163: after CODES in the general state exactly the leaves' symbols have an entry, no entry is an initial part of
another, and the Kraft sum is exactly 1. -/
def Obligations.CodesArePrefixFreeAndFull : Prop :=
  ∀ s t : State, s.tre.Ok → exec .codes s = .next t →
    (∀ x, SymTable.get t.cb x ≠ [] ↔ ∃ r ∈ s.tre.node, r.isLeaf = true ∧ r.sym = x) ∧
    (s.tre.shape = .general →
      (∀ x y, x ≠ y → SymTable.get t.cb x ≠ [] → SymTable.get t.cb y ≠ [] →
        ¬ List.IsPrefix (SymTable.get t.cb x) (SymTable.get t.cb y)) ∧
      kraftScaled t.cb = 2 ^ Config.maxCode)

/-! ### ENCODE -/

/-- R180, R181: ENCODE completes, with the concatenation of the entries in input order and the count of the symbols
without one; CAPACITY where the total exceeds MAX_BITS; LEN_RANGE first; nothing but the encoded stream changes. -/
def Obligations.EncodeConcatenatesEntries : Prop :=
  ∀ s : State,
    (s.cfg.maxLen < s.inp.symLen.toNat →
      exec .encode s = .next { s with err := .lenRange, seq := .idle, done := true }) ∧
    (s.inp.symLen.toNat ≤ s.cfg.maxLen →
      s.cfg.maxBits < (s.symInput.map (fun x => (SymTable.get s.cb x).length)).sum →
      exec .encode s = .next { s with err := .capacity, seq := .idle, done := true }) ∧
    (s.inp.symLen.toNat ≤ s.cfg.maxLen →
      (s.symInput.map (fun x => (SymTable.get s.cb x).length)).sum ≤ s.cfg.maxBits →
      ∃ e, exec .encode s = .next { s with enc := e, err := .ok, seq := .idle, done := true } ∧
        e.bitOut = (s.symInput.map (SymTable.get s.cb)).flatten ∧
        e.bitOutLen.toNat = (s.symInput.map (fun x => (SymTable.get s.cb x).length)).sum ∧
        e.encSkip.toNat = (s.symInput.filter (fun x => (SymTable.get s.cb x).length = 0)).length)

/-- R182: when the symbol input is the input the current table was built from (FREQ on `s0`), and TREE (on a state `s2`
with that table) and CODES (on a state `s4` with that tree) were run after it, a successful ENCODE skips nothing and
BIT_OUT_LEN is the weighted path length. -/
def Obligations.EncodedLengthIsWeighted : Prop :=
  ∀ s0 s1 s2 s3 s4 s5 s6 s7 : State, exec .freq s0 = .next s1 → s1.err = .ok →
    s2.tbl = s1.tbl → exec .tree s2 = .next s3 → s4.tre = s3.tre → exec .codes s4 = .next s5 →
    s6.cb = s5.cb → s6.tbl = s1.tbl → s6.symInput = s0.symInput → exec .encode s6 = .next s7 → s7.err = .ok →
    s7.enc.encSkip = 0#32 ∧
    s7.enc.bitOutLen.toNat =
      (s7.tbl.ftOrder.map (fun x => (SymTable.get s7.tbl.freq x).toNat * (SymTable.get s7.cb x).length)).sum

/-! ### DECODE -/

/-- R190 to R193, R195, R196: DECODE completes on either source, whatever the stream. An absent tree gives nothing, a
single leaf its symbol once per bit; in the general state the stream is a concatenation of codes of the symbols
emitted and an incomplete code of DEC_TAIL ≤ 254 bits. No more symbols than bits; nothing but the decoded sequence
changes. -/
def Obligations.DecodeWalksTheTree : Prop :=
  ∀ (s : State) (src : Src) (bits : Bits), s.tre.Ok → s.enc.Ok s.cfg →
    (src = .bitIn ∧ s.inp.bitInLen.toNat ≤ s.cfg.maxBits ∧ bits = s.bitInput ∨
      src = .bitOut ∧ bits = s.enc.bitOut) →
    ∃ d, exec (.decode src) s = .next { s with dec := d, err := .ok, seq := .idle, done := true } ∧
      d.symOutLen.toNat = d.symOut.length ∧ d.symOut.length ≤ bits.length ∧
      (s.tre.shape = .absent → d.symOut = [] ∧ d.decTail = 0#32) ∧
      (s.tre.shape = .single → ∀ r, s.tre.node[0]? = some r →
        d.symOut = List.replicate bits.length r.sym ∧ d.decTail = 0#32) ∧
      (s.tre.shape = .general →
        ∃ ps rest, bits = ps.flatten ++ rest ∧
          List.Forall₂ (IsCode s.tre.node s.tre.root.toNat) d.symOut ps ∧
          IsPartialCode s.tre.node s.tre.root.toNat rest ∧
          d.decTail.toNat = rest.length ∧ rest.length ≤ 254)

/-- R197: the round trip. After a COMPRESS with ERR = 0 on an input S, or FREQ, TREE, CODES and ENCODE in that order on
S (each on a state that still has what the one before wrote), DECODE src=out in any state that still has that tree and
that stream gives S, |S| and no tail. -/
def Obligations.RoundTrip : Prop :=
  (∀ s t u : State, exec .compress s = .next t → t.err = .ok → u.tre = t.tre → u.enc = t.enc →
    ∃ v, exec (.decode .bitOut) u = .next v ∧ v.dec.symOut = s.symInput ∧
      v.dec.symOutLen = s.inp.symLen ∧ v.dec.decTail = 0#32) ∧
  (∀ s0 s1 s2 s3 s4 s5 s6 s7 u : State, exec .freq s0 = .next s1 → s1.err = .ok →
    s2.tbl = s1.tbl → exec .tree s2 = .next s3 → s4.tre = s3.tre → exec .codes s4 = .next s5 →
    s6.cb = s5.cb → s6.symInput = s0.symInput → exec .encode s6 = .next s7 → s7.err = .ok →
    u.tre = s3.tre → u.enc = s7.enc →
    ∃ v, exec (.decode .bitOut) u = .next v ∧ v.dec.symOut = s0.symInput ∧
      v.dec.symOutLen = s0.inp.symLen ∧ v.dec.decTail = 0#32)

/-! ### STATS, COMPRESS, CLEAR -/

/-- R210, R211, R212, R6: STATS completes with the exact statistics of SYM_LEN and BIT_OUT_LEN, none overflowing its
register; nothing but the statistics changes. -/
def Obligations.StatsAreExact : Prop :=
  ∀ (s : State) (orig comp : Int), s.inp.symLen.toNat ≤ s.cfg.maxLen → s.enc.Ok s.cfg →
    orig = 8 * s.inp.symLen.toNat → comp = s.enc.bitOutLen.toNat →
    ∃ x, exec .stats s = .next { s with sts := x, err := .ok, seq := .idle, done := true } ∧
      (x.origBits.toNat : Int) = orig ∧ (x.compBits.toNat : Int) = comp ∧
      x.ratioNum.toInt = (if orig = 0 then 0 else (orig - comp) * 100) ∧
      (x.ratioDen.toNat : Int) = (if orig = 0 then 1 else orig) ∧
      x.ratioBp.toInt =
        (if orig = 0 then 0
         else max (-2147483648) (min (Int.tdiv ((orig - comp) * 100 * 100) orig) 2147483647)) ∧
      (x.savedBits.toNat : Int) = max 0 (orig - comp)

/-- R215, R216: COMPRESS completes on every input of legal length; it is FREQ, TREE and CODES, then the ENCODE and STATS
stages (`compressTail`); with ERR = 0 it leaves exactly the state that FREQ, TREE, CODES, ENCODE and STATS leave one after
another, with ENC_SKIP = 0. The last two stages report CAPACITY where the string is too long, and then write nothing
else (R183: no CodeBook of the same input makes it so long; the clause is over any state). -/
def Obligations.CompressIsTheFiveSteps : Prop :=
  (∀ s : State, s.inp.symLen.toNat ≤ s.cfg.maxLen →
    ∃ s1 s2 s3 s4 t : State, exec .freq s = .next s1 ∧ exec .tree s1 = .next s2 ∧ exec .codes s2 = .next s3 ∧
      exec .encode s3 = .next s4 ∧ exec .compress s = .next t ∧ t = s3.compressTail ∧
      (s4.err = .ok → exec .stats s4 = .next t ∧ t.err = .ok ∧ t.enc.encSkip = 0#32)) ∧
  (∀ u : State, u.cfg.maxBits < (u.symInput.map (fun x => (SymTable.get u.cb x).length)).sum →
    u.compressTail = { u with err := .capacity, seq := .idle, done := true })

/-- R220, R273: CLEAR completes, and leaves the reset state but for the parameters, CTRL, OVR, LAST_OP and the inputs
(and the model's own fields), with DONE = 1 and ERR = 0. -/
def Obligations.ClearLeavesTheResetSession : Prop :=
  ∀ s : State, exec .clear s =
    .next { State.reset with
      cfg := s.cfg, ie := s.ie, ovr := s.ovr, lastOp := s.lastOp, inp := s.inp, host := s.host, env := s.env,
      done := true }

/-! ### Reset -/

/-- R270, R271, R273: `rst` leaves every register at its reset value, every result window 0, the input buffers
unspecified (the free contents of a fresh launch), no command and no interrupt; the parameters stay. A step that
comes to an `rst` does so whether or not a command runs. The contents of launch `launch + 1` and the place of an `rst`
among the entries of the outside are the model's choices: notes/assumptions/1.md, 3.md and 4.md. -/
def Obligations.RstGivesResetValues : Prop :=
  (∀ s : State,
    s.assertRst.seq = .idle ∧ s.assertRst.irq = false ∧
    (∀ r, s.assertRst.regRead r =
      match r with
      | .id => 0x48554631#32
      | .paramMaxLen => BitVec.ofNat 32 s.cfg.maxLen
      | .paramMaxBits => BitVec.ofNat 32 s.cfg.maxBits
      | .statRatioDen => 1#32
      | _ => 0#32) ∧
    (∀ loc, Loc.isResult loc = true → loc ≠ .reg .statRatioDen → s.assertRst.view loc = 0#32) ∧
    (∀ i, s.assertRst.inp.symAt i = Config.symInInit (s.inp.launch + 1) i) ∧
    (∀ j, s.assertRst.inp.bitWordAt j = Config.bitInInit (s.inp.launch + 1) j)) ∧
  (∀ s : State, s.host.next = some .rst → s.seq = .idle ∨ s.completionDue = false →
    ∃ t, step s = .next t ∧ t = s.assertRst.hostAt (s.host.pos + 1))

/-- R274: what each command gives on the reset state. -/
def Obligations.CommandsOnTheResetState : Prop :=
  exec .freq State.reset = .next { State.reset with done := true } ∧
  exec .tree State.reset = .next { State.reset with done := true } ∧
  exec .codes State.reset = .next { State.reset with done := true } ∧
  exec .encode State.reset = .next { State.reset with done := true } ∧
  exec (.decode .bitIn) State.reset = .next { State.reset with done := true } ∧
  exec (.decode .bitOut) State.reset = .next { State.reset with done := true } ∧
  exec .stats State.reset = .next { State.reset with done := true } ∧
  exec .compress State.reset = .next { State.reset with done := true } ∧
  exec .clear State.reset = .next { State.reset with done := true }

/-! ### Frames and whole-machine rules -/

/-- R102 (the writes), R246: what every command leaves unchanged: every host-visible word outside its column of R102
(STATUS apart), the parameters, CTRL, OVR, LAST_OP, the inputs and the model's own fields, and STATUS.TREE unless it
is TREE, COMPRESS or CLEAR; and it always ends idle with DONE = 1. -/
def Obligations.CommandsWriteOnlyTheirOwn : Prop :=
  ∀ (i : Instr) (s t : State), exec i s = .next t →
    (∀ loc, loc ≠ .reg .status → mayWrite i loc = false → t.view loc = s.view loc) ∧
    t.cfg = s.cfg ∧ t.ie = s.ie ∧ t.ovr = s.ovr ∧ t.lastOp = s.lastOp ∧ t.inp = s.inp ∧ t.host = s.host ∧
    t.env = s.env ∧ (writesShape i = false → t.tre = s.tre) ∧ t.seq = .idle ∧ t.done = true

/-- R87, R246, R261: the session changes only at the completion of a command, or by `rst`. -/
def Obligations.SessionChangesOnlyAtCompletion : Prop :=
  ∀ s t : State, step s = .next t → (s.isBusy = false ∨ s.completionDue = false) →
    s.host.next ≠ some .rst → SameSession s t

/-- R33, R36, R42: a step that changes the tree completes TREE, COMPRESS or CLEAR, or is a `rst`; one that changes CB
completes CODES, COMPRESS or CLEAR, or is a `rst`. -/
def Obligations.WritersOfTreeAndCodes : Prop :=
  ∀ s t : State, step s = .next t →
    (t.tre ≠ s.tre → s.host.next = some .rst ∨
      ∃ w i, s.seq = .busy w ∧ s.completionDue = true ∧ decodeCmd w = .ok i ∧
        (i = .tree ∨ i = .compress ∨ i = .clear)) ∧
    (t.cb ≠ s.cb → s.host.next = some .rst ∨
      ∃ w i, s.seq = .busy w ∧ s.completionDue = true ∧ decodeCmd w = .ok i ∧
        (i = .codes ∨ i = .compress ∨ i = .clear))

/-- R44: no command reads a flag: states that agree on the parameters, the inputs and the session agree on the session
after any command, and on its error code. -/
def Obligations.CommandsReadNoFlag : Prop :=
  ∀ (i : Instr) (s s' t : State), s'.cfg = s.cfg → s'.inp = s.inp → SameSession s s' → exec i s = .next t →
    ∃ t', exec i s' = .next t' ∧ SameSession t t' ∧ t'.err = t.err

/-- R250: `irq` is CTRL.IE ∧ STATUS.DONE. It rises at any completion with IE = 1, whatever the error, and falls when
the host clears DONE, issues the next command, clears IE, or HUFC is reset; writing IE = 1 while DONE = 1 raises it
at once. -/
def Obligations.InterruptFollowsDone : Prop :=
  (∀ s : State, s.irq = true ↔ s.ie = true ∧ s.done = true) ∧
  (∀ (s t : State) (w : Word), runCommand w s = .next t → t.irq = s.ie) ∧
  (∀ (s : State) (addr w : Word), locate s.cfg addr = .reg .status → w.getLsbD 1 = true →
    (s.hostWrite addr w).irq = false) ∧
  (∀ (s : State) (addr w : Word), locate s.cfg addr = .reg .cmd → s.seq = .idle → (s.hostWrite addr w).irq = false) ∧
  (∀ (s : State) (addr w : Word), locate s.cfg addr = .reg .ctrl →
    (s.hostWrite addr w).irq = (w.getLsbD 0 && s.done)) ∧
  (∀ s : State, s.assertRst.irq = false)

/-! ### The host port -/

/-- R88: a read changes nothing but the model's draw counter, and while idle changes nothing at all, so that repeating
it gives the same word. The writes that change more than the place they name are CMD, STATUS and those dropped. -/
def Obligations.ReadsHaveNoSideEffect : Prop :=
  (∀ (s : State) (addr : Word), ∃ n, (s.hostRead addr).2 = { s with env := { s.env with draws := n } }) ∧
  (∀ (s : State) (addr : Word), s.seq = .idle →
    s.hostRead addr = (s.view (locate s.cfg addr), s)) ∧
  (∀ (s : State) (addr w : Word), locate s.cfg addr ≠ .reg .cmd → locate s.cfg addr ≠ .reg .status →
    s.seq = .idle → ∀ loc, loc ≠ locate s.cfg addr → (s.hostWrite addr w).view loc = s.view loc)

/-- R71, R72, R20: the address map. -/
def Obligations.AddressMap : Prop :=
  ∀ p : Params,
    (∀ a : Word, locate p a = locate p (BitVec.ofNat 32 (4 * (a.toNat / 4)))) ∧
    (locate p 0x00#32 = .reg .id ∧ locate p 0x04#32 = .reg .paramMaxLen ∧
      locate p 0x08#32 = .reg .paramMaxBits ∧ locate p 0x0C#32 = .reg .ctrl ∧
      locate p 0x10#32 = .reg .cmd ∧ locate p 0x14#32 = .reg .status ∧
      locate p 0x18#32 = .reg .symLen ∧ locate p 0x1C#32 = .reg .bitInLen ∧
      locate p 0x20#32 = .reg .bitOutLen ∧ locate p 0x24#32 = .reg .encSkip ∧
      locate p 0x28#32 = .reg .symOutLen ∧ locate p 0x2C#32 = .reg .decTail ∧
      locate p 0x30#32 = .reg .ftN ∧ locate p 0x34#32 = .reg .ftTotal ∧
      locate p 0x38#32 = .reg .nodeCount ∧ locate p 0x3C#32 = .reg .root ∧
      locate p 0x40#32 = .reg .statOrigBits ∧ locate p 0x44#32 = .reg .statCompBits ∧
      locate p 0x48#32 = .reg .statRatioNum ∧ locate p 0x4C#32 = .reg .statRatioDen ∧
      locate p 0x50#32 = .reg .statRatioBp ∧ locate p 0x54#32 = .reg .statSavedBits) ∧
    (∀ a : Nat, 0x58 / 4 ≤ a → a < 0x1000 / 4 → locate p (BitVec.ofNat 32 (4 * a)) = .reserved) ∧
    (∀ x : Symbol, locate p (BitVec.ofNat 32 (0x1000 + 4 * x.toNat)) = .freq x) ∧
    (∀ i, i < 256 → locate p (BitVec.ofNat 32 (0x1400 + 4 * i)) = .ftOrder i) ∧
    (∀ a : Nat, 0x1800 / 4 ≤ a → a < 0x2000 / 4 → locate p (BitVec.ofNat 32 (4 * a)) = .reserved) ∧
    (∀ i, i < 512 →
      locate p (BitVec.ofNat 32 (0x2000 + 16 * i)) = .node i .freq ∧
      locate p (BitVec.ofNat 32 (0x2000 + 16 * i + 4)) = .node i .info ∧
      locate p (BitVec.ofNat 32 (0x2000 + 16 * i + 8)) = .node i .left ∧
      locate p (BitVec.ofNat 32 (0x2000 + 16 * i + 12)) = .node i .right) ∧
    (∀ (x : Symbol) k, k < 16 → locate p (BitVec.ofNat 32 (0x4000 + 64 * x.toNat + 4 * k)) = .cb x k) ∧
    (∀ a : Nat, 0x8000 / 4 ≤ a → a < 0x01000000 / 4 → locate p (BitVec.ofNat 32 (4 * a)) = .reserved) ∧
    (∀ i, i < 0x01000000 / 4 → locate p (BitVec.ofNat 32 (0x01000000 + 4 * i)) =
      if i < p.maxLen then .symIn i else .reserved) ∧
    (∀ j, j < 0x01000000 / 4 → locate p (BitVec.ofNat 32 (0x02000000 + 4 * j)) =
      if j < p.maxBits / 32 then .bitIn j else .reserved) ∧
    (∀ j, j < 0x01000000 / 4 → locate p (BitVec.ofNat 32 (0x03000000 + 4 * j)) =
      if j < p.maxBits / 32 then .bitOut j else .reserved) ∧
    (∀ i, i < 0x04000000 / 4 → locate p (BitVec.ofNat 32 (0x04000000 + 4 * i)) =
      if i < p.maxBits then .symOut i else .reserved) ∧
    (∀ a : Nat, 0x08000000 / 4 ≤ a → a < 0x100000000 / 4 → locate p (BitVec.ofNat 32 (4 * a)) = .reserved)

/-- R73: reserved places read 0; writes to them and to read-only places change nothing. -/
def Obligations.ReservedAndReadOnlyPlaces : Prop :=
  ∀ (s : State) (addr w : Word),
    (locate s.cfg addr = .reserved → s.hostRead addr = (0#32, s) ∧ s.hostWrite addr w = s) ∧
    (Loc.isResult (locate s.cfg addr) = true ∨ locate s.cfg addr = .reg .id ∨
        locate s.cfg addr = .reg .paramMaxLen ∨ locate s.cfg addr = .reg .paramMaxBits →
      s.hostWrite addr w = s)

/-- R77, R79, R84, R284: a read of the input windows gives the symbol in bits 7..0, the stream MSB-first, written since
reset or not, running or not; a word written while idle is kept (its bits 7..0, its bits MSB-first) and read back at
once; every other element stays, and nothing else changes. -/
def Obligations.InputWritesReadBack : Prop :=
  (∀ (s : State) (addr w : Word) i, locate s.cfg addr = .symIn i →
    (s.hostRead addr).1 = (s.inp.symAt i).setWidth 32 ∧
    (s.seq = .idle →
      ∃ m, s.hostWrite addr w = { s with inp := { s.inp with symIn := m } } ∧
        ((s.hostWrite addr w).hostRead addr).1 = (w.extractLsb' 0 8).setWidth 32 ∧
        (s.hostWrite addr w).inp.symAt i = w.extractLsb' 0 8 ∧
        ∀ k, k ≠ i → (s.hostWrite addr w).inp.symAt k = s.inp.symAt k)) ∧
  (∀ (s : State) (addr w : Word) j, locate s.cfg addr = .bitIn j →
    (∀ t, t < 32 → (s.hostRead addr).1.getLsbD (31 - t) = s.inp.bitAt (32 * j + t)) ∧
    (s.seq = .idle →
      ∃ m, s.hostWrite addr w = { s with inp := { s.inp with bitIn := m } } ∧
        ((s.hostWrite addr w).hostRead addr).1 = w ∧
        (∀ t, t < 32 → (s.hostWrite addr w).inp.bitAt (32 * j + t) = w.getLsbD (31 - t)) ∧
        ∀ k, k / 32 ≠ j → (s.hostWrite addr w).inp.bitAt k = s.inp.bitAt k))

/-- R75, R76, R78, R80, R81, R82, R84: what the six result windows read as, bit by bit. -/
def Obligations.ResultWindowWords : Prop :=
  ∀ s : State,
    (∀ x, s.view (.freq x) = SymTable.get s.tbl.freq x) ∧
    (∀ i, s.view (.ftOrder i) =
      if i < s.tbl.ftN.toNat then (s.tbl.ftOrder.getD i 0#8).setWidth 32 else 0#32) ∧
    (∀ i, s.view (.symOut i) =
      if i < s.dec.symOutLen.toNat then (s.dec.symOut.getD i 0#8).setWidth 32 else 0#32) ∧
    (∀ i k, s.tre.nodeCount.toNat ≤ i → s.view (.node i k) = 0#32) ∧
    (∀ i r, i < s.tre.nodeCount.toNat → s.tre.node[i]? = some r →
      s.view (.node i .freq) = r.freq ∧
      (s.view (.node i .info)).getLsbD 31 = r.isLeaf ∧
      (s.view (.node i .info)).extractLsb' 8 23 = 0#23 ∧
      (s.view (.node i .info)).extractLsb' 0 8 = r.sym ∧
      (s.view (.node i .left)).toNat = r.left.toNat ∧ (s.view (.node i .right)).toNat = r.right.toNat) ∧
    (∀ j t, t < 32 → (s.view (.bitOut j)).getLsbD (31 - t) =
      (decide (32 * j + t < s.enc.bitOutLen.toNat) && s.enc.bitOut.getD (32 * j + t) false)) ∧
    (∀ x, s.view (.cb x 0) = BitVec.ofNat 32 (SymTable.get s.cb x).length) ∧
    (∀ x k t, 1 ≤ k → k ≤ 8 → t < 32 → (s.view (.cb x k)).getLsbD (31 - t) =
      (SymTable.get s.cb x).getD (32 * (k - 1) + t) false) ∧
    (∀ x k, 9 ≤ k → s.view (.cb x k) = 0#32)

/-- R26, R21: the fields of the word a read of STATUS gives, running or not. -/
def Obligations.StatusFields : Prop :=
  ∀ (s : State) (addr : Word), locate s.cfg addr = .reg .status →
    ∃ w : Word, s.hostRead addr = (w, s) ∧ s.view (.reg .status) = w ∧
      w.getLsbD 0 = s.isBusy ∧ (s.isBusy = true ↔ s.seq ≠ .idle) ∧ w.getLsbD 1 = s.done ∧ w.getLsbD 2 = s.ovr ∧
      w.getLsbD 3 = false ∧
      w.extractLsb' 4 4 =
        (match s.err with | .ok => 0#4 | .illegalCmd => 1#4 | .lenRange => 2#4 | .capacity => 3#4) ∧
      w.extractLsb' 8 2 = (match s.tre.shape with | .absent => 0#2 | .single => 1#2 | .general => 2#2) ∧
      w.extractLsb' 10 6 = 0#6 ∧ w.extractLsb' 16 8 = s.lastOp ∧ w.extractLsb' 24 8 = 0#8

/-- R26 (the columns "set by" and "cleared by"), R21: what can change each field of STATUS in a step. BUSY rises by a
CMD write and falls by a completion; DONE is set by a completion and cleared by an accepted issue or a write of 1; OVR is
set by a write dropped while busy and cleared by a write of 1; ERR changes at completions, LAST_OP at accepted issues;
`rst` can clear each. (TREE: WritersOfTreeAndCodes.) -/
def Obligations.StatusChangesAsListed : Prop :=
  ∀ s t : State, step s = .next t → s.host.next ≠ some .rst →
    (t.isBusy ≠ s.isBusy → (s.isBusy = true ∧ s.completionDue = true) ∨
      (s.isBusy = false ∧ ∃ addr w, s.host.next = some (.wr addr w) ∧ locate s.cfg addr = .reg .cmd ∧
        t.seq = .busy w)) ∧
    (s.done = false → t.done = true → s.isBusy = true ∧ s.completionDue = true) ∧
    (s.done = true → t.done = false → ∃ addr w, s.host.next = some (.wr addr w) ∧
      ((locate s.cfg addr = .reg .cmd ∧ s.isBusy = false) ∨
        (locate s.cfg addr = .reg .status ∧ w.getLsbD 1 = true))) ∧
    (s.ovr = false → t.ovr = true → s.isBusy = true ∧ ∃ addr w, s.host.next = some (.wr addr w) ∧
      (locate s.cfg addr = .reg .cmd ∨ locate s.cfg addr = .reg .symLen ∨ locate s.cfg addr = .reg .bitInLen ∨
        (∃ i, locate s.cfg addr = .symIn i) ∨ ∃ j, locate s.cfg addr = .bitIn j)) ∧
    (s.ovr = true → t.ovr = false → ∃ addr w, s.host.next = some (.wr addr w) ∧
      locate s.cfg addr = .reg .status ∧ w.getLsbD 2 = true) ∧
    (t.err ≠ s.err → s.isBusy = true ∧ s.completionDue = true) ∧
    (t.lastOp ≠ s.lastOp → s.isBusy = false ∧ ∃ addr w, s.host.next = some (.wr addr w) ∧
      locate s.cfg addr = .reg .cmd ∧ t.lastOp = w.extractLsb' 0 8)

/-- R27: a write of STATUS clears DONE and OVR where bits 1 and 2 of the word are 1, ignores every other bit, and is
accepted whether or not a command runs. -/
def Obligations.StatusWriteClears : Prop :=
  ∀ (s : State) (addr w : Word), locate s.cfg addr = .reg .status →
    s.hostWrite addr w =
      { s with
        done := if w.getLsbD 1 = true then false else s.done
        ovr := if w.getLsbD 2 = true then false else s.ovr }

/-- R22 to R25, R28, R29: the registers the host sets or identifies HUFC by. CTRL keeps bit 0 of the word written and
reads bits 31..1 as 0, running or not; SYM_LEN and BIT_IN_LEN keep any word written while idle; CMD reads 0; ID and the
parameters read their constants. -/
def Obligations.ControlAndLengthRegisters : Prop :=
  ∀ (s : State) (addr w : Word),
    (locate s.cfg addr = .reg .id → s.hostRead addr = (0x48554631#32, s)) ∧
    (locate s.cfg addr = .reg .paramMaxLen → (s.hostRead addr).1.toNat = s.cfg.maxLen) ∧
    (locate s.cfg addr = .reg .paramMaxBits → (s.hostRead addr).1.toNat = s.cfg.maxBits) ∧
    (locate s.cfg addr = .reg .cmd → s.hostRead addr = (0#32, s)) ∧
    (locate s.cfg addr = .reg .ctrl →
      s.hostWrite addr w = { s with ie := w.getLsbD 0 } ∧
      (s.hostRead addr).1 = (if s.ie = true then 1#32 else 0#32)) ∧
    (locate s.cfg addr = .reg .symLen → s.seq = .idle →
      s.hostWrite addr w = { s with inp := { s.inp with symLen := w } } ∧
      ((s.hostWrite addr w).hostRead addr).1 = w) ∧
    (locate s.cfg addr = .reg .bitInLen → s.seq = .idle →
      s.hostWrite addr w = { s with inp := { s.inp with bitInLen := w } } ∧
      ((s.hostWrite addr w).hostRead addr).1 = w)

/-! ### Host programs -/

/-- R109: `cmd` is a write of the command's word to CMD (offset 0x10), which while idle sets it running; `wr` and `rd`
are one transaction at the place's address, which names that place; `ack` is a write of 6 to STATUS (offset 0x14) that
clears DONE and OVR; `fill` and `fillbits` are the writes of FillLoadsTheInputs, one for each input word in order and then
the length (0x18, 0x1C); a label is no transaction (R108), and `goto` one branch to its label's position. The numbering
of temporaries, and that a `goto` to a label without a position does not assemble, are the model's choices:
notes/assumptions/9.md. -/
def Obligations.HostStatementsExpand : Prop :=
  (∀ labels pos i, Stmt.expand labels pos (.cmd i) = some [.wr 0x10#32 (encode i)]) ∧
  (∀ labels pos w, Stmt.expand labels pos (.cmdWord w) = some [.wr 0x10#32 w]) ∧
  (∀ (s : State) i, s.seq = .idle →
    (s.perform (.wr 0x10#32 (encode i))).seq = .busy (encode i) ∧ decodeCmd (encode i) = .ok i) ∧
  (∀ labels pos, Stmt.expand labels pos .ack = some [.wr 0x14#32 6#32]) ∧
  (∀ s : State, s.perform (.wr 0x14#32 6#32) = { s with
    done := false, ovr := false, host := { s.host with pos := s.host.pos + 1 } }) ∧
  (∀ labels pos (p : Params) loc v, Stmt.wf p (.wr loc v) = true →
    ∃ a, Stmt.expand labels pos (.wr loc v) = some [.wr a v] ∧ locate p a = loc) ∧
  (∀ labels pos (p : Params) loc t, Stmt.wf p (.rd loc t) = true →
    ∃ a, Stmt.expand labels pos (.rd loc t) = some [.rd a (t + 1)] ∧ locate p a = loc) ∧
  (∀ labels pos text, Stmt.expand labels pos (.fill text) = some (fillWrites 0 text) ∧
    fillWrites 0 text =
      (List.range text.length).map (fun i => .wr (BitVec.ofNat 32 (0x01000000 + 4 * i)) ((text.getD i 0#8).setWidth 32))
        ++ [.wr 0x18#32 (BitVec.ofNat 32 text.length)]) ∧
  (∀ labels pos bits, Stmt.expand labels pos (.fillbits bits) = some (fillbitsWrites bits) ∧
    fillbitsWrites bits =
      (List.range ((bits.length + 31) / 32)).map
          (fun j => .wr (BitVec.ofNat 32 (0x02000000 + 4 * j)) (packedWord bits bits.length j))
        ++ [.wr 0x1C#32 (BitVec.ofNat 32 bits.length)]) ∧
  (∀ labels pos l, Stmt.expand labels pos (.label l) = some []) ∧
  (∀ labels pos t hi lo v l, Stmt.expand labels pos (.goto t hi lo v l) =
    (labelPos labels l).map (fun target => [.br (t + 1) hi lo v target]))

/-- R108: a branch is taken exactly when the field of the word last read into its temporary has the value; it moves the
host and does nothing else. -/
def Obligations.BranchesTestAField : Prop :=
  ∀ (s : State) (t hi lo v target : Nat) (w : Word), lo ≤ hi → Memory.find s.host.temps t = some w →
    s.perform (.br t hi lo v target) = { s with host := { s.host with
      pos := if (w.extractLsb' lo (hi - lo + 1)).toNat = v then target else s.host.pos + 1 } } ∧
    ∀ addr, (s.perform (.rd addr t)).host.temps = Memory.put s.host.temps t (s.hostRead addr).1 ∧
      Memory.find (s.perform (.rd addr t)).host.temps t = some (s.hostRead addr).1

/-- R108: a label names the statement after it: in an assembled program its position is the length of the expansion of
the statements before it, and the program is the expansions one after the other. -/
def Obligations.LabelsNameTheNextStatement : Prop :=
  ∀ (pre post : List Stmt) (l : Nat) (ops : List PortOp), assemble (pre ++ .label l :: post) = some ops →
    .label l ∉ pre → .label l ∉ post →
    ∃ a b, ops = a ++ b ∧ labelPos (labelPositions 0 (pre ++ .label l :: post)) l = some a.length ∧
      expandFrom (labelPositions 0 (pre ++ .label l :: post)) 0 pre = some a ∧
      expandFrom (labelPositions 0 (pre ++ .label l :: post)) a.length post = some b

/-- R109, R275: `fill` and `fillbits` performed while idle load the inputs: the core then reads exactly the text and
the bits, and nothing but the inputs changes. -/
def Obligations.FillLoadsTheInputs : Prop :=
  (∀ (s : State) (text : List Symbol), s.seq = .idle → text.length ≤ s.cfg.maxLen →
    (s.performWrites (fillWrites 0 text)).symInput = text ∧
    (s.performWrites (fillWrites 0 text)).inp.symLen.toNat = text.length ∧
    ∃ x, s.performWrites (fillWrites 0 text) = { s with inp := x }) ∧
  (∀ (s : State) (bits : Bits), s.seq = .idle → bits.length ≤ s.cfg.maxBits →
    (s.performWrites (fillbitsWrites bits)).bitInput = bits ∧
    (s.performWrites (fillbitsWrites bits)).inp.bitInLen.toNat = bits.length ∧
    ∃ x, s.performWrites (fillbitsWrites bits) = { s with inp := x })

/-- R109: `wait` is a read of STATUS (offset 0x14) and a branch back to it on bit 0; performed at `pos`, the host is
back at `pos` when the STATUS it read had BUSY = 1, and past the loop when it had BUSY = 0. -/
def Obligations.WaitLoopsWhileBusy : Prop :=
  ∀ (s : State) (pos : Nat),
    Stmt.expand [] pos .wait = some [.rd 0x14#32 waitTemp, .br waitTemp 0 0 1 pos] ∧
    (s.host.pos = pos → s.host.prog[pos]? = some (.rd 0x14#32 waitTemp) →
      s.host.prog[pos + 1]? = some (.br waitTemp 0 0 1 pos) →
      s.hostTurn.hostTurn.host.pos = if s.isBusy then pos else pos + 2)

/-! ### The worked example -/

/-- R149, R165: the arena and the codes of "abracadabra", and its encoding (44_stats_control.md R215, the example). -/
def Obligations.WorkedExampleAbracadabra : Prop :=
  ∀ s t : State, s.inp.symLen = 11#32 →
    s.symInput = [0x61#8, 0x62#8, 0x72#8, 0x61#8, 0x63#8, 0x61#8, 0x64#8, 0x61#8, 0x62#8, 0x72#8, 0x61#8] →
    11 ≤ s.cfg.maxLen → exec .compress s = .next t →
    t.tbl.ftOrder = [0x61#8, 0x62#8, 0x72#8, 0x63#8, 0x64#8] ∧
    t.tre.node =
      [⟨true, 0x61#8, 5#32, 0#9, 0#9⟩, ⟨true, 0x62#8, 2#32, 0#9, 0#9⟩, ⟨true, 0x72#8, 2#32, 0#9, 0#9⟩,
       ⟨true, 0x63#8, 1#32, 0#9, 0#9⟩, ⟨true, 0x64#8, 1#32, 0#9, 0#9⟩, ⟨false, 0#8, 2#32, 3#9, 4#9⟩,
       ⟨false, 0#8, 4#32, 1#9, 2#9⟩, ⟨false, 0#8, 6#32, 5#9, 6#9⟩, ⟨false, 0#8, 11#32, 0#9, 7#9⟩] ∧
    t.tre.nodeCount = 9#32 ∧ t.tre.root = 8#9 ∧
    SymTable.get t.cb 0x61#8 = [false] ∧ SymTable.get t.cb 0x63#8 = [true, false, false] ∧
    SymTable.get t.cb 0x64#8 = [true, false, true] ∧ SymTable.get t.cb 0x62#8 = [true, true, false] ∧
    SymTable.get t.cb 0x72#8 = [true, true, true] ∧ t.enc.bitOutLen = 23#32 ∧
    t.view (.bitOut 0) = 0x6E8ADC00#32

/-! ### The result registers -/

/-- R20, R30 to R33, R43, R74: what a read of each of the 14 result registers gives while idle; ROOT is read in bits 8..0
with bits 31..9 at 0. -/
def Obligations.ResultRegisterWords : Prop :=
  ∀ s : State, s.seq = .idle →
    s.hostRead 0x20#32 = (s.enc.bitOutLen, s) ∧ s.hostRead 0x24#32 = (s.enc.encSkip, s) ∧
    s.hostRead 0x28#32 = (s.dec.symOutLen, s) ∧ s.hostRead 0x2C#32 = (s.dec.decTail, s) ∧
    s.hostRead 0x30#32 = (s.tbl.ftN, s) ∧ s.hostRead 0x34#32 = (s.tbl.ftTotal, s) ∧
    s.hostRead 0x38#32 = (s.tre.nodeCount, s) ∧
    ((s.hostRead 0x3C#32).1.extractLsb' 0 9 = s.tre.root ∧ (s.hostRead 0x3C#32).1.extractLsb' 9 23 = 0#23 ∧
      (s.hostRead 0x3C#32).2 = s) ∧
    s.hostRead 0x40#32 = (s.sts.origBits, s) ∧ s.hostRead 0x44#32 = (s.sts.compBits, s) ∧
    s.hostRead 0x48#32 = (s.sts.ratioNum, s) ∧ s.hostRead 0x4C#32 = (s.sts.ratioDen, s) ∧
    s.hostRead 0x50#32 = (s.sts.ratioBp, s) ∧ s.hostRead 0x54#32 = (s.sts.savedBits, s)
end

