-- ==== Sys2Proof/Laws/State.lean ====
section
/-! SUPPORT. One lemma per field per named update of State. -/

namespace Sys2Proof.Machine

variable (s : State)

/-! ### setTable -/

@[simp] theorem State.setTable_cfg (t : FreqTable) : (s.setTable t).cfg = s.cfg := rfl
@[simp] theorem State.setTable_seq (t : FreqTable) : (s.setTable t).seq = s.seq := rfl
@[simp] theorem State.setTable_ie (t : FreqTable) : (s.setTable t).ie = s.ie := rfl
@[simp] theorem State.setTable_done (t : FreqTable) : (s.setTable t).done = s.done := rfl
@[simp] theorem State.setTable_ovr (t : FreqTable) : (s.setTable t).ovr = s.ovr := rfl
@[simp] theorem State.setTable_err (t : FreqTable) : (s.setTable t).err = s.err := rfl
@[simp] theorem State.setTable_lastOp (t : FreqTable) : (s.setTable t).lastOp = s.lastOp := rfl
@[simp] theorem State.setTable_inp (t : FreqTable) : (s.setTable t).inp = s.inp := rfl
@[simp] theorem State.setTable_tbl (t : FreqTable) : (s.setTable t).tbl = t := rfl
@[simp] theorem State.setTable_tre (t : FreqTable) : (s.setTable t).tre = s.tre := rfl
@[simp] theorem State.setTable_cb (t : FreqTable) : (s.setTable t).cb = s.cb := rfl
@[simp] theorem State.setTable_enc (t : FreqTable) : (s.setTable t).enc = s.enc := rfl
@[simp] theorem State.setTable_dec (t : FreqTable) : (s.setTable t).dec = s.dec := rfl
@[simp] theorem State.setTable_sts (t : FreqTable) : (s.setTable t).sts = s.sts := rfl
@[simp] theorem State.setTable_host (t : FreqTable) : (s.setTable t).host = s.host := rfl
@[simp] theorem State.setTable_env (t : FreqTable) : (s.setTable t).env = s.env := rfl

/-! ### setTree -/

@[simp] theorem State.setTree_cfg (t : HuffTree) : (s.setTree t).cfg = s.cfg := rfl
@[simp] theorem State.setTree_seq (t : HuffTree) : (s.setTree t).seq = s.seq := rfl
@[simp] theorem State.setTree_ie (t : HuffTree) : (s.setTree t).ie = s.ie := rfl
@[simp] theorem State.setTree_done (t : HuffTree) : (s.setTree t).done = s.done := rfl
@[simp] theorem State.setTree_ovr (t : HuffTree) : (s.setTree t).ovr = s.ovr := rfl
@[simp] theorem State.setTree_err (t : HuffTree) : (s.setTree t).err = s.err := rfl
@[simp] theorem State.setTree_lastOp (t : HuffTree) : (s.setTree t).lastOp = s.lastOp := rfl
@[simp] theorem State.setTree_inp (t : HuffTree) : (s.setTree t).inp = s.inp := rfl
@[simp] theorem State.setTree_tbl (t : HuffTree) : (s.setTree t).tbl = s.tbl := rfl
@[simp] theorem State.setTree_tre (t : HuffTree) : (s.setTree t).tre = t := rfl
@[simp] theorem State.setTree_cb (t : HuffTree) : (s.setTree t).cb = s.cb := rfl
@[simp] theorem State.setTree_enc (t : HuffTree) : (s.setTree t).enc = s.enc := rfl
@[simp] theorem State.setTree_dec (t : HuffTree) : (s.setTree t).dec = s.dec := rfl
@[simp] theorem State.setTree_sts (t : HuffTree) : (s.setTree t).sts = s.sts := rfl
@[simp] theorem State.setTree_host (t : HuffTree) : (s.setTree t).host = s.host := rfl
@[simp] theorem State.setTree_env (t : HuffTree) : (s.setTree t).env = s.env := rfl

/-! ### setCodes -/

@[simp] theorem State.setCodes_cfg (c : CodeBook) : (s.setCodes c).cfg = s.cfg := rfl
@[simp] theorem State.setCodes_seq (c : CodeBook) : (s.setCodes c).seq = s.seq := rfl
@[simp] theorem State.setCodes_ie (c : CodeBook) : (s.setCodes c).ie = s.ie := rfl
@[simp] theorem State.setCodes_done (c : CodeBook) : (s.setCodes c).done = s.done := rfl
@[simp] theorem State.setCodes_ovr (c : CodeBook) : (s.setCodes c).ovr = s.ovr := rfl
@[simp] theorem State.setCodes_err (c : CodeBook) : (s.setCodes c).err = s.err := rfl
@[simp] theorem State.setCodes_lastOp (c : CodeBook) : (s.setCodes c).lastOp = s.lastOp := rfl
@[simp] theorem State.setCodes_inp (c : CodeBook) : (s.setCodes c).inp = s.inp := rfl
@[simp] theorem State.setCodes_tbl (c : CodeBook) : (s.setCodes c).tbl = s.tbl := rfl
@[simp] theorem State.setCodes_tre (c : CodeBook) : (s.setCodes c).tre = s.tre := rfl
@[simp] theorem State.setCodes_cb (c : CodeBook) : (s.setCodes c).cb = c := rfl
@[simp] theorem State.setCodes_enc (c : CodeBook) : (s.setCodes c).enc = s.enc := rfl
@[simp] theorem State.setCodes_dec (c : CodeBook) : (s.setCodes c).dec = s.dec := rfl
@[simp] theorem State.setCodes_sts (c : CodeBook) : (s.setCodes c).sts = s.sts := rfl
@[simp] theorem State.setCodes_host (c : CodeBook) : (s.setCodes c).host = s.host := rfl
@[simp] theorem State.setCodes_env (c : CodeBook) : (s.setCodes c).env = s.env := rfl

/-! ### setEncoded -/

@[simp] theorem State.setEncoded_cfg (e : Encoded) : (s.setEncoded e).cfg = s.cfg := rfl
@[simp] theorem State.setEncoded_seq (e : Encoded) : (s.setEncoded e).seq = s.seq := rfl
@[simp] theorem State.setEncoded_ie (e : Encoded) : (s.setEncoded e).ie = s.ie := rfl
@[simp] theorem State.setEncoded_done (e : Encoded) : (s.setEncoded e).done = s.done := rfl
@[simp] theorem State.setEncoded_ovr (e : Encoded) : (s.setEncoded e).ovr = s.ovr := rfl
@[simp] theorem State.setEncoded_err (e : Encoded) : (s.setEncoded e).err = s.err := rfl
@[simp] theorem State.setEncoded_lastOp (e : Encoded) : (s.setEncoded e).lastOp = s.lastOp := rfl
@[simp] theorem State.setEncoded_inp (e : Encoded) : (s.setEncoded e).inp = s.inp := rfl
@[simp] theorem State.setEncoded_tbl (e : Encoded) : (s.setEncoded e).tbl = s.tbl := rfl
@[simp] theorem State.setEncoded_tre (e : Encoded) : (s.setEncoded e).tre = s.tre := rfl
@[simp] theorem State.setEncoded_cb (e : Encoded) : (s.setEncoded e).cb = s.cb := rfl
@[simp] theorem State.setEncoded_enc (e : Encoded) : (s.setEncoded e).enc = e := rfl
@[simp] theorem State.setEncoded_dec (e : Encoded) : (s.setEncoded e).dec = s.dec := rfl
@[simp] theorem State.setEncoded_sts (e : Encoded) : (s.setEncoded e).sts = s.sts := rfl
@[simp] theorem State.setEncoded_host (e : Encoded) : (s.setEncoded e).host = s.host := rfl
@[simp] theorem State.setEncoded_env (e : Encoded) : (s.setEncoded e).env = s.env := rfl

/-! ### setDecoded -/

@[simp] theorem State.setDecoded_cfg (d : Decoded) : (s.setDecoded d).cfg = s.cfg := rfl
@[simp] theorem State.setDecoded_seq (d : Decoded) : (s.setDecoded d).seq = s.seq := rfl
@[simp] theorem State.setDecoded_ie (d : Decoded) : (s.setDecoded d).ie = s.ie := rfl
@[simp] theorem State.setDecoded_done (d : Decoded) : (s.setDecoded d).done = s.done := rfl
@[simp] theorem State.setDecoded_ovr (d : Decoded) : (s.setDecoded d).ovr = s.ovr := rfl
@[simp] theorem State.setDecoded_err (d : Decoded) : (s.setDecoded d).err = s.err := rfl
@[simp] theorem State.setDecoded_lastOp (d : Decoded) : (s.setDecoded d).lastOp = s.lastOp := rfl
@[simp] theorem State.setDecoded_inp (d : Decoded) : (s.setDecoded d).inp = s.inp := rfl
@[simp] theorem State.setDecoded_tbl (d : Decoded) : (s.setDecoded d).tbl = s.tbl := rfl
@[simp] theorem State.setDecoded_tre (d : Decoded) : (s.setDecoded d).tre = s.tre := rfl
@[simp] theorem State.setDecoded_cb (d : Decoded) : (s.setDecoded d).cb = s.cb := rfl
@[simp] theorem State.setDecoded_enc (d : Decoded) : (s.setDecoded d).enc = s.enc := rfl
@[simp] theorem State.setDecoded_dec (d : Decoded) : (s.setDecoded d).dec = d := rfl
@[simp] theorem State.setDecoded_sts (d : Decoded) : (s.setDecoded d).sts = s.sts := rfl
@[simp] theorem State.setDecoded_host (d : Decoded) : (s.setDecoded d).host = s.host := rfl
@[simp] theorem State.setDecoded_env (d : Decoded) : (s.setDecoded d).env = s.env := rfl

/-! ### setStats -/

@[simp] theorem State.setStats_cfg (x : Stats) : (s.setStats x).cfg = s.cfg := rfl
@[simp] theorem State.setStats_seq (x : Stats) : (s.setStats x).seq = s.seq := rfl
@[simp] theorem State.setStats_ie (x : Stats) : (s.setStats x).ie = s.ie := rfl
@[simp] theorem State.setStats_done (x : Stats) : (s.setStats x).done = s.done := rfl
@[simp] theorem State.setStats_ovr (x : Stats) : (s.setStats x).ovr = s.ovr := rfl
@[simp] theorem State.setStats_err (x : Stats) : (s.setStats x).err = s.err := rfl
@[simp] theorem State.setStats_lastOp (x : Stats) : (s.setStats x).lastOp = s.lastOp := rfl
@[simp] theorem State.setStats_inp (x : Stats) : (s.setStats x).inp = s.inp := rfl
@[simp] theorem State.setStats_tbl (x : Stats) : (s.setStats x).tbl = s.tbl := rfl
@[simp] theorem State.setStats_tre (x : Stats) : (s.setStats x).tre = s.tre := rfl
@[simp] theorem State.setStats_cb (x : Stats) : (s.setStats x).cb = s.cb := rfl
@[simp] theorem State.setStats_enc (x : Stats) : (s.setStats x).enc = s.enc := rfl
@[simp] theorem State.setStats_dec (x : Stats) : (s.setStats x).dec = s.dec := rfl
@[simp] theorem State.setStats_sts (x : Stats) : (s.setStats x).sts = x := rfl
@[simp] theorem State.setStats_host (x : Stats) : (s.setStats x).host = s.host := rfl
@[simp] theorem State.setStats_env (x : Stats) : (s.setStats x).env = s.env := rfl

/-! ### complete -/

@[simp] theorem State.complete_cfg (code : ErrCode) : (s.complete code).cfg = s.cfg := rfl
@[simp] theorem State.complete_seq (code : ErrCode) : (s.complete code).seq = .idle := rfl
@[simp] theorem State.complete_ie (code : ErrCode) : (s.complete code).ie = s.ie := rfl
@[simp] theorem State.complete_done (code : ErrCode) : (s.complete code).done = true := rfl
@[simp] theorem State.complete_ovr (code : ErrCode) : (s.complete code).ovr = s.ovr := rfl
@[simp] theorem State.complete_err (code : ErrCode) : (s.complete code).err = code := rfl
@[simp] theorem State.complete_lastOp (code : ErrCode) : (s.complete code).lastOp = s.lastOp := rfl
@[simp] theorem State.complete_inp (code : ErrCode) : (s.complete code).inp = s.inp := rfl
@[simp] theorem State.complete_tbl (code : ErrCode) : (s.complete code).tbl = s.tbl := rfl
@[simp] theorem State.complete_tre (code : ErrCode) : (s.complete code).tre = s.tre := rfl
@[simp] theorem State.complete_cb (code : ErrCode) : (s.complete code).cb = s.cb := rfl
@[simp] theorem State.complete_enc (code : ErrCode) : (s.complete code).enc = s.enc := rfl
@[simp] theorem State.complete_dec (code : ErrCode) : (s.complete code).dec = s.dec := rfl
@[simp] theorem State.complete_sts (code : ErrCode) : (s.complete code).sts = s.sts := rfl
@[simp] theorem State.complete_host (code : ErrCode) : (s.complete code).host = s.host := rfl
@[simp] theorem State.complete_env (code : ErrCode) : (s.complete code).env = s.env := rfl

/-! ### acceptWord -/

@[simp] theorem State.acceptWord_cfg (w : Word) : (s.acceptWord w).cfg = s.cfg := rfl
@[simp] theorem State.acceptWord_seq (w : Word) : (s.acceptWord w).seq = .busy w := rfl
@[simp] theorem State.acceptWord_ie (w : Word) : (s.acceptWord w).ie = s.ie := rfl
@[simp] theorem State.acceptWord_done (w : Word) : (s.acceptWord w).done = false := rfl
@[simp] theorem State.acceptWord_ovr (w : Word) : (s.acceptWord w).ovr = s.ovr := rfl
@[simp] theorem State.acceptWord_err (w : Word) : (s.acceptWord w).err = s.err := rfl
@[simp] theorem State.acceptWord_lastOp (w : Word) : (s.acceptWord w).lastOp = opcOf w := rfl
@[simp] theorem State.acceptWord_inp (w : Word) : (s.acceptWord w).inp = s.inp := rfl
@[simp] theorem State.acceptWord_tbl (w : Word) : (s.acceptWord w).tbl = s.tbl := rfl
@[simp] theorem State.acceptWord_tre (w : Word) : (s.acceptWord w).tre = s.tre := rfl
@[simp] theorem State.acceptWord_cb (w : Word) : (s.acceptWord w).cb = s.cb := rfl
@[simp] theorem State.acceptWord_enc (w : Word) : (s.acceptWord w).enc = s.enc := rfl
@[simp] theorem State.acceptWord_dec (w : Word) : (s.acceptWord w).dec = s.dec := rfl
@[simp] theorem State.acceptWord_sts (w : Word) : (s.acceptWord w).sts = s.sts := rfl
@[simp] theorem State.acceptWord_host (w : Word) : (s.acceptWord w).host = s.host := rfl
@[simp] theorem State.acceptWord_env (w : Word) : (s.acceptWord w).env = s.env := rfl

/-! ### setOvr -/

@[simp] theorem State.setOvr_cfg : s.setOvr.cfg = s.cfg := rfl
@[simp] theorem State.setOvr_seq : s.setOvr.seq = s.seq := rfl
@[simp] theorem State.setOvr_ie : s.setOvr.ie = s.ie := rfl
@[simp] theorem State.setOvr_done : s.setOvr.done = s.done := rfl
@[simp] theorem State.setOvr_ovr : s.setOvr.ovr = true := rfl
@[simp] theorem State.setOvr_err : s.setOvr.err = s.err := rfl
@[simp] theorem State.setOvr_lastOp : s.setOvr.lastOp = s.lastOp := rfl
@[simp] theorem State.setOvr_inp : s.setOvr.inp = s.inp := rfl
@[simp] theorem State.setOvr_tbl : s.setOvr.tbl = s.tbl := rfl
@[simp] theorem State.setOvr_tre : s.setOvr.tre = s.tre := rfl
@[simp] theorem State.setOvr_cb : s.setOvr.cb = s.cb := rfl
@[simp] theorem State.setOvr_enc : s.setOvr.enc = s.enc := rfl
@[simp] theorem State.setOvr_dec : s.setOvr.dec = s.dec := rfl
@[simp] theorem State.setOvr_sts : s.setOvr.sts = s.sts := rfl
@[simp] theorem State.setOvr_host : s.setOvr.host = s.host := rfl
@[simp] theorem State.setOvr_env : s.setOvr.env = s.env := rfl

/-! ### clearSession -/

@[simp] theorem State.clearSession_cfg : s.clearSession.cfg = s.cfg := rfl
@[simp] theorem State.clearSession_seq : s.clearSession.seq = s.seq := rfl
@[simp] theorem State.clearSession_ie : s.clearSession.ie = s.ie := rfl
@[simp] theorem State.clearSession_done : s.clearSession.done = s.done := rfl
@[simp] theorem State.clearSession_ovr : s.clearSession.ovr = s.ovr := rfl
@[simp] theorem State.clearSession_err : s.clearSession.err = s.err := rfl
@[simp] theorem State.clearSession_lastOp : s.clearSession.lastOp = s.lastOp := rfl
@[simp] theorem State.clearSession_inp : s.clearSession.inp = s.inp := rfl
@[simp] theorem State.clearSession_tbl : s.clearSession.tbl = FreqTable.empty := rfl
@[simp] theorem State.clearSession_tre : s.clearSession.tre = HuffTree.absent := rfl
@[simp] theorem State.clearSession_cb : s.clearSession.cb = CodeBook.empty := rfl
@[simp] theorem State.clearSession_enc : s.clearSession.enc = Encoded.empty := rfl
@[simp] theorem State.clearSession_dec : s.clearSession.dec = Decoded.empty := rfl
@[simp] theorem State.clearSession_sts : s.clearSession.sts = Stats.zero := rfl
@[simp] theorem State.clearSession_host : s.clearSession.host = s.host := rfl
@[simp] theorem State.clearSession_env : s.clearSession.env = s.env := rfl

/-! ### assertRst -/

@[simp] theorem State.assertRst_cfg : s.assertRst.cfg = s.cfg := rfl
@[simp] theorem State.assertRst_seq : s.assertRst.seq = .idle := rfl
@[simp] theorem State.assertRst_ie : s.assertRst.ie = false := rfl
@[simp] theorem State.assertRst_done : s.assertRst.done = false := rfl
@[simp] theorem State.assertRst_ovr : s.assertRst.ovr = false := rfl
@[simp] theorem State.assertRst_err : s.assertRst.err = .ok := rfl
@[simp] theorem State.assertRst_lastOp : s.assertRst.lastOp = 0#8 := rfl
@[simp] theorem State.assertRst_inp : s.assertRst.inp = Inputs.blank (s.inp.launch + 1) := rfl
@[simp] theorem State.assertRst_tbl : s.assertRst.tbl = FreqTable.empty := rfl
@[simp] theorem State.assertRst_tre : s.assertRst.tre = HuffTree.absent := rfl
@[simp] theorem State.assertRst_cb : s.assertRst.cb = CodeBook.empty := rfl
@[simp] theorem State.assertRst_enc : s.assertRst.enc = Encoded.empty := rfl
@[simp] theorem State.assertRst_dec : s.assertRst.dec = Decoded.empty := rfl
@[simp] theorem State.assertRst_sts : s.assertRst.sts = Stats.zero := rfl
@[simp] theorem State.assertRst_host : s.assertRst.host = s.host := rfl
@[simp] theorem State.assertRst_env : s.assertRst.env = { due := 0, latencies := s.env.latencies, draws := s.env.draws } := rfl

/-! ### writeStatus -/

@[simp] theorem State.writeStatus_cfg (w : Word) : (s.writeStatus w).cfg = s.cfg := rfl
@[simp] theorem State.writeStatus_seq (w : Word) : (s.writeStatus w).seq = s.seq := rfl
@[simp] theorem State.writeStatus_ie (w : Word) : (s.writeStatus w).ie = s.ie := rfl
@[simp] theorem State.writeStatus_done (w : Word) : (s.writeStatus w).done = (s.done && !w.getLsbD 1) := rfl
@[simp] theorem State.writeStatus_ovr (w : Word) : (s.writeStatus w).ovr = (s.ovr && !w.getLsbD 2) := rfl
@[simp] theorem State.writeStatus_err (w : Word) : (s.writeStatus w).err = s.err := rfl
@[simp] theorem State.writeStatus_lastOp (w : Word) : (s.writeStatus w).lastOp = s.lastOp := rfl
@[simp] theorem State.writeStatus_inp (w : Word) : (s.writeStatus w).inp = s.inp := rfl
@[simp] theorem State.writeStatus_tbl (w : Word) : (s.writeStatus w).tbl = s.tbl := rfl
@[simp] theorem State.writeStatus_tre (w : Word) : (s.writeStatus w).tre = s.tre := rfl
@[simp] theorem State.writeStatus_cb (w : Word) : (s.writeStatus w).cb = s.cb := rfl
@[simp] theorem State.writeStatus_enc (w : Word) : (s.writeStatus w).enc = s.enc := rfl
@[simp] theorem State.writeStatus_dec (w : Word) : (s.writeStatus w).dec = s.dec := rfl
@[simp] theorem State.writeStatus_sts (w : Word) : (s.writeStatus w).sts = s.sts := rfl
@[simp] theorem State.writeStatus_host (w : Word) : (s.writeStatus w).host = s.host := rfl
@[simp] theorem State.writeStatus_env (w : Word) : (s.writeStatus w).env = s.env := rfl

/-! ### writeCtrl -/

@[simp] theorem State.writeCtrl_cfg (w : Word) : (s.writeCtrl w).cfg = s.cfg := rfl
@[simp] theorem State.writeCtrl_seq (w : Word) : (s.writeCtrl w).seq = s.seq := rfl
@[simp] theorem State.writeCtrl_ie (w : Word) : (s.writeCtrl w).ie = w.getLsbD 0 := rfl
@[simp] theorem State.writeCtrl_done (w : Word) : (s.writeCtrl w).done = s.done := rfl
@[simp] theorem State.writeCtrl_ovr (w : Word) : (s.writeCtrl w).ovr = s.ovr := rfl
@[simp] theorem State.writeCtrl_err (w : Word) : (s.writeCtrl w).err = s.err := rfl
@[simp] theorem State.writeCtrl_lastOp (w : Word) : (s.writeCtrl w).lastOp = s.lastOp := rfl
@[simp] theorem State.writeCtrl_inp (w : Word) : (s.writeCtrl w).inp = s.inp := rfl
@[simp] theorem State.writeCtrl_tbl (w : Word) : (s.writeCtrl w).tbl = s.tbl := rfl
@[simp] theorem State.writeCtrl_tre (w : Word) : (s.writeCtrl w).tre = s.tre := rfl
@[simp] theorem State.writeCtrl_cb (w : Word) : (s.writeCtrl w).cb = s.cb := rfl
@[simp] theorem State.writeCtrl_enc (w : Word) : (s.writeCtrl w).enc = s.enc := rfl
@[simp] theorem State.writeCtrl_dec (w : Word) : (s.writeCtrl w).dec = s.dec := rfl
@[simp] theorem State.writeCtrl_sts (w : Word) : (s.writeCtrl w).sts = s.sts := rfl
@[simp] theorem State.writeCtrl_host (w : Word) : (s.writeCtrl w).host = s.host := rfl
@[simp] theorem State.writeCtrl_env (w : Word) : (s.writeCtrl w).env = s.env := rfl

/-! ### hostAt -/

@[simp] theorem State.hostAt_cfg (n : Nat) : (s.hostAt n).cfg = s.cfg := rfl
@[simp] theorem State.hostAt_seq (n : Nat) : (s.hostAt n).seq = s.seq := rfl
@[simp] theorem State.hostAt_ie (n : Nat) : (s.hostAt n).ie = s.ie := rfl
@[simp] theorem State.hostAt_done (n : Nat) : (s.hostAt n).done = s.done := rfl
@[simp] theorem State.hostAt_ovr (n : Nat) : (s.hostAt n).ovr = s.ovr := rfl
@[simp] theorem State.hostAt_err (n : Nat) : (s.hostAt n).err = s.err := rfl
@[simp] theorem State.hostAt_lastOp (n : Nat) : (s.hostAt n).lastOp = s.lastOp := rfl
@[simp] theorem State.hostAt_inp (n : Nat) : (s.hostAt n).inp = s.inp := rfl
@[simp] theorem State.hostAt_tbl (n : Nat) : (s.hostAt n).tbl = s.tbl := rfl
@[simp] theorem State.hostAt_tre (n : Nat) : (s.hostAt n).tre = s.tre := rfl
@[simp] theorem State.hostAt_cb (n : Nat) : (s.hostAt n).cb = s.cb := rfl
@[simp] theorem State.hostAt_enc (n : Nat) : (s.hostAt n).enc = s.enc := rfl
@[simp] theorem State.hostAt_dec (n : Nat) : (s.hostAt n).dec = s.dec := rfl
@[simp] theorem State.hostAt_sts (n : Nat) : (s.hostAt n).sts = s.sts := rfl
@[simp] theorem State.hostAt_host (n : Nat) : (s.hostAt n).host = { s.host with pos := n } := rfl
@[simp] theorem State.hostAt_env (n : Nat) : (s.hostAt n).env = s.env := rfl

/-! ### tickDue -/

@[simp] theorem State.tickDue_cfg : s.tickDue.cfg = s.cfg := rfl
@[simp] theorem State.tickDue_seq : s.tickDue.seq = s.seq := rfl
@[simp] theorem State.tickDue_ie : s.tickDue.ie = s.ie := rfl
@[simp] theorem State.tickDue_done : s.tickDue.done = s.done := rfl
@[simp] theorem State.tickDue_ovr : s.tickDue.ovr = s.ovr := rfl
@[simp] theorem State.tickDue_err : s.tickDue.err = s.err := rfl
@[simp] theorem State.tickDue_lastOp : s.tickDue.lastOp = s.lastOp := rfl
@[simp] theorem State.tickDue_inp : s.tickDue.inp = s.inp := rfl
@[simp] theorem State.tickDue_tbl : s.tickDue.tbl = s.tbl := rfl
@[simp] theorem State.tickDue_tre : s.tickDue.tre = s.tre := rfl
@[simp] theorem State.tickDue_cb : s.tickDue.cb = s.cb := rfl
@[simp] theorem State.tickDue_enc : s.tickDue.enc = s.enc := rfl
@[simp] theorem State.tickDue_dec : s.tickDue.dec = s.dec := rfl
@[simp] theorem State.tickDue_sts : s.tickDue.sts = s.sts := rfl
@[simp] theorem State.tickDue_host : s.tickDue.host = s.host := rfl
@[simp] theorem State.tickDue_env : s.tickDue.env = { s.env with due := s.env.due - 1 } := rfl

/-! ### withHostProgram -/

@[simp] theorem State.withHostProgram_cfg (prog : List PortOp) : (s.withHostProgram prog).cfg = s.cfg := rfl
@[simp] theorem State.withHostProgram_seq (prog : List PortOp) : (s.withHostProgram prog).seq = s.seq := rfl
@[simp] theorem State.withHostProgram_ie (prog : List PortOp) : (s.withHostProgram prog).ie = s.ie := rfl
@[simp] theorem State.withHostProgram_done (prog : List PortOp) : (s.withHostProgram prog).done = s.done := rfl
@[simp] theorem State.withHostProgram_ovr (prog : List PortOp) : (s.withHostProgram prog).ovr = s.ovr := rfl
@[simp] theorem State.withHostProgram_err (prog : List PortOp) : (s.withHostProgram prog).err = s.err := rfl
@[simp] theorem State.withHostProgram_lastOp (prog : List PortOp) : (s.withHostProgram prog).lastOp = s.lastOp := rfl
@[simp] theorem State.withHostProgram_inp (prog : List PortOp) : (s.withHostProgram prog).inp = s.inp := rfl
@[simp] theorem State.withHostProgram_tbl (prog : List PortOp) : (s.withHostProgram prog).tbl = s.tbl := rfl
@[simp] theorem State.withHostProgram_tre (prog : List PortOp) : (s.withHostProgram prog).tre = s.tre := rfl
@[simp] theorem State.withHostProgram_cb (prog : List PortOp) : (s.withHostProgram prog).cb = s.cb := rfl
@[simp] theorem State.withHostProgram_enc (prog : List PortOp) : (s.withHostProgram prog).enc = s.enc := rfl
@[simp] theorem State.withHostProgram_dec (prog : List PortOp) : (s.withHostProgram prog).dec = s.dec := rfl
@[simp] theorem State.withHostProgram_sts (prog : List PortOp) : (s.withHostProgram prog).sts = s.sts := rfl
@[simp] theorem State.withHostProgram_host (prog : List PortOp) : (s.withHostProgram prog).host = { prog := prog, pos := 0, temps := [] } := rfl
@[simp] theorem State.withHostProgram_env (prog : List PortOp) : (s.withHostProgram prog).env = s.env := rfl

/-! ### completeIllegal -/

@[simp] theorem State.completeIllegal_cfg : s.completeIllegal.cfg = s.cfg := rfl
@[simp] theorem State.completeIllegal_seq : s.completeIllegal.seq = .idle := rfl
@[simp] theorem State.completeIllegal_ie : s.completeIllegal.ie = s.ie := rfl
@[simp] theorem State.completeIllegal_done : s.completeIllegal.done = true := rfl
@[simp] theorem State.completeIllegal_ovr : s.completeIllegal.ovr = s.ovr := rfl
@[simp] theorem State.completeIllegal_err : s.completeIllegal.err = .illegalCmd := rfl
@[simp] theorem State.completeIllegal_lastOp : s.completeIllegal.lastOp = s.lastOp := rfl
@[simp] theorem State.completeIllegal_inp : s.completeIllegal.inp = s.inp := rfl
@[simp] theorem State.completeIllegal_tbl : s.completeIllegal.tbl = s.tbl := rfl
@[simp] theorem State.completeIllegal_tre : s.completeIllegal.tre = s.tre := rfl
@[simp] theorem State.completeIllegal_cb : s.completeIllegal.cb = s.cb := rfl
@[simp] theorem State.completeIllegal_enc : s.completeIllegal.enc = s.enc := rfl
@[simp] theorem State.completeIllegal_dec : s.completeIllegal.dec = s.dec := rfl
@[simp] theorem State.completeIllegal_sts : s.completeIllegal.sts = s.sts := rfl
@[simp] theorem State.completeIllegal_host : s.completeIllegal.host = s.host := rfl
@[simp] theorem State.completeIllegal_env : s.completeIllegal.env = s.env := rfl

/-! ### drawLatency -/

@[simp] theorem State.drawLatency_cfg : s.drawLatency.cfg = s.cfg := by
  unfold State.drawLatency; split <;> rfl
@[simp] theorem State.drawLatency_seq : s.drawLatency.seq = s.seq := by
  unfold State.drawLatency; split <;> rfl
@[simp] theorem State.drawLatency_ie : s.drawLatency.ie = s.ie := by
  unfold State.drawLatency; split <;> rfl
@[simp] theorem State.drawLatency_done : s.drawLatency.done = s.done := by
  unfold State.drawLatency; split <;> rfl
@[simp] theorem State.drawLatency_ovr : s.drawLatency.ovr = s.ovr := by
  unfold State.drawLatency; split <;> rfl
@[simp] theorem State.drawLatency_err : s.drawLatency.err = s.err := by
  unfold State.drawLatency; split <;> rfl
@[simp] theorem State.drawLatency_lastOp : s.drawLatency.lastOp = s.lastOp := by
  unfold State.drawLatency; split <;> rfl
@[simp] theorem State.drawLatency_inp : s.drawLatency.inp = s.inp := by
  unfold State.drawLatency; split <;> rfl
@[simp] theorem State.drawLatency_tbl : s.drawLatency.tbl = s.tbl := by
  unfold State.drawLatency; split <;> rfl
@[simp] theorem State.drawLatency_tre : s.drawLatency.tre = s.tre := by
  unfold State.drawLatency; split <;> rfl
@[simp] theorem State.drawLatency_cb : s.drawLatency.cb = s.cb := by
  unfold State.drawLatency; split <;> rfl
@[simp] theorem State.drawLatency_enc : s.drawLatency.enc = s.enc := by
  unfold State.drawLatency; split <;> rfl
@[simp] theorem State.drawLatency_dec : s.drawLatency.dec = s.dec := by
  unfold State.drawLatency; split <;> rfl
@[simp] theorem State.drawLatency_sts : s.drawLatency.sts = s.sts := by
  unfold State.drawLatency; split <;> rfl
@[simp] theorem State.drawLatency_host : s.drawLatency.host = s.host := by
  unfold State.drawLatency; split <;> rfl

/-! ### The computed views -/

@[simp] theorem State.isBusy_iff : s.isBusy = true ↔ ∃ w, s.seq = .busy w := by
  unfold State.isBusy; cases s.seq <;> simp

theorem State.isBusy_of_idle {s : State} (h : s.seq = .idle) : s.isBusy = false := by
  simp [State.isBusy, h]

theorem State.isBusy_of_busy {s : State} {w : Word} (h : s.seq = .busy w) : s.isBusy = true := by
  simp [State.isBusy, h]

end Sys2Proof.Machine
end

