-- ==== Sys2Proof/Laws/Memory.lean ====
section
/-! SUPPORT. The laws of the sparse memories, of the tables indexed by a symbol and of the packing. -/

namespace Sys2Proof.Machine

/-! ### Sparse memories -/

section
variable {w : Nat} (m : List (Nat × BitVec w)) (i j : Nat) (v : BitVec w)

@[simp] theorem Memory.find_nil : Memory.find ([] : List (Nat × BitVec w)) i = none := rfl

theorem Memory.find_cons (k : Nat) (x : BitVec w) :
    Memory.find ((k, x) :: m) i = if k = i then some x else Memory.find m i := rfl

/-- A read after a write to the same index gives the value written. -/
theorem Memory.find_put_same : Memory.find (Memory.put m i v) i = some v := by
  induction m with
  | nil => simp [Memory.put, Memory.find_cons]
  | cons c m ih =>
    obtain ⟨k, x⟩ := c
    unfold Memory.put
    split
    · simp [Memory.find_cons]
    · split
      · simp [Memory.find_cons]
      · rename_i h1 h2
        rw [Memory.find_cons, if_neg (by omega), ih]

/-- A write leaves every other index alone. -/
theorem Memory.find_put_other (h : j ≠ i) : Memory.find (Memory.put m i v) j = Memory.find m j := by
  induction m with
  | nil => simp [Memory.put, Memory.find_cons]; omega
  | cons c m ih =>
    obtain ⟨k, x⟩ := c
    unfold Memory.put
    split
    · simp only [Memory.find_cons]; rw [if_neg (by omega)]
    · split
      · rename_i h1 h2
        simp only [Memory.find_cons]; rw [if_neg (by omega), if_neg (by omega)]
      · simp only [Memory.find_cons, ih]

theorem Memory.find_put :
    Memory.find (Memory.put m i v) j = if j = i then some v else Memory.find m j := by
  split
  · rename_i h; rw [h, Memory.find_put_same]
  · rename_i h; rw [Memory.find_put_other m i j v h]

/-- Which indices a write lists: its own and those listed before. -/
theorem Memory.mem_put {c : Nat × BitVec w} (h : c ∈ Memory.put m i v) : c = (i, v) ∨ c ∈ m := by
  induction m with
  | nil => simpa [Memory.put] using h
  | cons d m ih =>
    obtain ⟨k, x⟩ := d
    unfold Memory.put at h
    split at h
    · simpa using h
    · split at h
      · simp at h; simp; tauto
      · simp at h; simp; tauto

/-- A write keeps the canonical form. -/
theorem Memory.wf_put (h : Memory.wf m) : Memory.wf (Memory.put m i v) := by
  induction m with
  | nil => simp [Memory.put, Memory.wf]
  | cons d m ih =>
    obtain ⟨k, x⟩ := d
    have hm : Memory.wf m := (List.pairwise_cons.1 h).2
    have hk := (List.pairwise_cons.1 h).1
    unfold Memory.put
    split
    · refine List.pairwise_cons.2 ⟨?_, h⟩
      intro a ha
      rcases List.mem_cons.1 ha with rfl | ha
      · assumption
      · have := hk a ha; simp at this ⊢; omega
    · split
      · rename_i h1 h2
        subst h2
        exact List.pairwise_cons.2 ⟨hk, hm⟩
      · refine List.pairwise_cons.2 ⟨?_, ih hm⟩
        intro a ha
        rcases Memory.mem_put m i v ha with rfl | ha
        · simp; omega
        · exact hk a ha

end

/-! ### Tables indexed by a symbol -/

section
variable {α β : Type}

@[simp] theorem SymTable.get_replicate (v : α) (x : Symbol) :
    SymTable.get (Vector.replicate 256 v) x = v := by
  simp [SymTable.get]

theorem SymTable.get_set (t : Vector α 256) (x y : Symbol) (v : α) :
    SymTable.get (SymTable.set t x v) y = if y = x then v else SymTable.get t y := by
  unfold SymTable.get SymTable.set
  rw [Vector.getElem_set]
  by_cases h : y = x
  · simp [h]
  · rw [if_neg h, if_neg (fun e => h (BitVec.eq_of_toNat_eq e.symm))]

@[simp] theorem SymTable.get_set_same (t : Vector α 256) (x : Symbol) (v : α) :
    SymTable.get (SymTable.set t x v) x = v := by simp [SymTable.get_set]

theorem SymTable.get_set_other (t : Vector α 256) {x y : Symbol} (v : α) (h : y ≠ x) :
    SymTable.get (SymTable.set t x v) y = SymTable.get t y := by simp [SymTable.get_set, h]

@[simp] theorem SymTable.get_map (f : α → β) (t : Vector α 256) (x : Symbol) :
    SymTable.get (SymTable.map f t) x = f (SymTable.get t x) := by
  simp [SymTable.get, SymTable.map]

/-- Two tables are equal when they agree at every symbol. -/
theorem SymTable.ext {t u : Vector α 256} (h : ∀ x, SymTable.get t x = SymTable.get u x) : t = u := by
  apply Vector.ext
  intro i hi
  have := h (BitVec.ofNat 8 i)
  simpa [SymTable.get, Nat.mod_eq_of_lt hi] using this

theorem SymTable.toList_map (f : α → β) (t : Vector α 256) : (SymTable.map f t).toList = t.toList.map f := rfl

/-- The sum over a table of a function of its elements, as a sum over the symbols. -/
theorem SymTable.sum_eq (f : α → Nat) (t : Vector α 256) :
    (t.toList.map f).sum = ∑ x : Fin 256, f (SymTable.get t (BitVec.ofFin x)) := by
  have : t.toList.map f = List.ofFn (fun x : Fin 256 => f (SymTable.get t (BitVec.ofFin x))) := by
    apply List.ext_getElem
    · rw [List.length_map, List.length_ofFn, Vector.length_toList]
    · intro i h1 h2
      rw [List.getElem_map, List.getElem_ofFn, Vector.getElem_toList]
      rfl
  rw [this, List.sum_ofFn]

/-- Replacing one element moves the sum by the change of its term. -/
theorem SymTable.sum_set (f : α → Nat) (t : Vector α 256) (x : Symbol) (v : α) :
    ((SymTable.set t x v).toList.map f).sum + f (SymTable.get t x) = (t.toList.map f).sum + f v := by
  rw [SymTable.sum_eq, SymTable.sum_eq]
  rw [← Finset.add_sum_erase _ _ (Finset.mem_univ x.toFin),
    ← Finset.add_sum_erase (a := x.toFin) _ (fun y => f (SymTable.get t (BitVec.ofFin y))) (Finset.mem_univ _)]
  have : ∑ y ∈ Finset.univ.erase x.toFin, f (SymTable.get (SymTable.set t x v) (BitVec.ofFin y)) =
      ∑ y ∈ Finset.univ.erase x.toFin, f (SymTable.get t (BitVec.ofFin y)) := by
    apply Finset.sum_congr rfl
    intro y hy
    rw [SymTable.get_set_other]
    intro e
    exact (Finset.mem_erase.1 hy).1 (by rw [← e])
  rw [this]
  simp
  omega

end

/-! ### Packing -/

theorem packNat_lt (f : Nat → Bool) (n : Nat) : packNat f n < 2 ^ n := by
  induction n with
  | zero => simp [packNat]
  | succ n ih => have := Bool.toNat_lt (f n); simp only [packNat, Nat.pow_succ]; omega

/-- Bit `n − 1 − t` of the packed number is `f t`. -/
theorem packNat_testBit (f : Nat → Bool) (n t : Nat) (h : t < n) :
    (packNat f n).testBit (n - 1 - t) = f t := by
  induction n with
  | zero => omega
  | succ n ih =>
    simp only [packNat]
    by_cases ht : t = n
    · subst ht
      have : t + 1 - 1 - t = 0 := by omega
      rw [this, Nat.testBit_zero]
      cases f t <;> simp [Nat.add_mod]
    · have e : n + 1 - 1 - t = (n - 1 - t) + 1 := by omega
      rw [e, Nat.testBit_succ]
      have : (2 * packNat f n + (f n).toNat) / 2 = packNat f n := by
        have := Bool.toNat_lt (f n); omega
      rw [this]
      exact ih (by omega)

/-- Word bit `31 − t` of a packed word is `f t` (R84). -/
theorem packWord_getLsbD (f : Nat → Bool) (t : Nat) (h : t < 32) : (packWord f).getLsbD (31 - t) = f t := by
  unfold packWord
  rw [BitVec.getLsbD_ofNat]
  have := packNat_testBit f 32 t h
  simp only [show 32 - 1 - t = 31 - t by omega] at this
  rw [this]
  simp
  omega

/-- Most significant first, bit `t` of a packed word is `f t` (R84). -/
theorem packWord_getMsbD (f : Nat → Bool) (t : Nat) (h : t < 32) : (packWord f).getMsbD t = f t := by
  rw [BitVec.getMsbD_eq_getLsbD]
  simp [h]
  exact packWord_getLsbD f t h

/-- A packed window word, bit by bit (R80, R82). -/
theorem packedWord_getLsbD (bits : Bits) (len j t : Nat) (h : t < 32) :
    (packedWord bits len j).getLsbD (31 - t) = (decide (32 * j + t < len) && bits.getD (32 * j + t) false) :=
  packWord_getLsbD _ t h

/-! ### The input buffers -/

section
variable (p : Inputs)

theorem Inputs.symAt_put (i k : Nat) (v : Symbol) :
    Inputs.symAt { p with symIn := Memory.put p.symIn i v } k = if k = i then v else p.symAt k := by
  unfold Inputs.symAt
  rw [Memory.find_put]
  by_cases h : k = i <;> simp [h]

theorem Inputs.bitWordAt_put (j k : Nat) (v : Word) :
    Inputs.bitWordAt { p with bitIn := Memory.put p.bitIn j v } k = if k = j then v else p.bitWordAt k := by
  unfold Inputs.bitWordAt
  rw [Memory.find_put]
  by_cases h : k = j <;> simp [h]

end

end Sys2Proof.Machine
end

