-- ==== Sys2Proof/Laws/Frequency.lean ====
section
/-! SUPPORT. What the pass of FREQ does (spec/40_frequency.md R120 to R122). -/

namespace Sys2Proof.Machine

/-- What the pass of FREQ has recorded of the symbols met so far. -/
structure Counting.Tracks (a : Counting) (syms : List Symbol) : Prop where
  counts : ∀ x, SymTable.get a.counts x = syms.count x
  keys : ∀ x, x ∈ a.order ↔ x ∈ syms
  distinct : a.order.Nodup
  first : ∀ x y, x ∈ a.order → y ∈ a.order →
    (a.order.idxOf x < a.order.idxOf y ↔ syms.idxOf x < syms.idxOf y)
  total : (a.counts.toList).sum = syms.length

theorem Counting.start_tracks : Counting.start.Tracks [] where
  counts := by simp [Counting.start]
  keys := by simp [Counting.start]
  distinct := by simp [Counting.start]
  first := by simp [Counting.start]
  total := by
    show (Vector.replicate 256 0).toList.sum = 0
    rw [Vector.toList_replicate, List.sum_replicate, smul_zero]

/-- One symbol more (R120). -/
theorem Counting.Tracks.count {a : Counting} {syms : List Symbol} (h : a.Tracks syms) (z : Symbol) :
    (a.count z).Tracks (syms ++ [z]) := by
  have hz : SymTable.get a.counts z = 0 ↔ z ∉ syms := by rw [h.counts, List.count_eq_zero]
  constructor
  · intro x
    simp only [Counting.count, SymTable.get_set, h.counts, List.count_append, List.count_singleton]
    by_cases hx : x = z
    · subst hx; simp
    · simp [hx, Ne.symm hx]
  · intro x
    simp only [Counting.count]
    split
    · simp [h.keys]
    · rename_i hn
      have : z ∈ syms := by by_contra hc; exact hn (hz.2 hc)
      rw [h.keys]
      simp only [List.mem_append, List.mem_singleton]
      constructor
      · exact .inl
      · rintro (hx | rfl)
        · exact hx
        · exact this
  · simp only [Counting.count]
    split
    · rename_i h0
      have : z ∉ a.order := fun hc => (hz.1 h0) ((h.keys z).1 hc)
      exact List.nodup_append.2 ⟨h.distinct, by simp, by
        intro x hx y hy e
        simp at hy
        exact this (by rw [← hy, ← e]; exact hx)⟩
    · exact h.distinct
  · intro x y hx hy
    simp only [Counting.count] at hx hy ⊢
    split at hx
    · rename_i h0
      rw [if_pos h0] at hy ⊢
      have hzs : z ∉ syms := hz.1 h0
      have hzo : z ∉ a.order := fun hc => hzs ((h.keys z).1 hc)
      have key : ∀ u, u ∈ a.order ++ [z] →
          (u ∈ a.order ∧ (a.order ++ [z]).idxOf u = a.order.idxOf u ∧ a.order.idxOf u < a.order.length ∧
            (syms ++ [z]).idxOf u = syms.idxOf u ∧ syms.idxOf u < syms.length) ∨
          (u = z ∧ (a.order ++ [z]).idxOf u = a.order.length ∧ (syms ++ [z]).idxOf u = syms.length) := by
        intro u hu
        rcases List.mem_append.1 hu with hu | hu
        · exact .inl ⟨hu, List.idxOf_append_of_mem hu, List.idxOf_lt_length_of_mem hu,
            List.idxOf_append_of_mem ((h.keys u).1 hu), List.idxOf_lt_length_of_mem ((h.keys u).1 hu)⟩
        · rw [List.mem_singleton] at hu
          subst hu
          exact .inr ⟨rfl, by rw [List.idxOf_append_of_notMem hzo]; simp,
            by rw [List.idxOf_append_of_notMem hzs]; simp⟩
      rcases key x hx with ⟨mx, ox, lx, sx, lsx⟩ | ⟨ex, ox, sx⟩ <;>
        rcases key y hy with ⟨my, oy, ly, sy, lsy⟩ | ⟨ey, oy, sy⟩
      · rw [ox, oy, sx, sy]; exact h.first x y mx my
      · rw [ox, oy, sx, sy]; omega
      · rw [ox, oy, sx, sy]; omega
      · rw [ox, oy, sx, sy]; omega
    · rename_i h0
      rw [if_neg h0] at hy ⊢
      rw [h.first x y hx hy, List.idxOf_append_of_mem ((h.keys x).1 hx),
        List.idxOf_append_of_mem ((h.keys y).1 hy)]
  · have := SymTable.sum_set id a.counts z (SymTable.get a.counts z + 1)
    simp only [List.map_id, id] at this
    have ht := h.total
    simp only [Counting.count, List.length_append, List.length_singleton]
    omega

/-- What the whole pass has recorded (R120 to R122). -/
theorem Counting.foldl_tracks (syms : List Symbol) :
    (syms.foldl Counting.count Counting.start).Tracks syms := by
  induction syms using List.reverseRecOn with
  | nil => exact Counting.start_tracks
  | append_singleton xs x ih => rw [List.foldl_append]; exact ih.count x

section
variable (syms : List Symbol)

/-- No list of distinct symbols is longer than the alphabet. -/
theorem Symbol.nodup_length_le {l : List Symbol} (h : l.Nodup) : l.length ≤ 256 := by
  have hn : (l.map BitVec.toFin).Nodup :=
    h.map (fun a b e => BitVec.eq_of_toFin_eq e)
  have := hn.length_le_card
  simpa using this

theorem buildFrequencyTable_keys (x : Symbol) : x ∈ (buildFrequencyTable syms).ftOrder ↔ x ∈ syms :=
  (Counting.foldl_tracks syms).keys x

theorem buildFrequencyTable_distinct : (buildFrequencyTable syms).ftOrder.Nodup :=
  (Counting.foldl_tracks syms).distinct

theorem buildFrequencyTable_first {x y : Symbol} (hx : x ∈ (buildFrequencyTable syms).ftOrder)
    (hy : y ∈ (buildFrequencyTable syms).ftOrder) :
    ((buildFrequencyTable syms).ftOrder.idxOf x < (buildFrequencyTable syms).ftOrder.idxOf y ↔
      syms.idxOf x < syms.idxOf y) :=
  (Counting.foldl_tracks syms).first x y hx hy

theorem buildFrequencyTable_ftN :
    (buildFrequencyTable syms).ftN.toNat = (buildFrequencyTable syms).ftOrder.length := by
  have := Symbol.nodup_length_le (buildFrequencyTable_distinct syms)
  simp only [buildFrequencyTable, BitVec.toNat_ofNat] at *
  omega

/-- The counts, when they fit their words (R6, R34). -/
theorem buildFrequencyTable_freq (h : syms.length < 2 ^ 32) (x : Symbol) :
    (SymTable.get (buildFrequencyTable syms).freq x).toNat = syms.count x := by
  simp only [buildFrequencyTable, SymTable.get_map, (Counting.foldl_tracks syms).counts,
    BitVec.toNat_ofNat]
  have := List.count_le_length (a := x) (l := syms)
  omega

theorem buildFrequencyTable_total (h : syms.length < 2 ^ 32) :
    (buildFrequencyTable syms).ftTotal.toNat = syms.length := by
  simp only [buildFrequencyTable, BitVec.toNat_ofNat]
  omega

theorem buildFrequencyTable_sum (h : syms.length < 2 ^ 32) :
    ((buildFrequencyTable syms).freq.toList.map BitVec.toNat).sum = syms.length := by
  rw [SymTable.sum_eq]
  simp only [buildFrequencyTable_freq syms h]
  have := (Counting.foldl_tracks syms).total
  have e := SymTable.sum_eq id (syms.foldl Counting.count Counting.start).counts
  simp only [List.map_id, id] at e
  rw [← this, e]
  exact Finset.sum_congr rfl (fun x _ => by rw [(Counting.foldl_tracks syms).counts])

/-- The table FREQ builds is consistent (R35, R122). -/
theorem buildFrequencyTable_ok (p : Params) (h : syms.length ≤ p.maxLen) :
    (buildFrequencyTable syms).Ok p := by
  have hlt : syms.length < 2 ^ 32 := by have := p.legal; omega
  constructor
  · exact buildFrequencyTable_ftN syms
  · exact buildFrequencyTable_distinct syms
  · intro x
    rw [buildFrequencyTable_keys, buildFrequencyTable_freq syms hlt, List.count_pos_iff]
  · rw [buildFrequencyTable_total syms hlt, buildFrequencyTable_sum syms hlt]
  · rw [buildFrequencyTable_total syms hlt]; exact h

end

@[simp] theorem State.symInput_length (s : State) : s.symInput.length = s.inp.symLen.toNat := by
  simp [State.symInput]

@[simp] theorem State.bitInput_length (s : State) : s.bitInput.length = s.inp.bitInLen.toNat := by
  simp [State.bitInput]

theorem State.symLenBad_iff (s : State) : s.symLenBad = true ↔ s.cfg.maxLen < s.inp.symLen.toNat := by
  simp [State.symLenBad]

theorem State.bitInLenBad_iff (s : State) : s.bitInLenBad = true ↔ s.cfg.maxBits < s.inp.bitInLen.toNat := by
  simp [State.bitInLenBad]

end Sys2Proof.Machine
end

