-- ==== Sys2Proof/Laws/Tree.lean ====
section
/-! SUPPORT. The priority queue and the merge loop of TREE (spec/41_tree.md R140 to R146). -/

namespace Sys2Proof.Machine

/-! ### The order and the queue (R142) -/

theorem queueBefore_iff (p q : Nat × Nat) : queueBefore p q = true ↔ p.1 < q.1 ∨ (p.1 = q.1 ∧ p.2 < q.2) := by
  simp [queueBefore]

theorem queueBefore_trans {p q r : Nat × Nat} (h : queueBefore p q = true) (h' : queueBefore q r = true) :
    queueBefore p r = true := by
  rw [queueBefore_iff] at *; omega

theorem queueBefore_total {p q : Nat × Nat} (h : p.2 ≠ q.2) (h' : ¬ queueBefore p q = true) :
    queueBefore q p = true := by
  rw [queueBefore_iff] at *; omega

/-- A queue with its least pair first. -/
abbrev Queue.Sorted (q : Queue) : Prop := q.Pairwise (fun x y => queueBefore x y = true)

theorem Queue.insert_perm (p : Nat × Nat) (q : Queue) : (Queue.insert p q).Perm (p :: q) := by
  induction q with
  | nil => exact List.Perm.refl _
  | cons x q ih =>
    unfold Queue.insert
    split
    · exact List.Perm.refl _
    · exact (List.Perm.cons x ih).trans (List.Perm.swap p x q)

theorem Queue.insert_sorted {p : Nat × Nat} {q : Queue} (h : q.Sorted) (hp : p.2 ∉ q.map Prod.snd) :
    (Queue.insert p q).Sorted := by
  induction q with
  | nil => simp [Queue.insert, Queue.Sorted]
  | cons x q ih =>
    have hx := List.pairwise_cons.1 h
    simp only [List.map_cons, List.mem_cons, not_or] at hp
    unfold Queue.insert
    split
    · rename_i hb
      refine List.pairwise_cons.2 ⟨?_, h⟩
      intro y hy
      rcases List.mem_cons.1 hy with rfl | hy
      · exact hb
      · exact queueBefore_trans hb (hx.1 y hy)
    · rename_i hb
      refine List.pairwise_cons.2 ⟨?_, ih hx.2 hp.2⟩
      intro y hy
      rcases List.mem_cons.1 ((Queue.insert_perm p q).mem_iff.1 hy) with rfl | hy
      · exact queueBefore_total hp.1 hb
      · exact hx.1 y hy

@[simp] theorem Queue.insert_length (p : Nat × Nat) (q : Queue) : (Queue.insert p q).length = q.length + 1 := by
  have := (Queue.insert_perm p q).length_eq; simpa using this

/-! ### Arenas -/

@[simp] theorem childrenOf_append (xs ys : List NodeRec) : childrenOf (xs ++ ys) = childrenOf xs ++ childrenOf ys := by
  simp [childrenOf]

theorem childrenOf_leaves {xs : List NodeRec} (h : ∀ r ∈ xs, r.isLeaf = true) : childrenOf xs = [] := by
  simp only [childrenOf, List.flatMap_eq_nil_iff]
  intro r hr; simp [h r hr]

theorem queuePair_of_getElem? {nodes : List NodeRec} {i : Nat} {r : NodeRec} (h : nodes[i]? = some r) :
    queuePair nodes i = (r.freq.toNat, i) := by
  simp [queuePair, h]

theorem queuePair_append {xs ys : List NodeRec} {i : Nat} (h : i < xs.length) :
    queuePair (xs ++ ys) i = queuePair xs i := by
  simp [queuePair, List.getElem?_append_left h]

/-- What an internal node merged stays what it merged when the arena grows. -/
theorem MergesTwoLeast.append {xs ys : List NodeRec} {k : Nat} {r : NodeRec} (h : MergesTwoLeast xs k r)
    (hk : k ≤ xs.length) (hl : r.left.toNat < k) (hr : r.right.toNat < k) : MergesTwoLeast (xs ++ ys) k r := by
  obtain ⟨h1, h2, h3, h4⟩ := h
  have ht : (xs ++ ys).take k = xs.take k := by rw [List.take_append_of_le_length hk]
  refine ⟨?_, ?_, ?_, ?_⟩
  · rwa [queuePair_append (by omega), queuePair_append (by omega)]
  · rwa [ht]
  · rwa [ht]
  · intro j hj hc h5 h6
    rw [ht] at hc
    rw [queuePair_append (by omega), queuePair_append (by omega)]
    exact h4 j hj hc h5 h6

/-! ### The leaves' queue (R141) -/

/-- The queue of the leaves from index `i` on, over the queue so far. -/
theorem enqueueLeaves_spec (rs : List NodeRec) (i : Nat) (q : Queue) (hs : q.Sorted)
    (hq : ∀ p ∈ q, p.2 < i) :
    (enqueueLeaves i rs q).Sorted ∧
    (enqueueLeaves i rs q).Perm (q ++ rs.mapIdx (fun k r => (r.freq.toNat, i + k))) := by
  induction rs generalizing i q with
  | nil => simp [enqueueLeaves, hs]
  | cons r rs ih =>
    have hm : i ∉ q.map Prod.snd := by
      intro hc
      obtain ⟨p, hp, e⟩ := List.mem_map.1 hc
      have := hq p hp; omega
    have hs' : (Queue.insert (r.freq.toNat, i) q).Sorted := Queue.insert_sorted hs hm
    have hq' : ∀ p ∈ Queue.insert (r.freq.toNat, i) q, p.2 < i + 1 := by
      intro p hp
      rcases List.mem_cons.1 ((Queue.insert_perm _ q).mem_iff.1 hp) with rfl | hp
      · simp
      · have := hq p hp; omega
    obtain ⟨h1, h2⟩ := ih (i + 1) (Queue.insert (r.freq.toNat, i) q) hs' hq'
    refine ⟨h1, h2.trans ?_⟩
    rw [List.mapIdx_cons]
    have e : (fun (k : Nat) (r : NodeRec) => (r.freq.toNat, i + 1 + k)) =
        (fun (k : Nat) (r : NodeRec) => (r.freq.toNat, i + (k + 1))) := by
      funext k r; congr 1; omega
    rw [e]
    exact ((Queue.insert_perm _ q).append_right _).trans List.perm_middle.symm

/-! ### The merge loop (R140) -/

/-- The arena and the queue between two merges, over `n` leaves `leaves` with frequencies that add up to
`total`, with `todo` merges to come. -/
structure Merging (leaves : List NodeRec) (total todo : Nat) (q : Queue) (arena : List NodeRec) : Prop where
  sorted : q.Sorted
  qlen : q.length = todo + 1
  size : arena.length + todo = 2 * leaves.length - 1
  base : ∀ i, i < leaves.length → arena[i]? = leaves[i]?
  exact : ∀ p ∈ q, ∃ r, arena[p.2]? = some r ∧ r.freq.toNat = p.1
  cover : (q.map Prod.snd ++ childrenOf arena).Perm (List.range arena.length)
  sum : (q.map Prod.fst).sum = total
  inner : ∀ i r, leaves.length ≤ i → arena[i]? = some r →
    r.isLeaf = false ∧ r.sym = 0#8 ∧ r.left.toNat < i ∧ r.right.toNat < i
  sums : ∀ i r a b, leaves.length ≤ i → arena[i]? = some r → arena[r.left.toNat]? = some a →
    arena[r.right.toNat]? = some b → r.freq.toNat = a.freq.toNat + b.freq.toNat
  least : ∀ i r, leaves.length ≤ i → arena[i]? = some r → MergesTwoLeast arena i r

section
variable {leaves : List NodeRec} {total todo : Nat} {q : Queue} {arena : List NodeRec}

theorem mergeLoop_step (n : Nat) (p1 p2 : Nat × Nat) (q : Queue) (arena : List NodeRec) :
    mergeLoop (n + 1) (p1 :: p2 :: q) arena =
      mergeLoop n (Queue.insert (p1.1 + p2.1, arena.length) q) (arena ++ [internalOf (p1.1 + p2.1) p1.2 p2.2]) := rfl

/-- One merge (R140): the two least pairs leave the queue, their sum enters it. -/
theorem Merging.merge {p1 p2 : Nat × Nat} {q : Queue}
    (h : Merging leaves total (todo + 1) (p1 :: p2 :: q) arena) (hn : leaves.length ≤ 256)
    (ht : total < 2 ^ 32) :
    Merging leaves total todo (Queue.insert (p1.1 + p2.1, arena.length) q)
      (arena ++ [internalOf (p1.1 + p2.1) p1.2 p2.2]) := by
  obtain ⟨r1, ha1, hf1⟩ := h.exact p1 (by simp)
  obtain ⟨r2, ha2, hf2⟩ := h.exact p2 (by simp)
  have hsize := h.size
  have hbase : leaves.length ≤ arena.length := by
    have hb := h.base (leaves.length - 1) (by omega)
    rw [List.getElem?_eq_getElem (by omega : leaves.length - 1 < leaves.length)] at hb
    have := (List.getElem?_eq_some_iff.1 hb).1
    omega
  have hlt1 : p1.2 < arena.length := (List.getElem?_eq_some_iff.1 ha1).1
  have hlt2 : p2.2 < arena.length := (List.getElem?_eq_some_iff.1 ha2).1
  have hle : arena.length < 512 := by omega
  have hl : (internalOf (p1.1 + p2.1) p1.2 p2.2).left.toNat = p1.2 := by
    simp only [internalOf, BitVec.toNat_ofNat]; omega
  have hr : (internalOf (p1.1 + p2.1) p1.2 p2.2).right.toNat = p2.2 := by
    simp only [internalOf, BitVec.toNat_ofNat]; omega
  have hsum : p1.1 + p2.1 + (q.map Prod.fst).sum = total := by
    have := h.sum; simp only [List.map_cons, List.sum_cons] at this; omega
  have hf : (internalOf (p1.1 + p2.1) p1.2 p2.2).freq.toNat = p1.1 + p2.1 := by
    simp only [internalOf, BitVec.toNat_ofNat]; omega
  have hcn : ((p1 :: p2 :: q).map Prod.snd ++ childrenOf arena).Nodup :=
    h.cover.nodup_iff.2 List.nodup_range
  simp only [List.map_cons, List.cons_append, List.nodup_cons, List.mem_cons, List.mem_append, not_or] at hcn
  obtain ⟨⟨h12, h1q, h1c⟩, ⟨h2q, h2c⟩, hrest⟩ := hcn
  have hsort := List.pairwise_cons.1 h.sorted
  have hsort2 := List.pairwise_cons.1 hsort.2
  have hnew : (arena ++ [internalOf (p1.1 + p2.1) p1.2 p2.2])[arena.length]? =
      some (internalOf (p1.1 + p2.1) p1.2 p2.2) := by simp
  have hold : ∀ {i r}, (arena ++ [internalOf (p1.1 + p2.1) p1.2 p2.2])[i]? = some r →
      (i < arena.length ∧ arena[i]? = some r) ∨ (i = arena.length ∧ r = internalOf (p1.1 + p2.1) p1.2 p2.2) := by
    intro i r hi
    rcases Nat.lt_trichotomy i arena.length with hlt | heq | hgt
    · left; exact ⟨hlt, by rwa [List.getElem?_append_left hlt] at hi⟩
    · right; subst heq; rw [hnew] at hi; exact ⟨rfl, (Option.some.inj hi).symm⟩
    · rw [List.getElem?_eq_none (by simp; omega)] at hi; cases hi
  have keep : ∀ {i}, i < arena.length → (arena ++ [internalOf (p1.1 + p2.1) p1.2 p2.2])[i]? = arena[i]? :=
    fun hlt => List.getElem?_append_left hlt
  have hq2 : ∀ p ∈ q, p.2 < arena.length := by
    intro p hp
    obtain ⟨r, hr, _⟩ := h.exact p (by simp [hp])
    exact (List.getElem?_eq_some_iff.1 hr).1
  constructor
  · apply Queue.insert_sorted hsort2.2
    intro hc
    obtain ⟨p, hp, e⟩ := List.mem_map.1 hc
    have := hq2 p hp; simp at e; omega
  · have := h.qlen; simp only [List.length_cons] at this
    rw [Queue.insert_length]; omega
  · simp only [List.length_append, List.length_singleton]; omega
  · intro i hi
    rw [keep (by omega)]; exact h.base i hi
  · intro p hp
    rcases List.mem_cons.1 ((Queue.insert_perm _ q).mem_iff.1 hp) with rfl | hp
    · exact ⟨_, hnew, hf⟩
    · obtain ⟨r, hr, e⟩ := h.exact p (by simp [hp])
      exact ⟨r, by rw [keep (hq2 p hp)]; exact hr, e⟩
  · rw [childrenOf_append]
    have e : childrenOf [internalOf (p1.1 + p2.1) p1.2 p2.2] = [p1.2, p2.2] := by
      simp only [childrenOf, List.flatMap_cons, List.flatMap_nil, hl, hr]; simp [internalOf]
    rw [e, List.length_append, List.length_singleton, List.range_succ]
    have hp := (Queue.insert_perm (p1.1 + p2.1, arena.length) q).map Prod.snd
    refine (hp.append_right _).trans ?_
    have hc := h.cover
    simp only [List.map_cons, List.cons_append] at hc ⊢
    refine List.Perm.trans ?_ ((hc.append_right [arena.length]))
    rw [List.perm_iff_count]
    intro x
    simp only [List.count_cons, List.count_append, List.count_nil]
    omega
  · have hp := ((Queue.insert_perm (p1.1 + p2.1, arena.length) q).map Prod.fst).sum_eq
    rw [hp]; simp only [List.map_cons, List.sum_cons]; exact hsum
  · intro i r hi hr'
    rcases hold hr' with ⟨_, hr'⟩ | ⟨rfl, rfl⟩
    · exact h.inner i r hi hr'
    · rw [hl, hr]; exact ⟨rfl, rfl, hlt1, hlt2⟩
  · intro i r a b hi hr' ha hb
    rcases hold hr' with ⟨hlt, hr'⟩ | ⟨rfl, rfl⟩
    · have hin := h.inner i r hi hr'
      rw [keep (by omega)] at ha hb
      exact h.sums i r a b hi hr' ha hb
    · rw [hl, keep hlt1, ha1] at ha
      rw [hr, keep hlt2, ha2] at hb
      cases ha; cases hb
      rw [hf, hf1, hf2]
  · intro i r hi hr'
    rcases hold hr' with ⟨hlt, hr'⟩ | ⟨rfl, rfl⟩
    · have hin := h.inner i r hi hr'
      exact (h.least i r hi hr').append hlt.le hin.2.2.1 hin.2.2.2
    · have ht : (arena ++ [internalOf (p1.1 + p2.1) p1.2 p2.2]).take arena.length = arena := by simp
      have pair : ∀ p ∈ p1 :: p2 :: q,
          queuePair (arena ++ [internalOf (p1.1 + p2.1) p1.2 p2.2]) p.2 = p := by
        intro p hp
        obtain ⟨r, hr, e⟩ := h.exact p hp
        rw [queuePair_append (List.getElem?_eq_some_iff.1 hr).1, queuePair_of_getElem? hr, e]
      unfold MergesTwoLeast
      rw [hl, hr, ht, pair p1 (by simp), pair p2 (by simp)]
      refine ⟨hsort.1 p2 (by simp), h1c, h2c, ?_⟩
      intro j hj hjc hj1 hj2
      have hjm : j ∈ (p1 :: p2 :: q).map Prod.snd ++ childrenOf arena :=
        h.cover.mem_iff.2 (List.mem_range.2 hj)
      simp only [List.map_cons, List.cons_append, List.mem_cons, List.mem_append] at hjm
      rcases hjm with e | e | e | e
      · exact absurd e hj1
      · exact absurd e hj2
      · obtain ⟨p, hp, rfl⟩ := List.mem_map.1 e
        rw [pair p (by simp [hp])]
        exact hsort2.1 p hp
      · exact absurd e hjc

/-- All merges (R140): the loop ends with one pair in the queue. -/
theorem Merging.finish (h : Merging leaves total todo q arena) (hn : leaves.length ≤ 256) (ht : total < 2 ^ 32) :
    ∃ p, Merging leaves total 0 [p] (mergeLoop todo q arena) := by
  induction todo generalizing q arena with
  | zero =>
    have := h.qlen
    match q, this with
    | [p], _ => exact ⟨p, h⟩
  | succ n ih =>
    have := h.qlen
    match q, this with
    | p1 :: p2 :: q, _ =>
      rw [mergeLoop_step]
      exact ih (h.merge hn ht)

/-- The arena and the queue before the first merge (R140, R141). -/
theorem Merging.start (hn : 1 ≤ leaves.length) (hl : ∀ r ∈ leaves, r.isLeaf = true) :
    Merging leaves (leaves.map (fun r => r.freq.toNat)).sum (leaves.length - 1)
      (enqueueLeaves 0 leaves []) leaves := by
  obtain ⟨hs, hp⟩ := enqueueLeaves_spec leaves 0 [] List.Pairwise.nil (by simp)
  simp only [List.nil_append, Nat.zero_add] at hp
  have hidx : ∀ p ∈ enqueueLeaves 0 leaves [], ∃ r, leaves[p.2]? = some r ∧ r.freq.toNat = p.1 := by
    intro p hp'
    obtain ⟨i, hi, e⟩ := List.mem_mapIdx.1 (hp.mem_iff.1 hp')
    subst e
    exact ⟨leaves[i], by simp [hi], rfl⟩
  constructor
  · exact hs
  · rw [hp.length_eq]; simp; omega
  · omega
  · exact fun i _ => rfl
  · exact hidx
  · rw [childrenOf_leaves hl, List.append_nil]
    refine (hp.map Prod.snd).trans ?_
    rw [show (leaves.mapIdx (fun k r => (r.freq.toNat, k))).map Prod.snd = List.range leaves.length from ?_]
    apply List.ext_getElem <;> simp
  · rw [(hp.map Prod.fst).sum_eq]
    congr 1
    apply List.ext_getElem <;> simp
  · intro i r hi hr
    rw [List.getElem?_eq_none hi] at hr; cases hr
  · intro i r a b hi hr
    rw [List.getElem?_eq_none hi] at hr; cases hr
  · intro i r hi hr
    rw [List.getElem?_eq_none hi] at hr; cases hr

/-- The finished arena: its last node is the root, and its children are all the other nodes. -/
theorem Merging.root {p : Nat × Nat} (h : Merging leaves total 0 [p] arena) (hn : 2 ≤ leaves.length)
    (hl : ∀ r ∈ leaves, r.isLeaf = true) :
    p.2 = 2 * leaves.length - 2 ∧ p.1 = total ∧ (childrenOf arena).Perm (List.range (2 * leaves.length - 2)) := by
  have hsize : arena.length = 2 * leaves.length - 1 := by have := h.size; omega
  have hc := h.cover
  simp only [List.map_cons, List.map_nil, List.cons_append, List.nil_append] at hc
  have hlast : 2 * leaves.length - 2 ∉ childrenOf arena := by
    intro hm
    simp only [childrenOf, List.mem_flatMap] at hm
    obtain ⟨r, hr, hm⟩ := hm
    obtain ⟨i, hi, e⟩ := List.getElem_of_mem hr
    by_cases hil : i < leaves.length
    · have hb := h.base i hil
      rw [List.getElem?_eq_getElem hi, List.getElem?_eq_getElem hil] at hb
      have : r.isLeaf = true := by rw [← e, Option.some.inj hb]; exact hl _ (List.getElem_mem hil)
      simp [this] at hm
    · have hin := h.inner i r (by omega) (by rw [List.getElem?_eq_getElem hi, e])
      simp only [hin.1, Bool.false_eq_true, if_false, List.mem_cons, List.not_mem_nil, or_false] at hm
      omega
  have hp : p.2 = 2 * leaves.length - 2 := by
    have : 2 * leaves.length - 2 ∈ p.2 :: childrenOf arena := by
      rw [hc.mem_iff, List.mem_range]; omega
    rcases List.mem_cons.1 this with e | e
    · exact e.symm
    · exact absurd e hlast
  refine ⟨hp, ?_, ?_⟩
  · have := h.sum; simpa using this
  · rw [hsize, hp, show 2 * leaves.length - 1 = (2 * leaves.length - 2) + 1 by omega, List.range_succ] at hc
    exact (List.perm_cons _).1 (hc.trans (List.perm_append_singleton _ _))

/-- The finished arena is a full binary tree over the leaves (R146). -/
theorem Merging.fullTree {p : Nat × Nat} (h : Merging leaves total 0 [p] arena) (hn : 2 ≤ leaves.length)
    (hn' : leaves.length ≤ 256) (hl : ∀ r ∈ leaves, r.isLeaf = true ∧ r.left = 0#9 ∧ r.right = 0#9)
    (hs : (leaves.map NodeRec.sym).Nodup) : FullTree leaves.length arena where
  atLeast := hn
  atMost := hn'
  size := by have := h.size; omega
  leaf := by
    intro i r hi hr
    rw [h.base i hi] at hr
    obtain ⟨hi', e⟩ := List.getElem?_eq_some_iff.1 hr
    rw [← e]; exact hl _ (List.getElem_mem hi')
  inner := h.inner
  sums := h.sums
  parents := (h.root hn (fun r hr => (hl r hr).1)).2.2
  symbols := by
    have : arena.take leaves.length = leaves := by
      apply List.ext_getElem?
      intro i
      rw [List.getElem?_take]
      split
      · rename_i hi; exact h.base i hi
      · rename_i hi; rw [List.getElem?_eq_none (by omega)]
    rw [this]; exact hs

end

/-! ### The tree of a table -/

section
variable (freq : Vector Word 256) (keys : List Symbol)

theorem leafOf_facts (x : Symbol) :
    (leafOf freq x).isLeaf = true ∧ (leafOf freq x).left = 0#9 ∧ (leafOf freq x).right = 0#9 ∧
      (leafOf freq x).sym = x := ⟨rfl, rfl, rfl, rfl⟩

@[simp] theorem huffman_nil : huffman freq [] = HuffTree.absent := rfl

@[simp] theorem huffman_single (x : Symbol) :
    huffman freq [x] = { node := [leafOf freq x], nodeCount := 1#32, root := 0#9, shape := .single } := rfl

/-- Two keys or more: the general state, over the arena of the merge loop. -/
theorem huffman_general (h : 2 ≤ keys.length) :
    huffman freq keys =
      { node := mergeLoop (keys.length - 1) (enqueueLeaves 0 (keys.map (leafOf freq)) []) (keys.map (leafOf freq))
        nodeCount := BitVec.ofNat 32 (2 * keys.length - 1)
        root := BitVec.ofNat 9 (2 * keys.length - 2)
        shape := .general } := by
  match keys, h with
  | x :: y :: rest, _ => simp [huffman]

/-- The finished merge over distinct keys. -/
theorem huffman_merging (h : 2 ≤ keys.length) (hd : keys.Nodup)
    (ht : (keys.map (fun x => (SymTable.get freq x).toNat)).sum < 2 ^ 32) :
    ∃ p, Merging (keys.map (leafOf freq)) (keys.map (fun x => (SymTable.get freq x).toNat)).sum 0 [p]
      (huffman freq keys).node := by
  have hl : ∀ r ∈ keys.map (leafOf freq), r.isLeaf = true := by
    intro r hr; obtain ⟨x, _, rfl⟩ := List.mem_map.1 hr; rfl
  have h0 := Merging.start (leaves := keys.map (leafOf freq)) (by simp; omega) hl
  rw [List.map_map] at h0
  have hn : (keys.map (leafOf freq)).length ≤ 256 := by
    rw [List.length_map]; exact Symbol.nodup_length_le hd
  obtain ⟨p, hp⟩ := h0.finish hn ht
  refine ⟨p, ?_⟩
  rw [huffman_general freq keys h]
  rw [List.length_map] at hp
  exact hp

/-- The tree over distinct keys whose counts do not overflow is one of the three shapes of R37. -/
theorem huffman_fullTree (h : 2 ≤ keys.length) (hd : keys.Nodup)
    (ht : (keys.map (fun x => (SymTable.get freq x).toNat)).sum < 2 ^ 32) :
    FullTree keys.length (huffman freq keys).node := by
  obtain ⟨p, hp⟩ := huffman_merging freq keys h hd ht
  have := hp.fullTree (by simpa using h) (by rw [List.length_map]; exact Symbol.nodup_length_le hd)
    (by intro r hr; obtain ⟨x, _, rfl⟩ := List.mem_map.1 hr; exact ⟨rfl, rfl, rfl⟩)
    (by rw [List.map_map, show NodeRec.sym ∘ leafOf freq = id from rfl, List.map_id]; exact hd)
  rwa [List.length_map] at this

theorem huffman_ok (hd : keys.Nodup) (ht : (keys.map (fun x => (SymTable.get freq x).toNat)).sum < 2 ^ 32) :
    (huffman freq keys).Ok := by
  have hlen := Symbol.nodup_length_le hd
  match keys, hd, ht, hlen with
  | [], _, _, _ => simp [HuffTree.Ok, HuffTree.absent]
  | [x], _, _, _ =>
    rw [huffman_single]
    exact ⟨⟨x, _, rfl⟩, rfl, rfl⟩
  | x :: y :: rest, hd, ht, hlen =>
    have hf := huffman_fullTree freq (x :: y :: rest) (by simp) hd ht
    have hg := huffman_general freq (x :: y :: rest) (by simp)
    unfold HuffTree.Ok
    rw [show (huffman freq (x :: y :: rest)).shape = .general by rw [hg]]
    refine ⟨_, hf, ?_, ?_⟩
    · rw [hg]; simp only [BitVec.toNat_ofNat]; simp only [List.length_cons] at *; omega
    · rw [hg]; simp only [BitVec.toNat_ofNat]; simp only [List.length_cons] at *; omega

end

/-! ### buildTree -/

theorem firstOf_ok {α : Type} {sp : Space} {n : Nat} {xs : List α} (h : n = xs.length) :
    firstOf sp n xs = .ok xs := by
  subst h; simp [firstOf]

/-- The counts of the keys of a consistent table add up to FT_TOTAL. -/
theorem FreqTable.Ok.sum_keys {p : Params} {t : FreqTable} (h : t.Ok p) :
    (t.ftOrder.map (fun x => (SymTable.get t.freq x).toNat)).sum = t.ftTotal.toNat := by
  rw [h.total, SymTable.sum_eq]
  have hd : (t.ftOrder.map BitVec.toFin).Nodup := h.distinct.map (fun a b e => BitVec.eq_of_toFin_eq e)
  rw [show (t.ftOrder.map (fun x => (SymTable.get t.freq x).toNat)) =
      (t.ftOrder.map BitVec.toFin).map (fun x => (SymTable.get t.freq (BitVec.ofFin x)).toNat) by
    rw [List.map_map]; rfl]
  rw [← List.sum_toFinset _ hd]
  apply Finset.sum_subset (Finset.subset_univ _)
  intro x _ hx
  have : BitVec.ofFin x ∉ t.ftOrder := by
    intro hc; exact hx (List.mem_toFinset.2 (List.mem_map.2 ⟨_, hc, rfl⟩))
  rw [h.keys] at this
  omega

/-- From a consistent table TREE's body completes with the tree over its keys. -/
theorem buildTree_ok {p : Params} {t : FreqTable} (h : t.Ok p) :
    buildTree t = .ok (huffman t.freq t.ftOrder) := by
  unfold buildTree
  rw [firstOf_ok h.size]

theorem FreqTable.Ok.sum_lt {p : Params} {t : FreqTable} (h : t.Ok p) :
    (t.ftOrder.map (fun x => (SymTable.get t.freq x).toNat)).sum < 2 ^ 32 := by
  rw [h.sum_keys]; exact t.ftTotal.isLt

theorem buildTree_tree_ok {p : Params} {t : FreqTable} (h : t.Ok p) : (huffman t.freq t.ftOrder).Ok :=
  huffman_ok t.freq t.ftOrder h.distinct h.sum_lt

end Sys2Proof.Machine
end

