-- ==== Sys2Proof/Laws/Codes.lean ====
section
/-! SUPPORT. Paths in an arena, the traversal of CODES and the walk of DECODE (spec/42_codebook.md R160 to R163,
spec/43_codec.md R190 to R195). -/

namespace Sys2Proof.Machine

/-- The child a bit leads to: 0 left, 1 right. -/
def childOf (r : NodeRec) (b : Bool) : Nat := if b then r.right.toNat else r.left.toNat

theorem nodeAt_some {nodes : List NodeRec} {i : Nat} {r : NodeRec} (h : nodes[i]? = some r) :
    nodeAt nodes i = .ok r := by
  simp [nodeAt, h]

/-! ### descend -/

section
variable {nodes : List NodeRec}

theorem descend_nil {n m : Nat} : descend nodes n [] = some m ↔ m = n ∧ n < nodes.length := by
  simp only [descend]
  split
  · simp_all [eq_comm]
  · simp; omega

theorem descend_cons_inner {n : Nat} {r : NodeRec} (h : nodes[n]? = some r) (hl : r.isLeaf = false) (b : Bool)
    (p : Bits) : descend nodes n (b :: p) = descend nodes (childOf r b) p := by
  simp [descend, h, hl, childOf]

theorem descend_cons_leaf {n : Nat} {r : NodeRec} (h : nodes[n]? = some r) (hl : r.isLeaf = true) (b : Bool)
    (p : Bits) : descend nodes n (b :: p) = none := by
  simp [descend, h, hl]

theorem descend_cons {n m : Nat} {b : Bool} {p : Bits} (h : descend nodes n (b :: p) = some m) :
    ∃ r, nodes[n]? = some r ∧ r.isLeaf = false ∧ descend nodes (childOf r b) p = some m := by
  unfold descend at h
  split at h
  · cases h
  · rename_i r hr
    split at h
    · cases h
    · rename_i hl; exact ⟨r, hr, by simpa using hl, h⟩

theorem descend_lt {n m : Nat} {p : Bits} (h : descend nodes n p = some m) : m < nodes.length := by
  induction p generalizing n with
  | nil => have := descend_nil.1 h; omega
  | cons b p ih => obtain ⟨r, _, _, h⟩ := descend_cons h; exact ih h

theorem descend_append {n : Nat} {p q : Bits} {k : Nat} (h : descend nodes n p = some k) :
    descend nodes n (p ++ q) = descend nodes k q := by
  induction p generalizing n with
  | nil => rw [(descend_nil.1 h).1]; rfl
  | cons b p ih =>
    obtain ⟨r, hr, hl, h⟩ := descend_cons h
    rw [List.cons_append, descend_cons_inner hr hl]
    exact ih h

theorem descend_split {n m : Nat} {p q : Bits} (h : descend nodes n (p ++ q) = some m) :
    ∃ k, descend nodes n p = some k ∧ descend nodes k q = some m := by
  induction p generalizing n with
  | nil =>
    refine ⟨n, descend_nil.2 ⟨rfl, ?_⟩, h⟩
    cases q with
    | nil => exact (descend_nil.1 h).2
    | cons b q => obtain ⟨r, hr, _⟩ := descend_cons h; exact (List.getElem?_eq_some_iff.1 hr).1
  | cons b p ih =>
    obtain ⟨r, hr, hl, h⟩ := descend_cons h
    obtain ⟨k, h1, h2⟩ := ih h
    exact ⟨k, by rw [descend_cons_inner hr hl]; exact h1, h2⟩

/-- A code from an internal node begins with a bit, and goes on from the child. -/
theorem IsCode.cons_iff {n : Nat} {r : NodeRec} (hr : nodes[n]? = some r) (hl : r.isLeaf = false) {x : Symbol}
    {p : Bits} : IsCode nodes n x p ↔ ∃ b q, p = b :: q ∧ IsCode nodes (childOf r b) x q := by
  constructor
  · rintro ⟨l, rl, h, hrl, hleaf, hx⟩
    cases p with
    | nil =>
      have := (descend_nil.1 h).1
      subst this; rw [hr] at hrl; cases hrl; simp [hl] at hleaf
    | cons b q => exact ⟨b, q, rfl, l, rl, by rwa [descend_cons_inner hr hl] at h, hrl, hleaf, hx⟩
  · rintro ⟨b, q, rfl, l, rl, h, hrl, hleaf, hx⟩
    exact ⟨l, rl, by rw [descend_cons_inner hr hl]; exact h, hrl, hleaf, hx⟩

/-- A code from a leaf is empty and names the leaf's symbol. -/
theorem IsCode.leaf_iff {n : Nat} {r : NodeRec} (hr : nodes[n]? = some r) (hl : r.isLeaf = true) {x : Symbol}
    {p : Bits} : IsCode nodes n x p ↔ p = [] ∧ x = r.sym := by
  constructor
  · rintro ⟨l, rl, h, hrl, _, hx⟩
    cases p with
    | nil =>
      have := (descend_nil.1 h).1
      subst this; rw [hr] at hrl; cases hrl; exact ⟨rfl, hx.symm⟩
    | cons b q => rw [descend_cons_leaf hr hl] at h; cases h
  · rintro ⟨rfl, rfl⟩
    exact ⟨n, r, descend_nil.2 ⟨rfl, (List.getElem?_eq_some_iff.1 hr).1⟩, hr, hl, rfl⟩

theorem IsPartialCode.cons {n : Nat} {r : NodeRec} (hr : nodes[n]? = some r) (hl : r.isLeaf = false) {b : Bool}
    {p : Bits} (h : IsPartialCode nodes (childOf r b) p) : IsPartialCode nodes n (b :: p) := by
  obtain ⟨l, rl, h, h1, h2⟩ := h
  exact ⟨l, rl, by rw [descend_cons_inner hr hl]; exact h, h1, h2⟩

end

/-! ### The full binary tree: parents, reachability, unique paths, depth (R37, R146) -/

namespace FullTree

variable {n : Nat} {nodes : List NodeRec}

theorem get (h : FullTree n nodes) {i : Nat} (hi : i < 2 * n - 1) : ∃ r, nodes[i]? = some r :=
  ⟨nodes[i]'(by rw [h.size]; exact hi), List.getElem?_eq_getElem _⟩

theorem lt_of_get (h : FullTree n nodes) {i : Nat} {r : NodeRec} (hr : nodes[i]? = some r) : i < 2 * n - 1 := by
  have := (List.getElem?_eq_some_iff.1 hr).1; rw [h.size] at this; exact this

theorem leaf_iff (h : FullTree n nodes) {i : Nat} {r : NodeRec} (hr : nodes[i]? = some r) :
    r.isLeaf = true ↔ i < n := by
  constructor
  · intro hl; by_contra hc
    have := (h.inner i r (by omega) hr).1; simp [this] at hl
  · intro hi; exact (h.leaf i r hi hr).1

theorem inner_iff (h : FullTree n nodes) {i : Nat} {r : NodeRec} (hr : nodes[i]? = some r) :
    r.isLeaf = false ↔ n ≤ i := by
  have := h.leaf_iff hr; cases hb : r.isLeaf <;> simp [hb] at this ⊢ <;> omega

theorem child_lt (h : FullTree n nodes) {i : Nat} {r : NodeRec} (hr : nodes[i]? = some r) (hi : n ≤ i) (b : Bool) :
    childOf r b < i := by
  have := h.inner i r hi hr
  cases b <;> simp [childOf, this]

/-- The children of the nodes, with the node and the bit that leads to each. -/
theorem mem_children {j : Nat} :
    j ∈ childrenOf nodes ↔ ∃ (k : Nat) (r : NodeRec) (b : Bool), nodes[k]? = some r ∧ r.isLeaf = false ∧ childOf r b = j := by
  simp only [childrenOf, List.mem_flatMap]
  constructor
  · rintro ⟨r, hr, hj⟩
    obtain ⟨k, hk, e⟩ := List.getElem_of_mem hr
    by_cases hl : r.isLeaf = true
    · simp [hl] at hj
    · simp only [hl, Bool.false_eq_true, if_false, List.mem_cons, List.not_mem_nil, or_false] at hj
      rcases hj with hj | hj
      · exact ⟨k, r, false, by rw [List.getElem?_eq_getElem hk, e], by simpa using hl, by simp [childOf, hj]⟩
      · exact ⟨k, r, true, by rw [List.getElem?_eq_getElem hk, e], by simpa using hl, by simp [childOf, hj]⟩
  · rintro ⟨k, r, b, hr, hl, rfl⟩
    exact ⟨r, List.mem_of_getElem? hr, by cases b <;> simp [hl, childOf]⟩

theorem count_children (xs : List NodeRec) (j : Nat) :
    (childrenOf xs).count j = (xs.map (fun r => if r.isLeaf then 0 else [r.left.toNat, r.right.toNat].count j)).sum := by
  induction xs with
  | nil => simp [childrenOf]
  | cons r xs ih =>
    have : childrenOf (r :: xs) = childrenOf [r] ++ childrenOf xs := by simp [childrenOf]
    rw [this, List.count_append, ih, List.map_cons, List.sum_cons]
    congr 1
    cases hb : r.isLeaf <;> simp [childrenOf, hb]

/-- A node is the child of at most one node, by one bit. -/
theorem parent_unique (h : FullTree n nodes) {k k' : Nat} {r r' : NodeRec} {b b' : Bool}
    (hr : nodes[k]? = some r) (hl : r.isLeaf = false) (hr' : nodes[k']? = some r') (hl' : r'.isLeaf = false)
    (e : childOf r b = childOf r' b') : k = k' ∧ b = b' := by
  have hnd : (childrenOf nodes).Nodup := h.parents.nodup_iff.2 List.nodup_range
  have hc : (childrenOf nodes).count (childOf r b) ≤ 1 := List.nodup_iff_count_le_one.1 hnd _
  rw [count_children] at hc
  have hpos : ∀ {r : NodeRec} {b : Bool}, r.isLeaf = false →
      1 ≤ (if r.isLeaf then 0 else [r.left.toNat, r.right.toNat].count (childOf r b)) := by
    intro r b hl
    rw [if_neg (by simp [hl])]
    exact List.one_le_count_iff.2 (by cases b <;> simp [childOf])
  have hk := (List.getElem?_eq_some_iff.1 hr)
  have hk' := (List.getElem?_eq_some_iff.1 hr')
  obtain ⟨hkl, hke⟩ := hk
  obtain ⟨hkl', hke'⟩ := hk'
  set g : NodeRec → Nat := fun r => if r.isLeaf then 0 else [r.left.toNat, r.right.toNat].count (childOf r b)
  by_cases hkk : k = k'
  · subst hkk
    rw [hr] at hr'; cases hr'
    refine ⟨rfl, ?_⟩
    by_contra hb
    have e' : r.left.toNat = r.right.toNat := by
      cases b <;> cases b' <;> simp [childOf] at e hb ⊢ <;> simp [e]
    have h2 : 2 ≤ (fun r => if r.isLeaf = true then 0 else List.count (childOf r b) [r.left.toNat, r.right.toNat]) r := by
      simp only [hl, Bool.false_eq_true, if_false]
      cases b <;> simp [childOf, e']
    have := List.single_le_sum (l := nodes.map
      (fun s => if s.isLeaf = true then 0 else List.count (childOf r b) [s.left.toNat, s.right.toNat]))
      (by simp) _ (List.mem_map.2 ⟨r, List.mem_of_getElem? hr, rfl⟩)
    simp only at h2 this
    omega
  · exfalso
    set f : NodeRec → Nat := fun s => if s.isLeaf = true then 0 else List.count (childOf r b) [s.left.toNat, s.right.toNat]
    have hf : 1 ≤ f r := hpos (b := b) hl
    have hf' : 1 ≤ f r' := by simp only [f]; rw [e]; exact hpos hl'
    have key : ∀ (xs : List NodeRec) (i j : Nat) (hi : i < xs.length) (hj : j < xs.length), i ≠ j →
        f xs[i] + f xs[j] ≤ (xs.map f).sum := by
      intro xs i j hi hj hij
      have := Finset.add_le_sum (s := (Finset.univ : Finset (Fin xs.length))) (f := fun i => f xs[i])
        (i := ⟨i, hi⟩) (j := ⟨j, hj⟩) (by simp) (by simp) (by simp) (by simpa using hij)
      rw [← List.sum_ofFn] at this
      rwa [show List.ofFn (fun i : Fin xs.length => f xs[i]) = xs.map f from by
        apply List.ext_getElem <;> simp] at this
    have := key nodes k k' hkl hkl' hkk
    rw [hke, hke'] at this
    omega

theorem has_parent (h : FullTree n nodes) {j : Nat} (hj : j < 2 * n - 2) :
    ∃ (k : Nat) (r : NodeRec) (b : Bool), nodes[k]? = some r ∧ r.isLeaf = false ∧ childOf r b = j :=
  mem_children.1 (h.parents.mem_iff.2 (List.mem_range.2 hj))

theorem descend_snoc {i j : Nat} {p : Bits} {b : Bool} (h : descend nodes i (p ++ [b]) = some j) :
    ∃ k r, descend nodes i p = some k ∧ nodes[k]? = some r ∧ r.isLeaf = false ∧ childOf r b = j := by
  obtain ⟨k, h1, h2⟩ := descend_split h
  obtain ⟨r, hr, hl, h3⟩ := descend_cons h2
  exact ⟨k, r, h1, hr, hl, ((descend_nil.1 h3).1).symm⟩

theorem snoc_descend (h : FullTree n nodes) {i k : Nat} {r : NodeRec} {p : Bits} (b : Bool)
    (h1 : descend nodes i p = some k) (hr : nodes[k]? = some r) (hl : r.isLeaf = false) :
    descend nodes i (p ++ [b]) = some (childOf r b) := by
  rw [descend_append h1, descend_cons_inner hr hl]
  have := h.child_lt hr ((h.inner_iff hr).1 hl) b
  have := h.lt_of_get hr
  exact descend_nil.2 ⟨rfl, by rw [h.size]; omega⟩

/-- Every node is reached from the root. -/
theorem reachable (h : FullTree n nodes) (j : Nat) (hj : j < 2 * n - 1) :
    ∃ p, descend nodes (2 * n - 2) p = some j := by
  induction hd : 2 * n - 2 - j using Nat.strong_induction_on generalizing j with
  | _ d ih =>
    by_cases he : j = 2 * n - 2
    · subst he; exact ⟨[], descend_nil.2 ⟨rfl, by rw [h.size]; omega⟩⟩
    · obtain ⟨k, r, b, hr, hl, hc⟩ := h.has_parent (j := j) (by omega)
      have hlt := h.child_lt hr ((h.inner_iff hr).1 hl) b
      have hk := h.lt_of_get hr
      obtain ⟨p, hp⟩ := ih (2 * n - 2 - k) (by omega) k hk rfl
      exact ⟨p ++ [b], by rw [← hc]; exact h.snoc_descend b hp hr hl⟩

/-- Going down lowers the index by at least one a bit. -/
theorem descend_add_length (h : FullTree n nodes) {i j : Nat} {p : Bits} (hd : descend nodes i p = some j) :
    j + p.length ≤ i := by
  induction p generalizing i with
  | nil => have := descend_nil.1 hd; simp; omega
  | cons b p ih =>
    obtain ⟨r, hr, hl, hd⟩ := descend_cons hd
    have := ih hd
    have := h.child_lt hr ((h.inner_iff hr).1 hl) b
    simp only [List.length_cons]; omega

/-- There is one path from the root to a node. -/
theorem path_unique (h : FullTree n nodes) {j : Nat} {p q : Bits} (hp : descend nodes (2 * n - 2) p = some j)
    (hq : descend nodes (2 * n - 2) q = some j) : p = q := by
  induction p using List.reverseRecOn generalizing q j with
  | nil =>
    have hj := (descend_nil.1 hp).1
    have := h.descend_add_length hq
    have : q.length = 0 := by omega
    exact (List.length_eq_zero_iff.1 this).symm
  | append_singleton p b ih =>
    rcases List.eq_nil_or_concat q with rfl | ⟨q', c, rfl⟩
    · have hj := (descend_nil.1 hq).1
      have := h.descend_add_length hp
      simp at this; omega
    · rw [List.concat_eq_append] at hq ⊢
      obtain ⟨k, r, h1, hr, hl, e⟩ := descend_snoc hp
      obtain ⟨k', r', h1', hr', hl', e'⟩ := descend_snoc hq
      obtain ⟨rfl, rfl⟩ := h.parent_unique hr hl hr' hl' (e.trans e'.symm)
      rw [ih h1 h1']

/-- An internal node is at most n − 2 levels deep, a leaf between 1 and n − 1 (R146). -/
theorem inner_depth (h : FullTree n nodes) {j : Nat} {r : NodeRec} {p : Bits}
    (hp : descend nodes (2 * n - 2) p = some j) (hr : nodes[j]? = some r) (hl : r.isLeaf = false) :
    p.length ≤ n - 2 := by
  have := h.descend_add_length hp
  have := (h.inner_iff hr).1 hl
  omega

theorem leaf_depth (h : FullTree n nodes) {j : Nat} {r : NodeRec} {p : Bits}
    (hp : descend nodes (2 * n - 2) p = some j) (hr : nodes[j]? = some r) (hl : r.isLeaf = true) :
    1 ≤ p.length ∧ p.length ≤ n - 1 := by
  have hn := h.atLeast
  rcases List.eq_nil_or_concat p with rfl | ⟨q, b, rfl⟩
  · have hj := (descend_nil.1 hp).1
    have := (h.leaf_iff hr).1 hl
    omega
  · rw [List.concat_eq_append] at hp ⊢
    obtain ⟨k, s, h1, hs, hsl, _⟩ := descend_snoc hp
    have := h.inner_depth h1 hs hsl
    simp; omega

/-- A symbol has at most one leaf. -/
theorem leaf_unique (h : FullTree n nodes) {i j : Nat} {r s : NodeRec} (hr : nodes[i]? = some r)
    (hs : nodes[j]? = some s) (hrl : r.isLeaf = true) (hsl : s.isLeaf = true) (e : r.sym = s.sym) : i = j := by
  have hi := (h.leaf_iff hr).1 hrl
  have hj := (h.leaf_iff hs).1 hsl
  have hsz := h.size
  have hn := h.atLeast
  have key := List.nodup_iff_injective_get.1 h.symbols
  have hlen : ((nodes.take n).map NodeRec.sym).length = n := by simp; omega
  have := @key ⟨i, by omega⟩ ⟨j, by omega⟩ (by
    simp only [List.get_eq_getElem, List.getElem_map, List.getElem_take]
    rw [(List.getElem?_eq_some_iff.1 hr).2, (List.getElem?_eq_some_iff.1 hs).2, e])
  simpa using this

/-- A symbol has at most one code. -/
theorem code_unique (h : FullTree n nodes) {x : Symbol} {p q : Bits} (hp : IsCode nodes (2 * n - 2) x p)
    (hq : IsCode nodes (2 * n - 2) x q) : p = q := by
  obtain ⟨l, r, h1, hr, hrl, e⟩ := hp
  obtain ⟨l', r', h1', hr', hrl', e'⟩ := hq
  have := h.leaf_unique hr hr' hrl hrl' (e.trans e'.symm)
  subst this
  exact h.path_unique h1 h1'

theorem code_length (h : FullTree n nodes) {x : Symbol} {p : Bits} (hp : IsCode nodes (2 * n - 2) x p) :
    1 ≤ p.length ∧ p.length ≤ n - 1 := by
  obtain ⟨l, r, h1, hr, hrl, _⟩ := hp
  exact h.leaf_depth h1 hr hrl

theorem root_inner (h : FullTree n nodes) : ∃ r, nodes[2 * n - 2]? = some r ∧ r.isLeaf = false := by
  have hn := h.atLeast
  obtain ⟨r, hr⟩ := h.get (i := 2 * n - 2) (by omega)
  exact ⟨r, hr, (h.inner_iff hr).2 (by omega)⟩

theorem child_get (h : FullTree n nodes) {i : Nat} {r : NodeRec} (hr : nodes[i]? = some r) (hl : r.isLeaf = false)
    (b : Bool) : ∃ s, nodes[childOf r b]? = some s := by
  have := h.child_lt hr ((h.inner_iff hr).1 hl) b
  have := h.lt_of_get hr
  exact h.get (by omega)

/-! ### The traversal of CODES -/

/-- The traversal from node `m` ends when enough levels are given, and it records, for every symbol with a leaf below
`m`, the bits to it after `p`, and nothing for the others (R160). -/
theorem visit_spec (h : FullTree n nodes) (levels m : Nat) (p : Bits) (c : CodeBook) (hm : m < 2 * n - 1)
    (hlev : m < n + levels) :
    ∃ c', visit nodes levels m p c = .ok c' ∧
      (∀ x, (¬ ∃ q, IsCode nodes m x q) → SymTable.get c' x = SymTable.get c x) ∧
      (∀ x, (∃ q, IsCode nodes m x q) → ∃ q, IsCode nodes m x q ∧ SymTable.get c' x = p ++ q) := by
  induction levels generalizing m p c with
  | zero =>
    obtain ⟨r, hr⟩ := h.get hm
    have hl := (h.leaf_iff hr).2 (by omega)
    refine ⟨SymTable.set c r.sym p, by simp [visit, nodeAt_some hr, hl], ?_, ?_⟩
    · intro x hx
      rw [SymTable.get_set_other]
      rintro rfl
      exact hx ⟨[], (IsCode.leaf_iff hr hl).2 ⟨rfl, rfl⟩⟩
    · rintro x ⟨q, hq⟩
      obtain ⟨rfl, rfl⟩ := (IsCode.leaf_iff hr hl).1 hq
      exact ⟨[], hq, by simp⟩
  | succ l ih =>
    obtain ⟨r, hr⟩ := h.get hm
    by_cases hl : r.isLeaf = true
    · refine ⟨SymTable.set c r.sym p, by simp [visit, nodeAt_some hr, hl], ?_, ?_⟩
      · intro x hx
        rw [SymTable.get_set_other]
        rintro rfl
        exact hx ⟨[], (IsCode.leaf_iff hr hl).2 ⟨rfl, rfl⟩⟩
      · rintro x ⟨q, hq⟩
        obtain ⟨rfl, rfl⟩ := (IsCode.leaf_iff hr hl).1 hq
        exact ⟨[], hq, by simp⟩
    · have hl : r.isLeaf = false := by simpa using hl
      have hL := h.child_lt hr ((h.inner_iff hr).1 hl) false
      have hR := h.child_lt hr ((h.inner_iff hr).1 hl) true
      obtain ⟨c1, e1, n1, y1⟩ := ih (childOf r false) (p ++ [false]) c (by omega) (by omega)
      obtain ⟨c2, e2, n2, y2⟩ := ih (childOf r true) (p ++ [true]) c1 (by omega) (by omega)
      refine ⟨c2, ?_, ?_, ?_⟩
      · unfold visit
        simp only [nodeAt_some hr, hl, Bool.false_eq_true, if_false]
        simp only [childOf, Bool.false_eq_true, if_false] at e1
        simp only [childOf, if_true] at e2
        rw [e1]; exact e2
      · intro x hx
        rw [n2, n1]
        · rintro ⟨q, hq⟩; exact hx ⟨false :: q, (IsCode.cons_iff hr hl).2 ⟨false, q, rfl, hq⟩⟩
        · rintro ⟨q, hq⟩; exact hx ⟨true :: q, (IsCode.cons_iff hr hl).2 ⟨true, q, rfl, hq⟩⟩
      · rintro x ⟨q, hq⟩
        by_cases hR' : ∃ q, IsCode nodes (childOf r true) x q
        · obtain ⟨q2, hq2, e⟩ := y2 x hR'
          exact ⟨true :: q2, (IsCode.cons_iff hr hl).2 ⟨true, q2, rfl, hq2⟩, by rw [e]; simp⟩
        · obtain ⟨b, q', rfl, hq'⟩ := (IsCode.cons_iff hr hl).1 hq
          cases b with
          | true => exact absurd ⟨q', hq'⟩ hR'
          | false =>
            obtain ⟨q1, hq1, e⟩ := y1 x ⟨q', hq'⟩
            exact ⟨false :: q1, (IsCode.cons_iff hr hl).2 ⟨false, q1, rfl, hq1⟩, by rw [n2 x hR', e]; simp⟩

/-- The two subtrees of an internal node share no symbol. -/
theorem codes_disjoint (h : FullTree n nodes) {m : Nat} {r : NodeRec} (hr : nodes[m]? = some r) (hl : r.isLeaf = false)
    {x : Symbol} {p q : Bits} (hp : IsCode nodes (childOf r false) x p) (hq : IsCode nodes (childOf r true) x q) :
    False := by
  obtain ⟨w, hw⟩ := h.reachable m (h.lt_of_get hr)
  have lift : ∀ {b u}, IsCode nodes (childOf r b) x u → IsCode nodes (2 * n - 2) x (w ++ b :: u) := by
    intro b u hu
    obtain ⟨l, rl, hd, h2⟩ := (IsCode.cons_iff hr hl).2 ⟨b, u, rfl, hu⟩
    exact ⟨l, rl, by rw [descend_append hw]; exact hd, h2⟩
  have := h.code_unique (lift hp) (lift hq)
  simp at this

/-- A recorded code adds 2^(255 − |p|) to the Kraft sum where its symbol had no entry. -/
theorem kraft_set {c : CodeBook} {x : Symbol} {p : Bits} (hx : SymTable.get c x = []) (hp : p ≠ []) :
    kraftScaled (SymTable.set c x p) = kraftScaled c + 2 ^ (Config.maxCode - p.length) := by
  have key := SymTable.sum_set (fun p => if p.isEmpty then 0 else 2 ^ (Config.maxCode - p.length)) c x p
  rw [hx] at key
  simp only [List.isEmpty_nil, if_true, Nat.add_zero] at key
  unfold kraftScaled; rw [key]; simp [hp]

/-- The Kraft sum a traversal adds (R163): visiting node `m` after the bits `p` adds 2^(255 − |p|). -/
theorem visit_kraft (h : FullTree n nodes) (levels m : Nat) (p : Bits) (c c' : CodeBook) (hm : m < 2 * n - 1)
    (hlev : m < n + levels) (hp : p.length + levels = Config.maxCode) (hne : p ≠ [] ∨ n ≤ m)
    (hc : ∀ x, (∃ q, IsCode nodes m x q) → SymTable.get c x = [])
    (hv : visit nodes levels m p c = .ok c') :
    kraftScaled c' = kraftScaled c + 2 ^ (Config.maxCode - p.length) := by
  obtain ⟨r, hr⟩ := h.get hm
  induction levels generalizing m p c c' r with
  | zero =>
    have hl := (h.leaf_iff hr).2 (by omega)
    simp only [visit, nodeAt_some hr, hl, if_true] at hv
    injection hv with hv
    have := (h.leaf_iff hr).1 hl
    rw [← hv, kraft_set (hc r.sym ⟨[], (IsCode.leaf_iff hr hl).2 ⟨rfl, rfl⟩⟩) (hne.resolve_right (by omega))]
  | succ l ih =>
    by_cases hl : r.isLeaf = true
    · unfold visit at hv; simp only [nodeAt_some hr, hl, if_true] at hv
      injection hv with hv
      have := (h.leaf_iff hr).1 hl
      rw [← hv, kraft_set (hc r.sym ⟨[], (IsCode.leaf_iff hr hl).2 ⟨rfl, rfl⟩⟩) (hne.resolve_right (by omega))]
    · have hl : r.isLeaf = false := by simpa using hl
      have hL := h.child_lt hr ((h.inner_iff hr).1 hl) false
      have hR := h.child_lt hr ((h.inner_iff hr).1 hl) true
      obtain ⟨rl, hrl⟩ := h.child_get hr hl false
      obtain ⟨rr, hrr⟩ := h.child_get hr hl true
      obtain ⟨c1, e1, n1, -⟩ := h.visit_spec l (childOf r false) (p ++ [false]) c (by omega) (by omega)
      obtain ⟨c2, e2, -, -⟩ := h.visit_spec l (childOf r true) (p ++ [true]) c1 (by omega) (by omega)
      have e : visit nodes (l + 1) m p c = .ok c2 := by
        unfold visit
        simp only [nodeAt_some hr, hl, Bool.false_eq_true, if_false]
        simp only [childOf, Bool.false_eq_true, if_false] at e1
        simp only [childOf, if_true] at e2
        rw [e1]; exact e2
      rw [hv] at e
      injection e with e
      subst e
      have k1 := ih (childOf r false) (p ++ [false]) c c1 (by omega) (by omega) (by simp; omega) (by simp)
        (fun x ⟨q, hq⟩ => hc x ⟨false :: q, (IsCode.cons_iff hr hl).2 ⟨false, q, rfl, hq⟩⟩) e1 rl hrl
      have k2 := ih (childOf r true) (p ++ [true]) c1 c' (by omega) (by omega) (by simp; omega) (by simp)
        (fun x ⟨q, hq⟩ => by
          rw [n1 x (fun ⟨q', hq'⟩ => h.codes_disjoint hr hl hq' hq)]
          exact hc x ⟨true :: q, (IsCode.cons_iff hr hl).2 ⟨true, q, rfl, hq⟩⟩) e2 rr hrr
      rw [k2, k1]
      simp only [List.length_append, List.length_singleton]
      rw [show Config.maxCode - p.length = (Config.maxCode - (p.length + 1)) + 1 by omega, Nat.pow_succ]
      omega
/-- The CodeBook of a full tree: every leaf's symbol has its path, no other symbol has an entry (R162). -/
theorem codes (h : FullTree n nodes) :
    ∃ c, visit nodes Config.maxCode (2 * n - 2) [] CodeBook.empty = .ok c ∧
      ∀ x p, p ≠ [] → (SymTable.get c x = p ↔ IsCode nodes (2 * n - 2) x p) := by
  have hn := h.atLeast
  have hn' := h.atMost
  obtain ⟨c, e, hno, hyes⟩ := h.visit_spec Config.maxCode (2 * n - 2) [] CodeBook.empty (by omega)
    (by simp only [Config.maxCode]; omega)
  refine ⟨c, e, ?_⟩
  intro x p hp
  constructor
  · rintro rfl
    by_cases hx : ∃ q, IsCode nodes (2 * n - 2) x q
    · obtain ⟨q, hq, e⟩ := hyes x hx
      rw [e]; exact hq
    · rw [hno x hx] at hp
      exact absurd (SymTable.get_replicate [] x) hp
  · intro hc
    obtain ⟨q, hq, e⟩ := hyes x ⟨p, hc⟩
    rw [e]; exact h.code_unique hq hc

/-! ### The walk of DECODE -/

/-- One bit of the walk (R190). -/
theorem walk_cons {root cur t : Nat} {b : Bool} {bs : Bits} {r s : NodeRec} (hr : nodes[cur]? = some r)
    (hs : nodes[childOf r b]? = some s) :
    walk nodes root (b :: bs) cur t =
      if s.isLeaf then
        match walk nodes root bs root 0 with
        | .error f => .error f
        | .ok (out, tl) => .ok (s.sym :: out, tl)
      else walk nodes root bs (childOf r b) (t + 1) := by
  rw [walk]
  simp only [nodeAt_some hr]
  rw [show (if b = true then r.right.toNat else r.left.toNat) = childOf r b from rfl, nodeAt_some hs]
  try rfl

/-- A code followed by more bits: the walk emits its symbol and goes on from the root (R190). -/
theorem walk_code {root : Nat} {cur t : Nat} {x : Symbol} {q bits : Bits} (hq : IsCode nodes cur x q) (hne : q ≠ []) :
    walk nodes root (q ++ bits) cur t =
      match walk nodes root bits root 0 with
      | .error f => .error f
      | .ok (out, tl) => .ok (x :: out, tl) := by
  induction q generalizing cur t with
  | nil => exact absurd rfl hne
  | cons b q ih =>
    obtain ⟨l, rl, hd, hrl, hleaf, hx⟩ := hq
    obtain ⟨r, hr, hl, hd⟩ := descend_cons hd
    have hs : ∃ s, nodes[childOf r b]? = some s := by
      cases q with
      | nil => rw [(descend_nil.1 hd).1] at hrl; exact ⟨_, hrl⟩
      | cons c q => obtain ⟨s, hs, _⟩ := descend_cons hd; exact ⟨s, hs⟩
    obtain ⟨s, hs⟩ := hs
    rw [List.cons_append, walk_cons hr hs]
    cases q with
    | nil =>
      rw [(descend_nil.1 hd).1] at hrl
      rw [hs] at hrl; cases hrl
      simp [hleaf, hx]
    | cons c q =>
      obtain ⟨s', hs', hsl, _⟩ := descend_cons hd
      rw [hs] at hs'; cases hs'
      rw [if_neg (by simp [hsl])]
      exact ih ⟨l, rl, hd, hrl, hleaf, hx⟩ (by simp)

/-- The walk on a stream of whole codes from the root gives back their symbols, with no tail (R190). -/
theorem walk_flatten {nodes : List NodeRec} {root : Nat} {c : Symbol → Bits} (syms : List Symbol)
    (h : ∀ x ∈ syms, IsCode nodes root x (c x) ∧ c x ≠ []) :
    walk nodes root (syms.flatMap c) root 0 = .ok (syms, 0) := by
  induction syms with
  | nil => rfl
  | cons x xs ih =>
    rw [List.flatMap_cons, walk_code (h x (by simp)).1 (h x (by simp)).2, ih (fun y hy => h y (by simp [hy]))]

/-- The walk on any stream from an internal node: it stays inside the arena, and splits the stream into codes and an
incomplete code (R190, R192, R193). -/
theorem walk_spec (h : FullTree n nodes) (bits : Bits) (cur t : Nat) (r : NodeRec) (hr : nodes[cur]? = some r)
    (hl : r.isLeaf = false) :
    ∃ out tail, walk nodes (2 * n - 2) bits cur t = .ok (out, tail) ∧
      ((out = [] ∧ tail = t + bits.length ∧ IsPartialCode nodes cur bits) ∨
       ∃ x out' q ps rest, out = x :: out' ∧ bits = q ++ (ps.flatten ++ rest) ∧ q ≠ [] ∧ IsCode nodes cur x q ∧
        List.Forall₂ (IsCode nodes (2 * n - 2)) out' ps ∧ IsPartialCode nodes (2 * n - 2) rest ∧
        tail = rest.length) := by
  induction bits generalizing cur t r with
  | nil =>
    refine ⟨[], t, rfl, .inl ⟨rfl, by simp, cur, r, ?_, hr, hl⟩⟩
    exact descend_nil.2 ⟨rfl, (List.getElem?_eq_some_iff.1 hr).1⟩
  | cons b bs ih =>
    obtain ⟨s, hs⟩ := h.child_get hr hl b
    rw [walk_cons hr hs]
    by_cases hsl : s.isLeaf = true
    · rw [if_pos hsl]
      obtain ⟨rr, hrr, hrl⟩ := h.root_inner
      obtain ⟨out, tail, e, hcase⟩ := ih (2 * n - 2) 0 rr hrr hrl
      rw [e]
      refine ⟨s.sym :: out, tail, rfl, .inr ?_⟩
      have hc : IsCode nodes cur s.sym [b] :=
        (IsCode.cons_iff hr hl).2 ⟨b, [], rfl, (IsCode.leaf_iff hs hsl).2 ⟨rfl, rfl⟩⟩
      rcases hcase with ⟨rfl, ht, hp⟩ | ⟨x, out', q, ps, rest, rfl, hb, _, hq, hf, hp, ht⟩
      · exact ⟨s.sym, [], [b], [], bs, rfl, by simp, by simp, hc, List.Forall₂.nil, hp, by simpa using ht⟩
      · exact ⟨s.sym, x :: out', [b], q :: ps, rest, rfl, by simp [hb], by simp, hc,
          List.Forall₂.cons hq hf, hp, ht⟩
    · have hsl : s.isLeaf = false := by simpa using hsl
      rw [if_neg (by simp [hsl])]
      obtain ⟨out, tail, e, hcase⟩ := ih (childOf r b) (t + 1) s hs hsl
      rw [e]
      refine ⟨out, tail, rfl, ?_⟩
      rcases hcase with ⟨rfl, ht, hp⟩ | ⟨x, out', q, ps, rest, rfl, hb, _, hq, hf, hp, ht⟩
      · exact .inl ⟨rfl, by simp; omega, IsPartialCode.cons hr hl hp⟩
      · exact .inr ⟨x, out', b :: q, ps, rest, rfl, by simp [hb], by simp,
          (IsCode.cons_iff hr hl).2 ⟨b, q, rfl, hq⟩, hf, hp, ht⟩

/-- The walk from the root. -/
theorem walk_root (h : FullTree n nodes) (bits : Bits) :
    ∃ out tail ps rest, walk nodes (2 * n - 2) bits (2 * n - 2) 0 = .ok (out, tail) ∧
      bits = ps.flatten ++ rest ∧ List.Forall₂ (IsCode nodes (2 * n - 2)) out ps ∧
      IsPartialCode nodes (2 * n - 2) rest ∧ tail = rest.length ∧ rest.length ≤ n - 2 := by
  obtain ⟨r, hr, hl⟩ := h.root_inner
  obtain ⟨out, tail, e, hcase⟩ := h.walk_spec bits (2 * n - 2) 0 r hr hl
  rcases hcase with ⟨rfl, ht, hp⟩ | ⟨x, out', q, ps, rest, rfl, hb, _, hq, hf, hp, ht⟩
  · refine ⟨[], tail, [], bits, e, by simp, List.Forall₂.nil, hp, by omega, ?_⟩
    obtain ⟨l, rl, h1, h2, h3⟩ := hp
    exact h.inner_depth h1 h2 h3
  · refine ⟨x :: out', tail, q :: ps, rest, e, by simp [hb], List.Forall₂.cons hq hf, hp, ht, ?_⟩
    obtain ⟨l, rl, h1, h2, h3⟩ := hp
    exact h.inner_depth h1 h2 h3

/-- Codes are never empty, so a stream of codes has at least as many bits as symbols (R195). -/
theorem codes_length (h : FullTree n nodes) {out : List Symbol} {ps : List Bits}
    (hf : List.Forall₂ (IsCode nodes (2 * n - 2)) out ps) : out.length ≤ ps.flatten.length := by
  induction hf with
  | nil => simp
  | cons hx _ ih =>
    have := (h.code_length hx).1
    simp only [List.length_cons, List.flatten_cons, List.length_append]
    omega

end FullTree

end Sys2Proof.Machine
end

