-- ==== Sys2Proof/Laws/Exec.lean ====
section
/-! SUPPORT. What each command can do, said once (R102, R244): the next states of `exec`. -/

namespace Sys2Proof.Machine

section
variable {s t : State}

theorem Outcome.next_inj {a b : State} :
    (Host.Outcome.next a : Host.Outcome State Fault Refusal) = .next b ↔ a = b :=
  ⟨fun h => by cases h; rfl, fun h => by rw [h]⟩

theorem execFreq_next (h : exec .freq s = .next t) :
    (s.symLenBad = true ∧ t = s.complete .lenRange) ∨
    (s.symLenBad = false ∧ t = (s.setTable (buildFrequencyTable s.symInput)).complete .ok) := by
  simp only [exec, execFreq] at h
  cases hb : s.symLenBad <;> simp [hb] at h
  · exact .inr ⟨rfl, h.symm⟩
  · exact .inl ⟨rfl, h.symm⟩

theorem execTree_next (h : exec .tree s = .next t) :
    ∃ x, buildTree s.tbl = .ok x ∧ t = (s.setTree x).complete .ok := by
  simp only [exec, execTree] at h
  split at h
  · rename_i x hx; exact ⟨x, hx, (Outcome.next_inj.1 h).symm⟩
  · cases h

theorem execCodes_next (h : exec .codes s = .next t) :
    ∃ c, generateCodes s.tre = .ok c ∧ t = (s.setCodes c).complete .ok := by
  simp only [exec, execCodes] at h
  split at h
  · rename_i x hx; exact ⟨x, hx, (Outcome.next_inj.1 h).symm⟩
  · cases h

theorem execEncode_next (h : exec .encode s = .next t) :
    (s.symLenBad = true ∧ t = s.complete .lenRange) ∨
    (s.symLenBad = false ∧ encodeSymbols s.cfg.maxBits s.cb s.symInput = none ∧ t = s.complete .capacity) ∨
    (s.symLenBad = false ∧ ∃ e, encodeSymbols s.cfg.maxBits s.cb s.symInput = some e ∧
      t = (s.setEncoded e).complete .ok) := by
  simp only [exec, execEncode] at h
  cases hb : s.symLenBad
  · rw [hb, if_neg (by simp)] at h
    split at h
    · rename_i hn; exact .inr (.inl ⟨rfl, hn, (Outcome.next_inj.1 h).symm⟩)
    · rename_i e he; exact .inr (.inr ⟨rfl, e, he, (Outcome.next_inj.1 h).symm⟩)
  · rw [hb, if_pos rfl] at h
    exact .inl ⟨rfl, (Outcome.next_inj.1 h).symm⟩

/-- The decoded sequence DECODE writes. -/
def decodedOf (out : List Symbol) (tail : Nat) : Decoded :=
  { symOut := out, symOutLen := BitVec.ofNat 32 out.length, decTail := BitVec.ofNat 32 tail }

theorem decodeStream_next {bits : Bits} (h : s.decodeStream bits = .next t) :
    ∃ out tail, decodeBits s.tre bits = .ok (out, tail) ∧ t = (s.setDecoded (decodedOf out tail)).complete .ok := by
  simp only [State.decodeStream] at h
  split at h
  · rename_i out tail hx; exact ⟨out, tail, hx, (Outcome.next_inj.1 h).symm⟩
  · cases h

theorem execDecode_next {src : Src} (h : exec (.decode src) s = .next t) :
    (src = .bitIn ∧ s.bitInLenBad = true ∧ t = s.complete .lenRange) ∨
    (∃ bits out tail, decodeBits s.tre bits = .ok (out, tail) ∧
      t = (s.setDecoded (decodedOf out tail)).complete .ok ∧
      (src = .bitIn ∧ s.bitInLenBad = false ∧ bits = s.bitInput ∨
        src = .bitOut ∧ firstOf .bitOut s.enc.bitOutLen.toNat s.enc.bitOut = .ok bits)) := by
  cases src with
  | bitIn =>
    simp only [exec, execDecode] at h
    cases hb : s.bitInLenBad
    · rw [hb, if_neg (by simp)] at h
      obtain ⟨out, tail, h1, h2⟩ := decodeStream_next h
      exact .inr ⟨_, out, tail, h1, h2, .inl ⟨rfl, rfl, rfl⟩⟩
    · rw [hb, if_pos rfl] at h
      exact .inl ⟨rfl, rfl, (Outcome.next_inj.1 h).symm⟩
  | bitOut =>
    simp only [exec, execDecode] at h
    split at h
    · rename_i bits hbits
      obtain ⟨out, tail, h1, h2⟩ := decodeStream_next h
      exact .inr ⟨_, out, tail, h1, h2, .inr ⟨rfl, hbits⟩⟩
    · cases h

theorem execStats_next (h : exec .stats s = .next t) :
    (s.symLenBad = true ∧ t = s.complete .lenRange) ∨
    (s.symLenBad = false ∧
      t = (s.setStats (statsOf (8 * s.inp.symLen.toNat) s.enc.bitOutLen.toNat)).complete .ok) := by
  simp only [exec, execStats] at h
  cases hb : s.symLenBad <;> simp [hb] at h
  · exact .inr ⟨rfl, h.symm⟩
  · exact .inl ⟨rfl, h.symm⟩

theorem compressTail_cases (s : State) :
    (encodeSymbols s.cfg.maxBits s.cb s.symInput = none ∧ s.compressTail = s.complete .capacity) ∨
    (∃ e, encodeSymbols s.cfg.maxBits s.cb s.symInput = some e ∧ s.compressTail =
      ((s.setEncoded e).setStats (statsOf (8 * s.inp.symLen.toNat) e.bitOutLen.toNat)).complete .ok) := by
  unfold State.compressTail
  split
  · exact .inl ⟨by assumption, rfl⟩
  · rename_i e he; exact .inr ⟨e, he, rfl⟩

theorem execCompress_next (h : exec .compress s = .next t) :
    (s.symLenBad = true ∧ t = s.complete .lenRange) ∨
    (s.symLenBad = false ∧ ∃ x c, buildTree (buildFrequencyTable s.symInput) = .ok x ∧ generateCodes x = .ok c ∧
      t = (((s.setTable (buildFrequencyTable s.symInput)).setTree x).setCodes c).compressTail) := by
  simp only [exec, execCompress] at h
  cases hb : s.symLenBad
  · rw [hb, if_neg (by simp)] at h
    split at h
    · cases h
    · rename_i x hx
      split at h
      · cases h
      · rename_i c hc
        exact .inr ⟨rfl, x, c, hx, hc, (Outcome.next_inj.1 h).symm⟩
  · rw [hb, if_pos rfl] at h
    exact .inl ⟨rfl, (Outcome.next_inj.1 h).symm⟩

theorem execClear_next (h : exec .clear s = .next t) : t = s.clearSession.complete .ok := by
  simp only [exec, execClear] at h
  exact (Outcome.next_inj.1 h).symm

end

/-! ### What no command touches (R102) -/

/-- The part of State that no command touches, and the completion bookkeeping of every command (R246). -/
structure Completed (s t : State) : Prop where
  cfg : t.cfg = s.cfg
  ie : t.ie = s.ie
  ovr : t.ovr = s.ovr
  lastOp : t.lastOp = s.lastOp
  inp : t.inp = s.inp
  host : t.host = s.host
  env : t.env = s.env
  seq : t.seq = .idle
  done : t.done = true

theorem Completed.complete (s : State) (code : ErrCode) : Completed s (s.complete code) := by
  constructor <;> simp

theorem Completed.trans {s u t : State} (h : Completed u t) (hc : u.cfg = s.cfg) (hie : u.ie = s.ie)
    (ho : u.ovr = s.ovr) (hl : u.lastOp = s.lastOp) (hi : u.inp = s.inp) (hh : u.host = s.host)
    (he : u.env = s.env) : Completed s t where
  cfg := h.cfg.trans hc
  ie := h.ie.trans hie
  ovr := h.ovr.trans ho
  lastOp := h.lastOp.trans hl
  inp := h.inp.trans hi
  host := h.host.trans hh
  env := h.env.trans he
  seq := h.seq
  done := h.done

theorem compressTail_completed (s : State) : Completed s s.compressTail := by
  rcases compressTail_cases s with ⟨_, e⟩ | ⟨x, _, e⟩ <;> rw [e]
  · exact Completed.complete s _
  · exact (Completed.complete _ _).trans (by simp) (by simp) (by simp) (by simp) (by simp) (by simp) (by simp)

/-- Every command ends by completion and touches nothing outside the session (R102, R246). -/
theorem exec_completed {i : Instr} {s t : State} (h : exec i s = .next t) : Completed s t := by
  cases i with
  | freq =>
    rcases execFreq_next h with ⟨_, e⟩ | ⟨_, e⟩ <;> rw [e]
    · exact Completed.complete s _
    · exact (Completed.complete _ _).trans (by simp) (by simp) (by simp) (by simp) (by simp) (by simp) (by simp)
  | tree =>
    obtain ⟨x, _, e⟩ := execTree_next h
    rw [e]
    exact (Completed.complete _ _).trans (by simp) (by simp) (by simp) (by simp) (by simp) (by simp) (by simp)
  | codes =>
    obtain ⟨x, _, e⟩ := execCodes_next h
    rw [e]
    exact (Completed.complete _ _).trans (by simp) (by simp) (by simp) (by simp) (by simp) (by simp) (by simp)
  | encode =>
    rcases execEncode_next h with ⟨_, e⟩ | ⟨_, _, e⟩ | ⟨_, x, _, e⟩ <;> rw [e]
    · exact Completed.complete s _
    · exact Completed.complete s _
    · exact (Completed.complete _ _).trans (by simp) (by simp) (by simp) (by simp) (by simp) (by simp) (by simp)
  | decode src =>
    rcases execDecode_next h with ⟨_, _, e⟩ | ⟨_, x, y, _, e, _⟩ <;> rw [e]
    · exact Completed.complete s _
    · exact (Completed.complete _ _).trans (by simp) (by simp) (by simp) (by simp) (by simp) (by simp) (by simp)
  | stats =>
    rcases execStats_next h with ⟨_, e⟩ | ⟨_, e⟩ <;> rw [e]
    · exact Completed.complete s _
    · exact (Completed.complete _ _).trans (by simp) (by simp) (by simp) (by simp) (by simp) (by simp) (by simp)
  | compress =>
    rcases execCompress_next h with ⟨_, e⟩ | ⟨_, x, c, _, _, e⟩ <;> rw [e]
    · exact Completed.complete s _
    · exact (compressTail_completed _).trans (by simp) (by simp) (by simp) (by simp) (by simp) (by simp) (by simp)
  | clear =>
    rw [execClear_next h]
    exact (Completed.complete _ _).trans (by simp) (by simp) (by simp) (by simp) (by simp) (by simp) (by simp)

/-! ### The bodies of ENCODE and DECODE -/

theorem encodedBits_length (c : CodeBook) (syms : List Symbol) :
    (encodedBits c syms).length = encodedLength c syms := by
  simp [encodedBits, encodedLength, List.length_flatMap]

/-- The body of ENCODE: CAPACITY exactly when the total exceeds the buffer (R180). -/
theorem encodeSymbols_none_iff (m : Nat) (c : CodeBook) (syms : List Symbol) :
    encodeSymbols m c syms = none ↔ m < encodedLength c syms := by
  unfold encodeSymbols; split <;> simp_all

theorem encodeSymbols_some {m : Nat} {c : CodeBook} {syms : List Symbol} {e : Encoded}
    (h : encodeSymbols m c syms = some e) :
    encodedLength c syms ≤ m ∧ e.bitOut = encodedBits c syms ∧
      e.bitOutLen = BitVec.ofNat 32 (encodedLength c syms) ∧ e.encSkip = BitVec.ofNat 32 (skippedCount c syms) := by
  unfold encodeSymbols at h
  split at h
  · cases h
  · cases h
    exact ⟨by omega, rfl, by rw [encodedBits_length], rfl⟩

/-- A tree in one of its three states gives a CodeBook (R160, R161). -/
theorem generateCodes_ok {t : HuffTree} (h : t.Ok) : ∃ c, generateCodes t = .ok c := by
  obtain ⟨node, count, root, shape⟩ := t
  cases shape with
  | absent => exact ⟨_, rfl⟩
  | single =>
    obtain ⟨⟨x, f, e⟩, _⟩ := h
    simp only at e
    subst e
    exact ⟨_, rfl⟩
  | general =>
    obtain ⟨n, hf, _, hr⟩ := h
    simp only at hf hr
    obtain ⟨c, e, _⟩ := hf.codes
    exact ⟨c, by simp only [generateCodes, hr]; exact e⟩

theorem CodeBook.empty_ok : CodeBook.Ok CodeBook.empty := by intro x; simp [CodeBook.empty]

/-- The CodeBook of a tree in one of its three states has codes of at most 255 bits (R42, R161). -/
theorem generateCodes_bounded {t : HuffTree} (h : t.Ok) {c} (hc : generateCodes t = .ok c) : CodeBook.Ok c := by
  obtain ⟨node, count, root, shape⟩ := t
  cases shape with
  | absent => cases hc; exact CodeBook.empty_ok
  | single =>
    obtain ⟨⟨x, f, e⟩, _⟩ := h
    simp only at e; subst e
    cases hc
    intro y
    rw [SymTable.get_set]
    split
    · simp [Config.maxCode]
    · exact CodeBook.empty_ok y
  | general =>
    obtain ⟨n, hf, _, hr⟩ := h
    simp only at hf hr
    obtain ⟨c', e, hcode⟩ := hf.codes
    simp only [generateCodes, hr] at hc
    rw [hc] at e; cases e
    intro x
    by_cases hp : SymTable.get c x = []
    · simp [hp]
    · have := (hf.code_length ((hcode x _ hp).1 rfl)).2
      have := hf.atMost
      simp only [Config.maxCode]; omega

/-- The body of DECODE on a tree in one of its three states completes, with no more symbols than bits and a tail of at most
254 bits (R192, R193, R195). -/
theorem decodeBits_ok {t : HuffTree} (h : t.Ok) (bits : Bits) :
    ∃ out tail, decodeBits t bits = .ok (out, tail) ∧ out.length ≤ bits.length ∧ tail ≤ 254 := by
  obtain ⟨node, count, root, shape⟩ := t
  cases shape with
  | absent => exact ⟨[], 0, rfl, by simp, by simp⟩
  | single =>
    obtain ⟨⟨x, f, e⟩, _⟩ := h
    simp only at e; subst e
    exact ⟨List.replicate bits.length x, 0, rfl, by simp, by simp⟩
  | general =>
    obtain ⟨n, hf, _, hr⟩ := h
    simp only at hf hr
    obtain ⟨out, tail, ps, rest, e, hb, hfa, hp, ht, hle⟩ := hf.walk_root bits
    refine ⟨out, tail, by simp only [decodeBits, hr]; exact e, ?_, ?_⟩
    · have := hf.codes_length hfa
      rw [hb, List.length_append]; omega
    · have := hf.atMost; omega

end Sys2Proof.Machine
end

