-- ==== Sys2Proof/Laws/Port.lean ====
section
/-! SUPPORT. What the host port and a step can do, said once (spec/20_memory.md, spec/60_exceptions.md R245 to R247). -/

namespace Sys2Proof.Machine

/-! ### Sessions -/

theorem SameSession.refl (s : State) : SameSession s s := ⟨rfl, rfl, rfl, rfl, rfl, rfl⟩

theorem SameSession.trans {s t u : State} (h : SameSession s t) (h' : SameSession t u) : SameSession s u := by
  obtain ⟨a, b, c, d, e, f⟩ := h
  obtain ⟨a', b', c', d', e', f'⟩ := h'
  exact ⟨a'.trans a, b'.trans b, c'.trans c, d'.trans d, e'.trans e, f'.trans f⟩

/-! ### Writes -/

section
variable (s : State)

theorem State.issue_idle (h : s.seq = .idle) (w : Word) : s.issue w = (s.acceptWord w).drawLatency := by
  simp [State.issue, h]

theorem State.issue_busy {v : Word} (h : s.seq = .busy v) (w : Word) : s.issue w = s.setOvr := by
  simp [State.issue, h]

theorem State.writeInput_idle (h : s.seq = .idle) (x : Inputs) : s.writeInput x = { s with inp := x } := by
  simp [State.writeInput, State.isBusy, h]

theorem State.writeInput_busy {v : Word} (h : s.seq = .busy v) (x : Inputs) : s.writeInput x = s.setOvr := by
  simp [State.writeInput, State.isBusy, h]

/-- The forms a write can take: nothing, a control write, an issue, or an input write. -/
theorem State.writeLoc_cases (loc : Loc) (w : Word) :
    s.writeLoc loc w = s ∨ (loc = .reg .ctrl ∧ s.writeLoc loc w = s.writeCtrl w) ∨
    (loc = .reg .status ∧ s.writeLoc loc w = s.writeStatus w) ∨
    (loc = .reg .cmd ∧ s.writeLoc loc w = s.issue w) ∨
    (∃ x, s.writeLoc loc w = s.writeInput x ∧
      (loc = .reg .symLen ∧ x = { s.inp with symLen := w } ∨
       loc = .reg .bitInLen ∧ x = { s.inp with bitInLen := w } ∨
       (∃ i, loc = .symIn i ∧ x = { s.inp with symIn := Memory.put s.inp.symIn i (w.setWidth 8) }) ∨
       (∃ j, loc = .bitIn j ∧ x = { s.inp with bitIn := Memory.put s.inp.bitIn j w }))) := by
  cases loc with
  | reg r => cases r <;> simp [State.writeLoc, State.writeReg]
  | symIn i => right; right; right; right; exact ⟨_, rfl, .inr (.inr (.inl ⟨i, rfl, rfl⟩))⟩
  | bitIn j => right; right; right; right; exact ⟨_, rfl, .inr (.inr (.inr ⟨j, rfl, rfl⟩))⟩
  | _ => exact .inl rfl

/-- The fields no write touches. -/
structure PortKeeps (s t : State) : Prop where
  session : SameSession s t
  cfg : t.cfg = s.cfg
  host : t.host = s.host
  err : t.err = s.err

theorem PortKeeps.refl : PortKeeps s s := ⟨SameSession.refl s, rfl, rfl, rfl⟩

theorem State.issue_keeps (w : Word) : PortKeeps s (s.issue w) := by
  unfold State.issue
  split
  · constructor <;> simp [SameSession]
  · constructor <;> simp [SameSession]

theorem State.writeInput_keeps (x : Inputs) : PortKeeps s (s.writeInput x) := by
  unfold State.writeInput
  split
  · constructor <;> simp [SameSession]
  · exact ⟨⟨rfl, rfl, rfl, rfl, rfl, rfl⟩, rfl, rfl, rfl⟩

theorem State.writeLoc_keeps (loc : Loc) (w : Word) : PortKeeps s (s.writeLoc loc w) := by
  rcases s.writeLoc_cases loc w with e | ⟨_, e⟩ | ⟨_, e⟩ | ⟨_, e⟩ | ⟨x, e, _⟩ <;> rw [e]
  · exact PortKeeps.refl s
  · constructor <;> simp [SameSession]
  · constructor <;> simp [SameSession]
  · exact s.issue_keeps w
  · exact s.writeInput_keeps x

theorem State.hostWrite_keeps (addr w : Word) : PortKeeps s (s.hostWrite addr w) := s.writeLoc_keeps _ w

/-! ### Reads -/

/-- A read changes the draw counter at most (R88, U2). -/
theorem State.hostRead_snd (addr : Word) :
    (s.hostRead addr).2 = s ∨ (s.hostRead addr).2 = { s with env := { s.env with draws := s.env.draws + 1 } } := by
  unfold State.hostRead
  split
  · exact .inr rfl
  · exact .inl rfl

theorem State.hostRead_idle (h : s.seq = .idle) (addr : Word) : s.hostRead addr = (s.view (locate s.cfg addr), s) := by
  simp [State.hostRead, State.isBusy, h]

theorem State.hostRead_plain {addr : Word} (h : Loc.isResult (locate s.cfg addr) = false) :
    s.hostRead addr = (s.view (locate s.cfg addr), s) := by
  simp [State.hostRead, h]

theorem State.hostRead_result {addr v : Word} (hb : s.seq = .busy v) (h : Loc.isResult (locate s.cfg addr) = true) :
    s.hostRead addr = (Config.busyRead s.env.draws, { s with env := { s.env with draws := s.env.draws + 1 } }) := by
  simp [State.hostRead, State.isBusy, hb, h]

/-! ### The turn of the outside -/

/-- One entry of the outside leaves the session alone, unless it is `rst`. -/
theorem State.perform_session (op : PortOp) (h : op ≠ .rst) : SameSession s (s.perform op) := by
  cases op with
  | rd addr t =>
    simp only [State.perform]
    rcases s.hostRead_snd addr with e | e <;> rw [e] <;> exact ⟨rfl, rfl, rfl, rfl, rfl, rfl⟩
  | wr addr w =>
    exact (s.hostWrite_keeps addr w).session
  | br t hi lo v target => exact ⟨rfl, rfl, rfl, rfl, rfl, rfl⟩
  | rst => exact absurd rfl h

theorem State.hostTurn_session (h : s.host.next ≠ some .rst) : SameSession s s.hostTurn := by
  unfold State.hostTurn
  split
  · rename_i op hop
    exact s.perform_session op (fun e => h (by rw [hop, e]))
  · exact SameSession.refl s

theorem State.perform_rst : s.perform .rst = s.assertRst.hostAt (s.host.pos + 1) := rfl

end

/-! ### Steps -/

/-- What a step can be: the completion of the running command, a turn of the outside while idle, or a turn of the
outside while a command runs (R246). -/
theorem step_cases {s t : State} (h : step s = .next t) :
    (∃ w, s.seq = .busy w ∧ s.completionDue = true ∧ runCommand w s = .next t) ∨
    (s.seq = .idle ∧ t = s.hostTurn) ∨
    (∃ w, s.seq = .busy w ∧ s.completionDue = false ∧ t = s.tickDue.hostTurn) := by
  unfold step at h
  split at h
  · rename_i e; exact .inr (.inl ⟨e, (Outcome.next_inj.1 h).symm⟩)
  · rename_i w e
    cases hd : s.completionDue
    · rw [hd, if_neg (by simp)] at h
      exact .inr (.inr ⟨w, e, rfl, (Outcome.next_inj.1 h).symm⟩)
    · rw [hd, if_pos rfl] at h
      exact .inl ⟨w, e, rfl, h⟩

/-- What completing a word can be: its command, or the ILLEGAL_CMD of R243. -/
theorem runCommand_cases {w : Word} {s t : State} (h : runCommand w s = .next t) :
    (∃ i, decodeCmd w = .ok i ∧ exec i s = .next t) ∨
    (∃ e, decodeCmd w = .error e ∧ t = s.completeIllegal) := by
  unfold runCommand at h
  split at h
  · rename_i i hi; exact .inl ⟨i, hi, h⟩
  · rename_i e he; exact .inr ⟨e, he, (Outcome.next_inj.1 h).symm⟩

theorem runCommand_completed {w : Word} {s t : State} (h : runCommand w s = .next t) : Completed s t := by
  rcases runCommand_cases h with ⟨i, _, h⟩ | ⟨e, _, rfl⟩
  · exact exec_completed h
  · exact Completed.complete s _

end Sys2Proof.Machine
end

