-- ==== Sys2Proof/Laws/AddressMap.lean ====
section
/-! SUPPORT. The address map, region by region (spec/20_memory.md R20, R71, R72). -/

namespace Sys2Proof.Machine

section
variable (p : Params) {a : Nat}

/-- The regions of the map, as ranges of word indices (R72). -/
theorem locateWord_reg (h : a < 0x0100 / 4) :
    locateWord p a = match allRegs[a]? with | some r => .reg r | none => .reserved := by
  unfold locateWord; rw [if_pos h]; try rfl

theorem locateWord_gap1 (h : 0x0100 / 4 ≤ a) (h' : a < 0x1000 / 4) : locateWord p a = .reserved := by
  unfold locateWord
  repeat rw [if_neg (by omega)]
  rw [if_pos h']

theorem locateWord_freq (h : 0x1000 / 4 ≤ a) (h' : a < 0x1400 / 4) :
    locateWord p a = .freq (BitVec.ofNat 8 (a - 0x1000 / 4)) := by
  unfold locateWord
  repeat rw [if_neg (by omega)]
  rw [if_pos h']

theorem locateWord_ftOrder (h : 0x1400 / 4 ≤ a) (h' : a < 0x1800 / 4) :
    locateWord p a = .ftOrder (a - 0x1400 / 4) := by
  unfold locateWord
  repeat rw [if_neg (by omega)]
  rw [if_pos h']

theorem locateWord_gap2 (h : 0x1800 / 4 ≤ a) (h' : a < 0x2000 / 4) : locateWord p a = .reserved := by
  unfold locateWord
  repeat rw [if_neg (by omega)]
  rw [if_pos h']

theorem locateWord_node (h : 0x2000 / 4 ≤ a) (h' : a < 0x4000 / 4) :
    locateWord p a = .node ((a - 0x2000 / 4) / 4) (nodeWordOf ((a - 0x2000 / 4) % 4)) := by
  unfold locateWord
  repeat rw [if_neg (by omega)]
  rw [if_pos h']

theorem locateWord_cb (h : 0x4000 / 4 ≤ a) (h' : a < 0x8000 / 4) :
    locateWord p a = .cb (BitVec.ofNat 8 ((a - 0x4000 / 4) / 16)) ((a - 0x4000 / 4) % 16) := by
  unfold locateWord
  repeat rw [if_neg (by omega)]
  rw [if_pos h']

theorem locateWord_gap3 (h : 0x8000 / 4 ≤ a) (h' : a < 0x01000000 / 4) : locateWord p a = .reserved := by
  unfold locateWord
  repeat rw [if_neg (by omega)]
  rw [if_pos h']

theorem locateWord_symIn (h : 0x01000000 / 4 ≤ a) (h' : a < 0x02000000 / 4) :
    locateWord p a = if a - 0x01000000 / 4 < p.maxLen then .symIn (a - 0x01000000 / 4) else .reserved := by
  unfold locateWord
  repeat rw [if_neg (by omega)]
  rw [if_pos h']
  simp [implementedIf]

theorem locateWord_bitIn (h : 0x02000000 / 4 ≤ a) (h' : a < 0x03000000 / 4) :
    locateWord p a = if a - 0x02000000 / 4 < p.maxBits / 32 then .bitIn (a - 0x02000000 / 4) else .reserved := by
  unfold locateWord
  repeat rw [if_neg (by omega)]
  rw [if_pos h']
  simp [implementedIf]

theorem locateWord_bitOut (h : 0x03000000 / 4 ≤ a) (h' : a < 0x04000000 / 4) :
    locateWord p a = if a - 0x03000000 / 4 < p.maxBits / 32 then .bitOut (a - 0x03000000 / 4) else .reserved := by
  unfold locateWord
  repeat rw [if_neg (by omega)]
  rw [if_pos h']
  simp [implementedIf]

theorem locateWord_symOut (h : 0x04000000 / 4 ≤ a) (h' : a < 0x08000000 / 4) :
    locateWord p a = if a - 0x04000000 / 4 < p.maxBits then .symOut (a - 0x04000000 / 4) else .reserved := by
  unfold locateWord
  repeat rw [if_neg (by omega)]
  rw [if_pos h']
  simp [implementedIf]

theorem locateWord_gap4 (h : 0x08000000 / 4 ≤ a) : locateWord p a = .reserved := by
  unfold locateWord
  repeat rw [if_neg (by omega)]

end

theorem wordIndex_lt {p : Params} {loc : Loc} (h : loc.wf p = true) : wordIndex loc < 2 ^ 30 := by
  have := p.legal
  cases loc with
  | reg r => cases r <;> decide
  | freq x => have := x.isLt; simp only [wordIndex]; omega
  | node i k => simp [Loc.wf] at h; cases k <;> simp only [wordIndex, nodeWordIndex] <;> omega
  | cb x k => have := x.isLt; simp [Loc.wf] at h; simp only [wordIndex]; omega
  | reserved => cases h
  | _ => simp [Loc.wf] at h; simp only [wordIndex]; omega

/-- Address bits 1..0 are ignored (R71). -/
theorem locate_ofNat (p : Params) {n : Nat} (h : n < 2 ^ 32) : locate p (BitVec.ofNat 32 n) = locateWord p (n / 4) := by
  unfold locate; rw [BitVec.toNat_ofNat, Nat.mod_eq_of_lt h]

/-- Every implemented place is at its address (R72). -/
theorem locate_addressOf {p : Params} {loc : Loc} (h : loc.wf p = true) : locate p (addressOf loc) = loc := by
  have hlt := wordIndex_lt h
  have hleg := p.legal
  unfold addressOf
  rw [locate_ofNat p (by omega), Nat.mul_div_cancel_left _ (by decide)]
  cases loc with
  | reg r => cases r <;> rfl
  | freq x =>
    have := x.isLt
    simp only [wordIndex]
    rw [locateWord_freq p (by omega) (by omega), Nat.add_sub_cancel_left, BitVec.ofNat_toNat, BitVec.setWidth_eq]
  | ftOrder i =>
    simp [Loc.wf] at h
    simp only [wordIndex]
    rw [locateWord_ftOrder p (by omega) (by omega), Nat.add_sub_cancel_left]
  | node i k =>
    simp [Loc.wf] at h
    have hk : nodeWordIndex k < 4 := by cases k <;> decide
    have hk' : nodeWordOf (nodeWordIndex k) = k := by cases k <;> rfl
    simp only [wordIndex]
    rw [locateWord_node p (by omega) (by omega), show (0x2000 / 4 + 4 * i + nodeWordIndex k - 0x2000 / 4) / 4 = i by omega,
      show (0x2000 / 4 + 4 * i + nodeWordIndex k - 0x2000 / 4) % 4 = nodeWordIndex k by omega, hk']
  | cb x k =>
    have := x.isLt
    simp [Loc.wf] at h
    simp only [wordIndex]
    rw [locateWord_cb p (by omega) (by omega), show (0x4000 / 4 + 16 * x.toNat + k - 0x4000 / 4) / 16 = x.toNat by omega,
      show (0x4000 / 4 + 16 * x.toNat + k - 0x4000 / 4) % 16 = k by omega, BitVec.ofNat_toNat, BitVec.setWidth_eq]
  | symIn i =>
    simp [Loc.wf] at h
    simp only [wordIndex]
    rw [locateWord_symIn p (by omega) (by omega), Nat.add_sub_cancel_left, if_pos h]
  | bitIn j =>
    simp [Loc.wf] at h
    simp only [wordIndex]
    rw [locateWord_bitIn p (by omega) (by omega), Nat.add_sub_cancel_left, if_pos h]
  | bitOut j =>
    simp [Loc.wf] at h
    simp only [wordIndex]
    rw [locateWord_bitOut p (by omega) (by omega), Nat.add_sub_cancel_left, if_pos h]
  | symOut i =>
    simp [Loc.wf] at h
    simp only [wordIndex]
    rw [locateWord_symOut p (by omega) (by omega), Nat.add_sub_cancel_left, if_pos h]
  | reserved => cases h

/-- An address names an implemented place or a reserved one (R72, R73). -/
theorem locate_wf (p : Params) (addr : Word) : locate p addr = .reserved ∨ (locate p addr).wf p = true := by
  unfold locate
  generalize addr.toNat / 4 = a
  rcases Nat.lt_or_ge a (0x0100 / 4) with h | h
  · rw [locateWord_reg p h]; split <;> simp [Loc.wf]
  rcases Nat.lt_or_ge a (0x1000 / 4) with h' | h
  · exact .inl (locateWord_gap1 p h h')
  rcases Nat.lt_or_ge a (0x1400 / 4) with h' | h
  · rw [locateWord_freq p h h']; exact .inr rfl
  rcases Nat.lt_or_ge a (0x1800 / 4) with h' | h
  · rw [locateWord_ftOrder p h h']; right; simp only [Loc.wf, decide_eq_true_eq]; omega
  rcases Nat.lt_or_ge a (0x2000 / 4) with h' | h
  · exact .inl (locateWord_gap2 p h h')
  rcases Nat.lt_or_ge a (0x4000 / 4) with h' | h
  · rw [locateWord_node p h h']; right; simp only [Loc.wf, decide_eq_true_eq]; omega
  rcases Nat.lt_or_ge a (0x8000 / 4) with h' | h
  · rw [locateWord_cb p h h']; right; simp only [Loc.wf, decide_eq_true_eq]; omega
  rcases Nat.lt_or_ge a (0x01000000 / 4) with h' | h
  · exact .inl (locateWord_gap3 p h h')
  rcases Nat.lt_or_ge a (0x02000000 / 4) with h' | h
  · rw [locateWord_symIn p h h']; split
    · right; simpa only [Loc.wf, decide_eq_true_eq]
    · exact .inl rfl
  rcases Nat.lt_or_ge a (0x03000000 / 4) with h' | h
  · rw [locateWord_bitIn p h h']; split
    · right; simpa only [Loc.wf, decide_eq_true_eq]
    · exact .inl rfl
  rcases Nat.lt_or_ge a (0x04000000 / 4) with h' | h
  · rw [locateWord_bitOut p h h']; split
    · right; simpa only [Loc.wf, decide_eq_true_eq]
    · exact .inl rfl
  rcases Nat.lt_or_ge a (0x08000000 / 4) with h' | h
  · rw [locateWord_symOut p h h']; split
    · right; simpa only [Loc.wf, decide_eq_true_eq]
    · exact .inl rfl
  · exact .inl (locateWord_gap4 p h)

end Sys2Proof.Machine
end

