-- ==== Sys2Proof/Laws/PerInstr.lean ====
section
/-! SUPPORT. Statements made command by command: what the encoding of each is (spec/30_encoding.md R101, R103). -/

namespace Sys2Proof.Laws.Encoding

/-- The word of a command selects the command's own row of the opcode map, and its reserved bits are 0. -/
def Statement (i : Instr) : Prop :=
  (opcodeMap.find? (fun r => r.selects (Sys2Proof.encode i))).map OpcodeRow.mnemonic = some i.mnemonic ∧
    resOf (Sys2Proof.encode i) = 0#23

theorem freq : Statement .freq := by unfold Statement; decide

theorem tree : Statement .tree := by unfold Statement; decide

theorem codes : Statement .codes := by unfold Statement; decide

theorem encode : Statement .encode := by unfold Statement; decide

theorem decode (src : Src) : Statement (.decode src) := by unfold Statement; cases src <;> decide

theorem stats : Statement .stats := by unfold Statement; decide

theorem compress : Statement .compress := by unfold Statement; decide

theorem clear : Statement .clear := by unfold Statement; decide

end Sys2Proof.Laws.Encoding
end

