-- ==== Sys2Proof/Tests/Slice0.lean ====
section
/-! SUPPORT. Tests with values from spec/95_test_vectors.md and the rules, the smoke tests of WellFormed, and for each
statement of Obligations.lean with hypotheses a concrete state that meets them (the theorems named witness_…). -/

namespace Sys2Proof.Tests

open Sys2Proof Sys2Proof.Machine

/-! ### Helpers -/

/-- The next state, if there is one. -/
def nextOf : Host.Outcome State Fault Refusal → Option State
  | .next t => some t
  | .fault _ => none
  | .refused _ => none

theorem nextOf_any {o : Host.Outcome State Fault Refusal} {p : State → Bool} (h : (nextOf o).any p = true) :
    ∃ t, o = .next t ∧ p t = true := by
  cases o with
  | next t => exact ⟨t, rfl, h⟩
  | fault _ => cases h
  | refused _ => cases h

/-- The reset state with a text in SYM_IN. -/
def loaded (text : List Symbol) : State := State.reset.performWrites (fillWrites 0 text)

/-- A state with a bit-string in BIT_IN. -/
def loadedBits (bits : Bits) (s : State) : State := s.performWrites (fillbitsWrites bits)

/-- "aabb" -/
def aabb : List Symbol := [0x61#8, 0x61#8, 0x62#8, 0x62#8]

/-- "xyzz" -/
def xyzz : List Symbol := [0x78#8, 0x79#8, 0x7A#8, 0x7A#8]

/-- A state whose tree is that of a text. -/
def withTree (text : List Symbol) (s : State) : State :=
  { s with
    tbl := buildFrequencyTable text
    tre := huffman (buildFrequencyTable text).freq (buildFrequencyTable text).ftOrder }

/-- A HUFC of one input symbol and 32 bits (R5: the smallest). -/
def tinyParams : Params := { maxLen := 1, maxBits := 32, legal := by decide }

/-- That HUFC with the input "a" and the code of 33 zeros for it. -/
def tiny : State :=
  { State.reset with
    cfg := tinyParams
    inp := { symLen := 1#32, bitInLen := 33#32, symIn := [(0, 0x61#8)], bitIn := [], launch := 0 }
    cb := SymTable.set CodeBook.empty 0x61#8 (List.replicate 33 false) }

/-- A state in which the command word `w` runs. -/
def running (w : Word) (s : State) : State := s.acceptWord w

/-- A state with one entry of the outside still to come. -/
def before (op : PortOp) (s : State) : State := { s with host := ⟨[op], 0, []⟩ }

/-! ### WellFormed: an ill-formed term for each check -/

theorem test_params_len_zero : ¬ LegalParams 0 32 := by decide
theorem test_params_len_large : ¬ LegalParams (2 ^ 20 + 1) (2 ^ 24) := by decide
theorem test_params_bits_unaligned : ¬ LegalParams 1 33 := by decide
theorem test_params_bits_small : ¬ LegalParams 5 32 := by decide
theorem test_params_bits_large : ¬ LegalParams 1 (2 ^ 24 + 32) := by decide
theorem test_params_defaults : LegalParams (2 ^ 20) (2 ^ 24) := by decide

theorem test_wf_instr (i : Instr) : i.wf = true := by cases i <;> rfl

theorem test_wf_ftOrder : Loc.wf Config.defaults (.ftOrder 256) = false := by decide
theorem test_wf_node : Loc.wf Config.defaults (.node 512 .freq) = false := by decide
theorem test_wf_cb : Loc.wf Config.defaults (.cb 0x61#8 16) = false := by decide
theorem test_wf_symIn : Loc.wf Config.defaults (.symIn (2 ^ 20)) = false := by decide
theorem test_wf_bitIn : Loc.wf Config.defaults (.bitIn (2 ^ 19)) = false := by decide
theorem test_wf_bitOut : Loc.wf Config.defaults (.bitOut (2 ^ 19)) = false := by decide
theorem test_wf_symOut : Loc.wf Config.defaults (.symOut (2 ^ 24)) = false := by decide
theorem test_wf_reserved : Loc.wf Config.defaults .reserved = false := by decide

theorem test_wf_branch_field : PortOp.wf 9 (.br 1 0 1 0 9) = false := by decide
theorem test_wf_branch_width : PortOp.wf 9 (.br 1 32 0 0 9) = false := by decide
theorem test_wf_branch_value : PortOp.wf 9 (.br 1 1 0 4 9) = false := by decide
theorem test_wf_branch_target : PortOp.wf 9 (.br 1 1 0 3 10) = false := by decide
theorem test_wf_branch_ok : PortOp.wf 9 (.br 1 1 0 3 9) = true := by decide

theorem test_wf_wr_readOnly : Stmt.wf Config.defaults (.wr (.freq 0x61#8) 9#32) = false := by decide
theorem test_wf_wr_outside : Stmt.wf tinyParams (.wr (.symIn 1) 0x61#32) = false := by decide
theorem test_wf_rd_reserved : Stmt.wf Config.defaults (.rd .reserved 0) = false := by decide
theorem test_wf_fill_long : Stmt.wf tinyParams (.fill aabb) = false := by decide
theorem test_wf_fillbits_long : Stmt.wf tinyParams (.fillbits (List.replicate 33 true)) = false := by decide
theorem test_wf_goto_field : Stmt.wf Config.defaults (.goto 0 4 7 0 0) = false := by decide
theorem test_wf_goto_width : Stmt.wf Config.defaults (.goto 0 32 0 0 0) = false := by decide
theorem test_wf_goto_value : Stmt.wf Config.defaults (.goto 0 7 4 16 0) = false := by decide

/-! ### Decoding: words written out from R100, R101 and R103; V-CMD -/

theorem test_decode_freq : decodeTableWord 32 0b00000000000000000000000000000001 = some .freq := by decide
theorem test_decode_tree : decodeTableWord 32 0b00000000000000000000000000000010 = some .tree := by decide
theorem test_decode_codes : decodeTableWord 32 0b00000000000000000000000000000011 = some .codes := by decide
theorem test_decode_encode : decodeTableWord 32 0b00000000000000000000000000000100 = some .encode := by decide
theorem test_decode_decode_in : decodeTableWord 32 0b00000000000000000000000000000101 = some (.decode .bitIn) := by
  decide
theorem test_decode_decode_out : decodeTableWord 32 0b00000000000000000000000100000101 = some (.decode .bitOut) := by
  decide
theorem test_decode_stats : decodeTableWord 32 0b00000000000000000000000000000110 = some .stats := by decide
theorem test_decode_compress : decodeTableWord 32 0b00000000000000000000000000000111 = some .compress := by decide
theorem test_decode_clear : decodeTableWord 32 0b00000000000000000000000000001000 = some .clear := by decide
theorem test_decode_illegal :
    decodeCmd 0x00000000#32 = .error .opcode ∧ decodeCmd 0x00000009#32 = .error .opcode ∧
    decodeCmd 0x000000FF#32 = .error .opcode ∧ decodeCmd 0x00000101#32 = .error .sourceSelect ∧
    decodeCmd 0x00000108#32 = .error .sourceSelect ∧ decodeCmd 0x00000205#32 = .error .reservedBits ∧
    decodeCmd 0x80000004#32 = .error .reservedBits ∧ decodeCmd 0xFFFFFFFF#32 = .error .reservedBits := by decide

/-- R108: disassembly. -/
theorem test_disassemble :
    disassemble 0x00000105#32 = "DECODE src=out" ∧ disassemble 0x00000007#32 = "COMPRESS" ∧
    disassemble 0x800000FA#32 = ".word 0x800000FA" := by decide

/-! ### The commands -/

/-- V-FRQ, [0x00, 0x00, 0xFF]. -/
theorem test_freq : (nextOf (exec .freq (loaded [0x00#8, 0x00#8, 0xFF#8]))).any (fun t =>
    decide (t.tbl.ftOrder = [0x00#8, 0xFF#8] ∧ SymTable.get t.tbl.freq 0x00#8 = 2#32 ∧
      SymTable.get t.tbl.freq 0xFF#8 = 1#32 ∧ t.tbl.ftN = 2#32 ∧ t.tbl.ftTotal = 3#32)) = true := by decide

/-- V-FRQ, SYM_LEN = MAX_LEN + 1: ERR = 2. -/
theorem test_freq_len : (nextOf (exec .freq (State.reset.hostWrite 0x18#32 0x00100001#32))).any (fun t =>
    decide (t.err = .lenRange ∧ t.tbl.ftN = 0#32)) = true := by decide

/-- V-TRE, x:1, y:1, z:2: leaf z leaves the queue before the new node of the same frequency. -/
theorem test_tree_tie : (nextOf (exec .tree { State.reset with tbl := buildFrequencyTable xyzz })).any (fun t =>
    decide (t.tre.node.drop 3 = [⟨false, 0#8, 2#32, 0#9, 1#9⟩, ⟨false, 0#8, 4#32, 2#9, 3#9⟩] ∧
      t.tre.root = 4#9 ∧ t.tre.nodeCount = 5#32 ∧ t.tre.shape = .general)) = true := by decide

/-- V-TRE, 0x00:2, 0xFF:1: left is the lower frequency. -/
theorem test_tree_left :
    (nextOf (exec .tree { State.reset with tbl := buildFrequencyTable [0x00#8, 0x00#8, 0xFF#8] })).any (fun t =>
      decide (t.tre.node.drop 2 = [⟨false, 0#8, 3#32, 1#9, 0#9⟩])) = true := by decide

/-- V-COD, "xyzz". -/
theorem test_codes : (nextOf (exec .codes (withTree xyzz State.reset))).any (fun t =>
    decide (SymTable.get t.cb 0x7A#8 = [false] ∧ SymTable.get t.cb 0x78#8 = [true, false] ∧
      SymTable.get t.cb 0x79#8 = [true, true] ∧ SymTable.get t.cb 0x61#8 = [])) = true := by decide

/-- V-COD, "aaaa". -/
theorem test_codes_single : (nextOf (exec .codes (withTree [0x61#8, 0x61#8] State.reset))).any (fun t =>
    decide (SymTable.get t.cb 0x61#8 = [false])) = true := by decide

/-- The CodeBook of "aabb" (V-COD). -/
def aabbCodes : CodeBook := SymTable.set (SymTable.set CodeBook.empty 0x61#8 [false]) 0x62#8 [true]

/-- V-ENC, "abc" with the CodeBook of "aabb". -/
theorem test_encode : (nextOf (exec .encode ((loaded [0x61#8, 0x62#8, 0x63#8]).setCodes aabbCodes))).any (fun t =>
    decide (t.enc.bitOut = [false, true] ∧ t.enc.bitOutLen = 2#32 ∧ t.enc.encSkip = 1#32 ∧
      t.view (.bitOut 0) = 0x40000000#32)) = true := by decide

/-- R180: CAPACITY, and nothing written. -/
theorem test_encode_capacity : (nextOf (exec .encode tiny)).any (fun t =>
    decide (t.err = .capacity ∧ t.enc = Encoded.empty)) = true := by decide

/-- V-DEC 10: the tree of "xyzz", "1011001". -/
theorem test_decode_in :
    (nextOf (exec (.decode .bitIn)
      (loadedBits [true, false, true, true, false, false, true] (withTree xyzz State.reset)))).any (fun t =>
        decide (t.dec.symOut = xyzz ∧ t.dec.symOutLen = 4#32 ∧ t.dec.decTail = 1#32)) = true := by decide

/-- V-DEC 4, from BIT_OUT: one symbol per bit of a single-leaf tree, whatever the bit. -/
theorem test_decode_out :
    (nextOf (exec (.decode .bitOut)
      ((withTree [0x61#8] State.reset).setEncoded ⟨[false, true, false, true], 4#32, 0#32⟩))).any (fun t =>
        decide (t.dec.symOut = [0x61#8, 0x61#8, 0x61#8, 0x61#8] ∧ t.dec.decTail = 0#32)) = true := by decide

/-- V-ST 5: truncation toward zero. -/
theorem test_stats_trunc :
    (nextOf (exec .stats ((State.reset.hostWrite 0x18#32 3#32).setEncoded ⟨List.replicate 25 false, 25#32, 0#32⟩))).any
      (fun t => decide (t.sts = ⟨24#32, 25#32, 0xFFFFFF9C#32, 24#32, 0xFFFFFE60#32, 0#32⟩)) = true := by decide

/-- V-ST 12: saturation. -/
theorem test_stats_saturate : statsOf 8 16777216 = ⟨8#32, 16777216#32, 0x9C000320#32, 8#32, 0x80000000#32, 0#32⟩ := by
  decide

/-- V-CMP, "aabb". -/
theorem test_compress : (nextOf (exec .compress (loaded aabb))).any (fun t =>
    decide (t.tbl.ftN = 2#32 ∧ t.tre.nodeCount = 3#32 ∧ t.tre.root = 2#9 ∧ t.enc.bitOutLen = 4#32 ∧
      t.view (.bitOut 0) = 0x30000000#32 ∧ t.sts = ⟨32#32, 4#32, 2800#32, 32#32, 8750#32, 28#32⟩)) = true := by decide

/-- V-CLR: CLEAR keeps the inputs, CTRL and OVR. -/
theorem test_clear :
    (nextOf (exec .clear (running 0x8#32
      { (withTree aabb (loaded aabb)) with ie := true, ovr := true }))).any (fun t =>
        decide (t.tbl.ftN = 0#32 ∧ t.tre.shape = .absent ∧ t.inp.symLen = 4#32 ∧ t.inp.symAt 3 = 0x62#8 ∧
          t.ie = true ∧ t.statusWord = 0x00080006#32)) = true := by decide

/-- R243: an illegal word completes with ERR = 1 (V-CMD 0x0000_0205: STATUS). -/
theorem test_illegal : (nextOf (step (State.reset.withFetchWord 32 0x205))).any (fun t =>
    decide (t.statusWord = 0x00050012#32)) = true := by decide

/-! ### The host port (V-LC) -/

/-- V-LC 1 to 4. -/
theorem test_reset_reads :
    (State.reset.hostRead 0x14#32).1 = 0#32 ∧ (State.reset.hostRead 0x0#32).1 = 0x48554631#32 ∧
    (State.reset.hostRead 0x4#32).1 = 0x00100000#32 ∧ (State.reset.hostRead 0x8#32).1 = 0x01000000#32 ∧
    (State.reset.hostRead 0x58#32).1 = 0#32 ∧ (State.reset.hostRead 0xF00#32).1 = 0#32 ∧
    (State.reset.hostRead 0x08000000#32).1 = 0#32 ∧ (State.reset.hostRead 0xFFFFFFFC#32).1 = 0#32 := by decide

/-- V-LC 6: address bits 1..0 are ignored. -/
theorem test_issue_unaligned : (State.reset.hostWrite 0x13#32 8#32).seq = .busy 8#32 := by decide

/-- V-LC 11: an issue while FREQ runs is dropped. -/
theorem test_issue_busy : (running 1#32 State.reset).hostWrite 0x10#32 2#32 = { running 1#32 State.reset with ovr := true } :=
  rfl

/-- V-LC 12 and 16: an input write is dropped while busy, a CTRL write is not. -/
theorem test_busy_writes :
    ((running 1#32 State.reset).hostWrite 0x18#32 7#32).inp.symLen = 0#32 ∧
    ((running 1#32 State.reset).hostWrite 0x18#32 7#32).ovr = true ∧
    ((running 1#32 State.reset).hostWrite 0x0C#32 1#32).ie = true := by decide

/-- V-LC 17 and 18. -/
theorem test_input_windows :
    ((State.reset.hostWrite 0x01000000#32 0x12345661#32).hostRead 0x01000000#32).1 = 0x61#32 ∧
    ((State.reset.hostWrite 0x02000000#32 0xB2000000#32).hostRead 0x02000000#32).1 = 0xB2000000#32 := by decide

/-- The NODE window of a leaf (V-TRE, the window vectors): IS_LEAF in bit 31, SYM in bits 7..0. -/
theorem test_node_window : (withTree xyzz State.reset).view (.node 0 .info) = 0x80000078#32 := by decide

/-- The CB window (R82): code bit 0 in bit 31 of word 1. -/
theorem test_cb_window :
    (State.reset.setCodes aabbCodes).view (.cb 0x62#8 0) = 1#32 ∧
    (State.reset.setCodes aabbCodes).view (.cb 0x62#8 1) = 0x80000000#32 := by decide

/-- R20, V-CMP "aabb": the result registers at their offsets (FT_N, FT_TOTAL, ROOT, STAT_RATIO_NUM, STAT_RATIO_BP). -/
theorem test_result_registers : (nextOf (exec .compress (loaded aabb))).any (fun t =>
    decide ((t.hostRead 0x30#32).1 = 2#32 ∧ (t.hostRead 0x34#32).1 = 4#32 ∧ (t.hostRead 0x3C#32).1 = 2#32 ∧
      (t.hostRead 0x48#32).1 = 2800#32 ∧ (t.hostRead 0x50#32).1 = 8750#32)) = true := by decide

/-- P2: `fillbits "0101"`, and the wait loop at position 0. -/
theorem test_assemble :
    assemble [.fillbits [false, true, false, true], .label 5, .wait, .goto 2 7 4 0 5] =
      some [.wr 0x02000000#32 0x50000000#32, .wr 0x1C#32 4#32, .rd 0x14#32 0, .br 0 0 0 1 2, .br 3 7 4 0 2] := by decide

/-- An undefined label has no position. -/
theorem test_assemble_noLabel : assemble [.goto 2 7 4 0 5] = none := by decide

theorem test_reset_memory : Memory.wf State.reset.inp.symIn ∧ Memory.wf State.reset.inp.bitIn := by decide

/-! ### Witnesses: states and operands that meet the hypotheses of the statements -/

/-- A session a run reaches: the table, tree and CodeBook of "aabb", with COMPRESS running and two host statements
still to go by. -/
def session : State :=
  { withTree aabb (loaded aabb) with
    cb := aabbCodes, seq := .busy 7#32, lastOp := 7#8, env := ⟨2, [], 0⟩
    host := ⟨[.rd 0x14#32 0, .br 0 0 0 1 0], 0, []⟩ }

/-- The table, the tree and the CodeBook of a text are consistent: the hypotheses of TreeIsFullOverTheKeys,
TreeMergesTheTwoLeast, CodesAreThePaths, CodesArePrefixFreeAndFull and DecodeWalksTheTree. -/
theorem witness_table (text : List Symbol) (h : text.length ≤ 2 ^ 20) :
    (buildFrequencyTable text).Ok Config.defaults ∧
      (huffman (buildFrequencyTable text).freq (buildFrequencyTable text).ftOrder).Ok :=
  ⟨buildFrequencyTable_ok text Config.defaults h, buildTree_tree_ok (buildFrequencyTable_ok text Config.defaults h)⟩

theorem witness_table_sizes :
    (buildFrequencyTable []).ftN.toNat = 0 ∧ (buildFrequencyTable [0x61#8]).ftOrder = [0x61#8] ∧
    (buildFrequencyTable aabb).ftN.toNat = 2 := by decide

/-- StepKeepsInvariant, NoStepStops, AcceptedCommandCompletes: a state with the invariant in which a command runs. -/
theorem witness_inv : session.Inv ∧ session.isBusy = true ∧ ∃ t, step session = .next t := by
  obtain ⟨ht, hh⟩ := witness_table aabb (by decide)
  have hc : CodeBook.Ok aabbCodes := by
    intro x
    simp only [aabbCodes, SymTable.get_set]
    split
    · decide
    · split
      · decide
      · exact CodeBook.empty_ok x
  refine ⟨⟨ht, hh, hc, ⟨by decide, by decide⟩, ⟨by decide, by decide, by decide⟩, by decide,
    ⟨by decide, by decide, by decide, by decide⟩, ?_⟩, rfl, _, rfl⟩
  intro w hw
  cases hw
  exact ⟨rfl, by decide⟩

/-- AcceptedCommandCompletes: a completion ends the command of `session`, whose list holds no `rst`; and with `rst` as
the next entry of the outside, its completion is not the next step. -/
theorem witness_completes :
    session.seq = .busy 7#32 ∧ PortOp.rst ∉ session.host.prog ∧
    (∃ t, runCommand 7#32 session = .next t ∧ decide (t.done = true ∧ t.err = .ok) = true) ∧
    (before .rst session).seq = .busy 7#32 ∧ (before .rst session).host.next = some .rst ∧
    (before .rst session).completionDue = false :=
  ⟨rfl, by decide, nextOf_any (by decide), rfl, rfl, by decide⟩

/-- DecodeInvertsEncode; the words of LegalWordsAreTheNine and IllegalWordsAreThose at both outcomes. -/
theorem witness_words :
    Instr.wf (.decode .bitOut) = true ∧ decodeCmd 0x105#32 = .ok (.decode .bitOut) ∧
    decodeCmd 0x104#32 = .error .sourceSelect := by decide

/-- StepRunsDecodedCommand, each clause. -/
theorem witness_step :
    ((State.reset.withFetchWord 32 0x105).seq = .busy 0x105#32 ∧
      (State.reset.withFetchWord 32 0x105).completionDue = true ∧ decodeCmd 0x105#32 = .ok (.decode .bitOut)) ∧
    (session.seq = .busy 7#32 ∧ session.completionDue = false) ∧
    State.reset.seq = .idle := by decide

/-- IllegalWordWritesNoData, IssueWhileIdleIsAccepted, IssueWhileBusyIsDropped: the word at both ends of CMD. -/
theorem witness_issue :
    decodeCmd 9#32 = .error .opcode ∧ State.reset.seq = .idle ∧ (0x10#32).toNat / 4 = 0x10 / 4 ∧
    (0x13#32).toNat / 4 = 0x10 / 4 ∧ (running 9#32 State.reset).seq = .busy 9#32 ∧
    (running 9#32 State.reset).completionDue = true := by decide

/-- AccessWhileBusy, InputWritesReadBack, ReservedAndReadOnlyPlaces, ControlAndLengthRegisters, InterruptFollowsDone,
StatusFields, StatusWriteClears, ReadsHaveNoSideEffect: the places at the ends of each range (default parameters). -/
theorem witness_places_inputs :
    locate Config.defaults 0x18#32 = .reg .symLen ∧ locate Config.defaults 0x1F#32 = .reg .bitInLen ∧
    locate Config.defaults 0x01000000#32 = .symIn 0 ∧ locate Config.defaults 0x013FFFFC#32 = .symIn (2 ^ 20 - 1) ∧
    locate Config.defaults 0x02000000#32 = .bitIn 0 ∧ locate Config.defaults 0x021FFFFC#32 = .bitIn (2 ^ 19 - 1) := by
  and_intros <;> decide +kernel

theorem witness_places_registers :
    locate Config.defaults 0x00#32 = .reg .id ∧ locate Config.defaults 0x04#32 = .reg .paramMaxLen ∧
    locate Config.defaults 0x08#32 = .reg .paramMaxBits ∧ locate Config.defaults 0x0C#32 = .reg .ctrl ∧
    locate Config.defaults 0x10#32 = .reg .cmd ∧ locate Config.defaults 0x14#32 = .reg .status ∧
    locate Config.defaults 0x17#32 = .reg .status := by
  and_intros <;> decide

theorem witness_places_results :
    locate Config.defaults 0x20#32 = .reg .bitOutLen ∧ locate Config.defaults 0x57#32 = .reg .statSavedBits ∧
    locate Config.defaults 0x1000#32 = .freq 0#8 ∧ locate Config.defaults 0x13FC#32 = .freq 255#8 ∧
    locate Config.defaults 0x1400#32 = .ftOrder 0 ∧ locate Config.defaults 0x17FC#32 = .ftOrder 255 ∧
    locate Config.defaults 0x2000#32 = .node 0 .freq ∧ locate Config.defaults 0x3FFC#32 = .node 511 .right ∧
    locate Config.defaults 0x4000#32 = .cb 0#8 0 ∧ locate Config.defaults 0x7FFC#32 = .cb 255#8 15 ∧
    locate Config.defaults 0x03000000#32 = .bitOut 0 ∧ locate Config.defaults 0x031FFFFC#32 = .bitOut (2 ^ 19 - 1) ∧
    locate Config.defaults 0x04000000#32 = .symOut 0 ∧ locate Config.defaults 0x07FFFFFC#32 = .symOut (2 ^ 24 - 1) := by
  and_intros <;> decide +kernel

/-- AddressMap, ReservedAndReadOnlyPlaces: the reserved places at the ends of each range. -/
theorem witness_places_reserved :
    locate Config.defaults 0x58#32 = .reserved ∧ locate Config.defaults 0xFFF#32 = .reserved ∧
    locate Config.defaults 0x1800#32 = .reserved ∧ locate Config.defaults 0x1FFC#32 = .reserved ∧
    locate Config.defaults 0x8000#32 = .reserved ∧ locate Config.defaults 0x00FFFFFC#32 = .reserved ∧
    locate Config.defaults 0x01400000#32 = .reserved ∧ locate Config.defaults 0x01FFFFFC#32 = .reserved ∧
    locate Config.defaults 0x02200000#32 = .reserved ∧ locate Config.defaults 0x03FFFFFC#32 = .reserved ∧
    locate tinyParams 0x04000080#32 = .reserved ∧ locate tinyParams 0x0400007C#32 = .symOut 31 ∧
    locate Config.defaults 0x08000000#32 = .reserved ∧ locate Config.defaults 0xFFFFFFFF#32 = .reserved := by
  and_intros <;> decide +kernel

/-- AccessWhileBusy: the kinds of place. -/
theorem witness_place_kinds :
    (running 1#32 State.reset).seq = .busy 1#32 ∧ Loc.isResult (.reg .bitOutLen) = true ∧
    Loc.isResult (.symOut 0) = true ∧ Loc.isResult (.reg .symLen) = false ∧ Loc.isResult .reserved = false := by decide

/-- FreqCountsTheInput, FreqOrderIsFirstOccurrence, StatsAreExact, CompressIsTheFiveSteps: lengths at both ends. -/
theorem witness_lengths :
    State.reset.inp.symLen.toNat ≤ State.reset.cfg.maxLen ∧
    (State.reset.hostWrite 0x18#32 0x00100000#32).inp.symLen.toNat ≤ State.reset.cfg.maxLen := by decide

theorem witness_freq : ∃ t, exec .freq (loaded aabb) = .next t ∧
    decide (0x61#8 ∈ t.tbl.ftOrder ∧ 0x62#8 ∈ t.tbl.ftOrder) = true := nextOf_any (by decide)

/-- FreqDependsOnTheInputOnly: states that differ elsewhere. -/
theorem witness_freq_inputs :
    (loaded aabb).inp.symLen = ((loaded aabb).setCodes aabbCodes).inp.symLen ∧
    ∀ i, i < (loaded aabb).inp.symLen.toNat →
      (loaded aabb).inp.symAt i = ((loaded aabb).setCodes aabbCodes).inp.symAt i := ⟨rfl, fun _ _ => rfl⟩

/-- LengthErrorsWriteNothing, OneErrorCodeByOrder, ErrorsWriteNoData: both checks fail. -/
theorem witness_length_errors :
    State.reset.cfg.maxLen < (State.reset.hostWrite 0x18#32 0x00100001#32).inp.symLen.toNat ∧
    State.reset.cfg.maxBits < (State.reset.hostWrite 0x1C#32 0x01000001#32).inp.bitInLen.toNat ∧
    tiny.cfg.maxBits < tiny.inp.bitInLen.toNat := by decide

theorem witness_no_length_error : ∃ t, exec .clear State.reset = .next t ∧ (fun _ => true) t = true :=
  nextOf_any (by decide)

theorem witness_error_codes :
    (∃ t, runCommand 9#32 State.reset = .next t ∧ decide (t.err = .illegalCmd) = true) ∧
    (∃ t, runCommand 4#32 tiny = .next t ∧ decide (t.err = .capacity) = true) ∧
    (∃ t, runCommand 1#32 (State.reset.hostWrite 0x18#32 0x00100001#32) = .next t ∧ decide (t.err ≠ .ok) = true) :=
  ⟨nextOf_any (by decide), nextOf_any (by decide), nextOf_any (by decide)⟩

/-- OneErrorCodeByOrder, the last clause: OVR cleared by a STATUS write. -/
theorem witness_ovr_clears :
    ∃ t, step { State.reset with ovr := true, host := ⟨[.wr 0x14#32 4#32], 0, []⟩ } = .next t ∧
      decide (t.ovr = false) = true := nextOf_any (by decide)

/-- StatusChangesAsListed: each field of STATUS changed, by an issue, a completion, a dropped write and two
acknowledgements. -/
theorem witness_status_issue :
    ∃ t, step (before (.wr 0x10#32 0x105#32) { State.reset with done := true }) = .next t ∧
      decide (t.isBusy = true ∧ t.done = false ∧ t.lastOp = 5#8) = true := nextOf_any (by decide)

theorem witness_status_completion :
    ∃ t, step (State.withFetchWord { State.reset with err := .capacity } 32 8) = .next t ∧
      decide (t.isBusy = false ∧ t.done = true ∧ t.err = .ok) = true := nextOf_any (by decide)

theorem witness_status_dropped :
    ∃ t, step (before (.wr 0x10#32 8#32) { running 1#32 State.reset with env := ⟨1, [], 0⟩ }) = .next t ∧
      decide (t.ovr = true ∧ t.seq = .busy 1#32) = true := nextOf_any (by decide)

theorem witness_status_cleared :
    ∃ t, step (before (.wr 0x14#32 6#32) { State.reset with done := true, ovr := true }) = .next t ∧
      decide (t.done = false ∧ t.ovr = false) = true := nextOf_any (by decide)

/-- EncodeConcatenatesEntries, OneErrorCodeByOrder, CompressIsTheFiveSteps: CAPACITY; and the input that fits. -/
theorem witness_capacity :
    tiny.inp.symLen.toNat ≤ tiny.cfg.maxLen ∧
    tiny.cfg.maxBits < (tiny.symInput.map (fun x => (SymTable.get tiny.cb x).length)).sum ∧
    (((loaded aabb).setCodes aabbCodes).symInput.map
      (fun x => (SymTable.get ((loaded aabb).setCodes aabbCodes).cb x).length)).sum ≤ (loaded aabb).cfg.maxBits := by
  decide

/-- TreeMergesTheTwoLeast, TreeDependsOnTheTableOnly, WritersOfTreeAndCodes. -/
theorem witness_tree :
    ∃ t, exec .tree { State.reset with tbl := buildFrequencyTable aabb } = .next t ∧
      decide ((t.tre.node[2]?.map NodeRec.isLeaf) = some false ∧ t.tre ≠ State.reset.tre) = true := nextOf_any (by decide)

theorem witness_tree_step :
    ∃ t, step (State.withFetchWord { State.reset with tbl := buildFrequencyTable aabb } 32 2) = .next t ∧
      decide (t.tre ≠ State.reset.tre) = true := nextOf_any (by decide)

theorem witness_codes_step :
    ∃ t, step (State.withFetchWord (withTree aabb State.reset) 32 3) = .next t ∧
      decide (t.cb ≠ State.reset.cb) = true := nextOf_any (by decide +kernel)

/-- CodesArePrefixFreeAndFull: a general tree and its codes. -/
theorem witness_codes :
    ∃ t, exec .codes (withTree aabb State.reset) = .next t ∧
      decide (t.tre.shape = .general ∧ SymTable.get t.cb 0x61#8 ≠ [] ∧ SymTable.get t.cb 0x62#8 ≠ []) = true :=
  nextOf_any (by decide)

/-- EncodedLengthIsWeighted, RoundTrip: the four commands one after another on "aabb". -/
theorem witness_four_commands :
    ∃ s1, exec .freq (loaded aabb) = .next s1 ∧ ((nextOf (exec .tree s1)).any (fun s2 =>
      (nextOf (exec .codes s2)).any (fun s3 => (nextOf (exec .encode s3)).any (fun s4 =>
        decide (s1.err = .ok ∧ s4.err = .ok ∧ s4.enc.bitOutLen = 4#32))))) = true := nextOf_any (by decide)

theorem witness_compress :
    ∃ t, exec .compress (loaded aabb) = .next t ∧ decide (t.err = .ok ∧ t.tre.shape = .general) = true :=
  nextOf_any (by decide)

/-- DecodeWalksTheTree: both sources. -/
theorem witness_decode :
    (loadedBits [true, false] (withTree aabb State.reset)).inp.bitInLen.toNat ≤ State.reset.cfg.maxBits ∧
    Encoded.Ok Config.defaults ⟨[true, false], 2#32, 0#32⟩ := ⟨by decide, by decide, by decide⟩

/-- StatsAreExact: the operands. -/
theorem witness_stats : Encoded.Ok Config.defaults ⟨List.replicate 25 false, 25#32, 0#32⟩ := ⟨by decide, by decide⟩

/-- RstGivesResetValues: `rst` while idle, and while a command runs whose completion is not due. -/
theorem witness_rst :
    (HostAgent.next ⟨[.rst], 0, []⟩ = some .rst) ∧
    State.completionDue { State.reset with
      seq := .busy 1#32, host := ⟨[.rst], 0, []⟩, env := ⟨1, [], 0⟩ } = false ∧
    Loc.isResult (.reg .ftN) = true := by decide

/-- CommandsWriteOnlyTheirOwn, CommandsReadNoFlag: a place outside the command's column; states that differ in flags. -/
theorem witness_frame :
    mayWrite .freq (.node 0 .freq) = false ∧ mayWrite .compress (.symOut 0) = false ∧ writesShape .codes = false ∧
    (State.reset ≠ { State.reset with done := true, ovr := true, ie := true }) := by
  refine ⟨by decide, by decide, by decide, fun h => ?_⟩
  exact absurd (congrArg State.done h) (by decide)

/-- SessionChangesOnlyAtCompletion: an idle step, and a step of a running command that is not due. -/
theorem witness_host_steps :
    (∃ t, step State.reset = .next t ∧ (fun _ => true) t = true) ∧ State.reset.isBusy = false ∧
    State.reset.host.next ≠ some .rst ∧ session.completionDue = false ∧
    session.host.next ≠ some .rst ∧
    (∃ t, step session = .next t ∧ (fun _ => true) t = true) :=
  ⟨nextOf_any (by decide), by decide, by decide, by decide, by decide, nextOf_any (by decide)⟩

/-- InterruptFollowsDone: the words. -/
theorem witness_ack : (6#32).getLsbD 1 = true ∧ (∃ t, runCommand 8#32 State.reset = .next t ∧ t.done = true) :=
  ⟨by decide, nextOf_any (by decide)⟩

/-- ResultWindowWords: slots inside and past a tree of three nodes. -/
theorem witness_slots :
    (withTree aabb State.reset).tre.nodeCount.toNat = 3 ∧
    (withTree aabb State.reset).tre.node[2]? = some ⟨false, 0#8, 4#32, 0#9, 1#9⟩ := by decide

/-- HostStatementsExpand, BranchesTestAField. -/
theorem witness_statements :
    labelPos [(1, 0), (5, 2)] 5 = some 2 ∧ labelPos [(1, 0), (1, 2)] 1 = none ∧
    Stmt.wf Config.defaults (.wr (.symIn (2 ^ 20 - 1)) 0#32) = true ∧
    Stmt.wf Config.defaults (.rd (.symOut (2 ^ 24 - 1)) 0) = true ∧ Memory.find [(3, 0x20#32)] 3 = some 0x20#32 ∧
    ((0x20#32).extractLsb' 4 (7 - 4 + 1)).toNat = 2 := by decide

/-- LabelsNameTheNextStatement. -/
theorem witness_labels :
    assemble ([.ack] ++ .label 1 :: [.goto 0 0 0 1 1]) = some [.wr 0x14#32 6#32, .br 1 0 0 1 1] ∧
    Stmt.label 1 ∉ [Stmt.ack] ∧ Stmt.label 1 ∉ [Stmt.goto 0 0 0 1 1] := by decide

/-- FillLoadsTheInputs: the longest input of the smallest HUFC. -/
theorem witness_fill :
    tiny.seq = .idle ∧ [0x61#8].length ≤ tiny.cfg.maxLen ∧ (List.replicate 32 true).length ≤ tiny.cfg.maxBits := by decide

/-- WaitLoopsWhileBusy: the loop at the end of a program. -/
theorem witness_wait :
    session.host.pos = 0 ∧ session.host.prog[0]? = some (.rd 0x14#32 waitTemp) ∧
    session.host.prog[0 + 1]? = some (.br waitTemp 0 0 1 0) ∧
    session.isBusy = true := by decide

/-- WorkedExampleAbracadabra. -/
theorem witness_abracadabra :
    (loaded [0x61#8, 0x62#8, 0x72#8, 0x61#8, 0x63#8, 0x61#8, 0x64#8, 0x61#8, 0x62#8, 0x72#8, 0x61#8]).inp.symLen = 11#32 ∧
    (loaded [0x61#8, 0x62#8, 0x72#8, 0x61#8, 0x63#8, 0x61#8, 0x64#8, 0x61#8, 0x62#8, 0x72#8, 0x61#8]).symInput =
      [0x61#8, 0x62#8, 0x72#8, 0x61#8, 0x63#8, 0x61#8, 0x64#8, 0x61#8, 0x62#8, 0x72#8, 0x61#8] := by decide

end Sys2Proof.Tests
end

section
/-! SUPPORT and O12. The invariant of the machine (spec/10_state.md R35, R37, R40 to R43): its reset values, one lemma per
update of State, and every step. -/

namespace Sys2Proof.Machine

/-! ### The values of reset and CLEAR (R220, R270) -/

theorem FreqTable.empty_ok (p : Params) : FreqTable.empty.Ok p where
  size := rfl
  distinct := List.nodup_nil
  keys x := by simp [FreqTable.empty]
  total := by
    rw [SymTable.sum_eq]
    exact (Finset.sum_eq_zero fun x _ => by simp [FreqTable.empty]).symm
  bound := Nat.zero_le _

theorem HuffTree.absent_ok : HuffTree.absent.Ok := ⟨rfl, rfl, rfl⟩

theorem Encoded.empty_ok (p : Params) : Encoded.empty.Ok p := ⟨rfl, Nat.zero_le _⟩

theorem Decoded.empty_ok (p : Params) : Decoded.empty.Ok p := ⟨rfl, Nat.zero_le _, Nat.zero_le _⟩

theorem Stats.zero_ratioDen : Stats.zero.ratioDen ≠ 0#32 := by decide

theorem Inputs.blank_ok (p : Params) (launch : Nat) : (Inputs.blank launch).Ok p where
  symForm := List.Pairwise.nil
  symRange := by simp [Inputs.blank]
  bitForm := List.Pairwise.nil
  bitRange := by simp [Inputs.blank]

/-! ### What the bodies of the commands build -/

/-- The stream ENCODE writes is consistent: one that does not fit is refused (R40, R180). -/
theorem encodeSymbols_ok {p : Params} {c : CodeBook} {syms : List Symbol} {e : Encoded}
    (h : encodeSymbols p.maxBits c syms = some e) : e.Ok p := by
  obtain ⟨hfits, hbits, hlen, -⟩ := encodeSymbols_some h
  have hlegal := p.legal
  constructor
  · rw [hlen, hbits, encodedBits_length, BitVec.toNat_ofNat, Nat.mod_eq_of_lt (by omega)]
  · rwa [hbits, encodedBits_length]

/-- The sequence DECODE writes is consistent: it has no more symbols than the stream has bits (R41, R192, R195). -/
theorem decodedOf_ok {p : Params} {t : HuffTree} (ht : t.Ok) {bits : Bits} (hbits : bits.length ≤ p.maxBits)
    {out : List Symbol} {tail : Nat} (h : decodeBits t bits = .ok (out, tail)) : (decodedOf out tail).Ok p := by
  obtain ⟨out', tail', h', hout, htail⟩ := decodeBits_ok ht bits
  obtain ⟨rfl, rfl⟩ : out = out' ∧ tail = tail' := by simpa [h] using h'
  have hlegal := p.legal
  constructor
  · show (BitVec.ofNat 32 out.length).toNat = out.length
    rw [BitVec.toNat_ofNat, Nat.mod_eq_of_lt (by omega)]
  · exact hout.trans hbits
  · show (BitVec.ofNat 32 tail).toNat ≤ 254
    rw [BitVec.toNat_ofNat, Nat.mod_eq_of_lt (by omega)]
    exact htail

/-- STAT_RATIO_DEN is not 0 where the original size fits its register (R43, R212). -/
theorem statsOf_ratioDen {orig : Nat} (h : orig < 2 ^ 32) (comp : Nat) : (statsOf orig comp).ratioDen ≠ 0#32 := by
  intro h0
  have h1 : ratioDenOf orig % 2 ^ 32 = 0 := by simpa [statsOf] using congrArg BitVec.toNat h0
  unfold ratioDenOf at h1
  split at h1 <;> omega

/-! ### One lemma per update of State -/

section
variable {s : State}

/-- A length that passes the check of R242 is at most MAX_LEN. -/
theorem State.symLen_le (hb : s.symLenBad = false) : s.inp.symLen.toNat ≤ s.cfg.maxLen := by
  simpa [State.symLenBad] using hb

theorem State.bitInLen_le (hb : s.bitInLenBad = false) : s.inp.bitInLen.toNat ≤ s.cfg.maxBits := by
  simpa [State.bitInLenBad] using hb

namespace State.Inv

theorem setTable (h : s.Inv) {x : FreqTable} (hx : x.Ok s.cfg) : (s.setTable x).Inv := { h with tbl := hx }

theorem setTree (h : s.Inv) {x : HuffTree} (hx : x.Ok) : (s.setTree x).Inv := { h with tre := hx }

theorem setCodes (h : s.Inv) {c : CodeBook} (hc : c.Ok) : (s.setCodes c).Inv := { h with cb := hc }

theorem setEncoded (h : s.Inv) {e : Encoded} (he : e.Ok s.cfg) : (s.setEncoded e).Inv := { h with enc := he }

theorem setDecoded (h : s.Inv) {d : Decoded} (hd : d.Ok s.cfg) : (s.setDecoded d).Inv := { h with dec := hd }

theorem setStats (h : s.Inv) {x : Stats} (hx : x.ratioDen ≠ 0#32) : (s.setStats x).Inv := { h with den := hx }

theorem clearSession (h : s.Inv) : s.clearSession.Inv where
  tbl := FreqTable.empty_ok _
  tre := HuffTree.absent_ok
  cb := CodeBook.empty_ok
  enc := Encoded.empty_ok _
  dec := Decoded.empty_ok _
  den := Stats.zero_ratioDen
  inp := h.inp
  life := h.life

/-- Completion leaves HUFC idle, where the life cycle asks nothing (R246). -/
theorem complete (h : s.Inv) (code : ErrCode) : (s.complete code).Inv := { h with life := nofun }

/-- An accepted issue clears DONE and records the opcode byte (R245). -/
theorem acceptWord (h : s.Inv) (w : Word) : (s.acceptWord w).Inv :=
  { h with life := fun _ hv => by cases hv; exact ⟨rfl, rfl⟩ }

theorem setOvr (h : s.Inv) : s.setOvr.Inv := { h with }

theorem writeCtrl (h : s.Inv) (w : Word) : (s.writeCtrl w).Inv := { h with }

/-- A STATUS write can only clear DONE (R27). -/
theorem writeStatus (h : s.Inv) (w : Word) : (s.writeStatus w).Inv :=
  { h with
    life := fun v hv =>
      let ⟨hdone, hlast⟩ := h.life v hv
      ⟨by simp [hdone], hlast⟩ }

/-- The invariant says nothing of the host and of the open timing. -/
theorem withOutside (h : s.Inv) (a : HostAgent) (e : Env) : State.Inv { s with host := a, env := e } := { h with }

theorem hostAt (h : s.Inv) (n : Nat) : (s.hostAt n).Inv := h.withOutside _ _

theorem tickDue (h : s.Inv) : s.tickDue.Inv := h.withOutside _ _

theorem drawLatency (h : s.Inv) : s.drawLatency.Inv := by
  unfold State.drawLatency
  split <;> exact h.withOutside _ _

theorem assertRst (s : State) : s.assertRst.Inv where
  tbl := FreqTable.empty_ok _
  tre := HuffTree.absent_ok
  cb := CodeBook.empty_ok
  enc := Encoded.empty_ok _
  dec := Decoded.empty_ok _
  den := Stats.zero_ratioDen
  inp := Inputs.blank_ok _ _
  life := nofun

/-! ### Transactions and the turn of the outside -/

theorem issue (h : s.Inv) (w : Word) : (s.issue w).Inv := by
  cases hq : s.seq with
  | idle => rw [s.issue_idle hq]; exact (h.acceptWord w).drawLatency
  | busy v => rw [s.issue_busy hq]; exact h.setOvr

theorem writeInput (h : s.Inv) {x : Inputs} (hx : x.Ok s.cfg) : (s.writeInput x).Inv := by
  cases hq : s.seq with
  | idle => rw [s.writeInput_idle hq]; exact { h with inp := hx }
  | busy v => rw [s.writeInput_busy hq]; exact h.setOvr

end State.Inv

theorem Inputs.Ok.putSym {p : Params} {x : Inputs} (h : x.Ok p) {i : Nat} (hi : i < p.maxLen) (v : Symbol) :
    Inputs.Ok p { x with symIn := Memory.put x.symIn i v } :=
  { h with
    symForm := Memory.wf_put _ _ _ h.symForm
    symRange := fun _ hc => (Memory.mem_put _ _ _ hc).elim (fun e => e ▸ hi) (h.symRange _) }

theorem Inputs.Ok.putBits {p : Params} {x : Inputs} (h : x.Ok p) {j : Nat} (hj : j < p.maxBits / 32) (v : Word) :
    Inputs.Ok p { x with bitIn := Memory.put x.bitIn j v } :=
  { h with
    bitForm := Memory.wf_put _ _ _ h.bitForm
    bitRange := fun _ hc => (Memory.mem_put _ _ _ hc).elim (fun e => e ▸ hj) (h.bitRange _) }

namespace State.Inv

/-- A write to an implemented place: an index inside its window is an element that exists. -/
theorem writeLoc (h : s.Inv) {loc : Loc} (hloc : loc.wf s.cfg = true) (w : Word) : (s.writeLoc loc w).Inv := by
  rcases s.writeLoc_cases loc w with e | ⟨_, e⟩ | ⟨_, e⟩ | ⟨_, e⟩ | ⟨x, e, hx⟩ <;> rw [e]
  · exact h
  · exact h.writeCtrl w
  · exact h.writeStatus w
  · exact h.issue w
  · refine h.writeInput ?_
    rcases hx with ⟨_, rfl⟩ | ⟨_, rfl⟩ | ⟨i, rfl, rfl⟩ | ⟨j, rfl, rfl⟩
    · exact { h.inp with }
    · exact { h.inp with }
    · exact h.inp.putSym (by simpa [Loc.wf] using hloc) _
    · exact h.inp.putBits (by simpa [Loc.wf] using hloc) _

theorem hostWrite (h : s.Inv) (addr w : Word) : (s.hostWrite addr w).Inv := by
  unfold State.hostWrite
  rcases locate_wf s.cfg addr with e | e
  · rw [e]; exact h
  · exact h.writeLoc e w

theorem hostRead (h : s.Inv) (addr : Word) : (s.hostRead addr).2.Inv := by
  rcases s.hostRead_snd addr with e | e <;> rw [e]
  · exact h
  · exact h.withOutside _ _

theorem perform (h : s.Inv) (op : PortOp) : (s.perform op).Inv := by
  cases op with
  | rd addr t => exact (h.hostRead addr).withOutside _ _
  | wr addr w => exact (h.hostWrite addr w).hostAt _
  | br t hi lo v target => exact h.hostAt _
  | rst => exact (assertRst s).hostAt _

theorem hostTurn (h : s.Inv) : s.hostTurn.Inv := by
  unfold State.hostTurn
  split
  · exact h.perform _
  · exact h

/-! ### Commands -/

/-- STATS on a length that passed its check (R242): 8 · SYM_LEN does not wrap its register. -/
theorem setStatsOf (h : s.Inv) (hb : s.symLenBad = false) (comp : Nat) :
    (s.setStats (statsOf (8 * s.inp.symLen.toNat) comp)).Inv := by
  have hlegal := s.cfg.legal
  have hlen := State.symLen_le hb
  exact h.setStats (statsOf_ratioDen (by omega) comp)

theorem compressTail (h : s.Inv) (hb : s.symLenBad = false) : s.compressTail.Inv := by
  rcases compressTail_cases s with ⟨_, e⟩ | ⟨x, hx, e⟩ <;> rw [e]
  · exact h.complete _
  · exact ((h.setEncoded (encodeSymbols_ok hx)).setStatsOf hb _).complete _

theorem exec {i : Instr} {t : State} (h : s.Inv) (he : Machine.exec i s = .next t) : t.Inv := by
  cases i with
  | freq =>
    rcases execFreq_next he with ⟨_, rfl⟩ | ⟨hb, rfl⟩
    · exact h.complete _
    · exact (h.setTable (buildFrequencyTable_ok _ _ (by simpa using State.symLen_le hb))).complete _
  | tree =>
    obtain ⟨x, hx, rfl⟩ := execTree_next he
    rw [buildTree_ok h.tbl] at hx
    cases hx
    exact (h.setTree (buildTree_tree_ok h.tbl)).complete _
  | codes =>
    obtain ⟨c, hc, rfl⟩ := execCodes_next he
    exact (h.setCodes (generateCodes_bounded h.tre hc)).complete _
  | encode =>
    rcases execEncode_next he with ⟨_, rfl⟩ | ⟨_, _, rfl⟩ | ⟨_, x, hx, rfl⟩
    · exact h.complete _
    · exact h.complete _
    · exact (h.setEncoded (encodeSymbols_ok hx)).complete _
  | decode src =>
    rcases execDecode_next he with ⟨_, _, rfl⟩ | ⟨bits, out, tail, hd, rfl, hsrc⟩
    · exact h.complete _
    · refine (h.setDecoded (decodedOf_ok h.tre ?_ hd)).complete _
      rcases hsrc with ⟨_, hb, rfl⟩ | ⟨_, hf⟩
      · simpa using State.bitInLen_le hb
      · rw [firstOf_ok h.enc.size] at hf
        cases hf
        exact h.enc.bound
  | stats =>
    rcases execStats_next he with ⟨_, rfl⟩ | ⟨hb, rfl⟩
    · exact h.complete _
    · exact (h.setStatsOf hb _).complete _
  | compress =>
    rcases execCompress_next he with ⟨_, rfl⟩ | ⟨hb, x, c, hx, hc, rfl⟩
    · exact h.complete _
    · have htbl : (buildFrequencyTable s.symInput).Ok s.cfg :=
        buildFrequencyTable_ok _ _ (by simpa using State.symLen_le hb)
      rw [buildTree_ok htbl] at hx
      cases hx
      have htre := buildTree_tree_ok htbl
      exact State.Inv.compressTail
        (((h.setTable htbl).setTree htre).setCodes (generateCodes_bounded htre hc)) hb
  | clear =>
    rw [execClear_next he]
    exact h.clearSession.complete _

theorem runCommand {w : Word} {t : State} (h : s.Inv) (hr : Machine.runCommand w s = .next t) : t.Inv := by
  rcases runCommand_cases hr with ⟨i, _, he⟩ | ⟨_, _, rfl⟩
  · exact h.exec he
  · exact h.complete _

end State.Inv

end

/-- Settles O12, by the three kinds of step: a completion, and a turn of the outside while idle or while a command runs. -/
theorem stepKeepsInvariant : Obligations.StepKeepsInvariant := by
  intro s t h hstep
  rcases step_cases hstep with ⟨w, _, _, hrun⟩ | ⟨_, rfl⟩ | ⟨w, _, _, rfl⟩
  · exact h.runCommand hrun
  · exact h.hostTurn
  · exact h.tickDue.hostTurn

end Sys2Proof.Machine
end

section
/-! SUPPORT and O36. Who writes the tree and the CodeBook (spec/10_state.md R33, R36, R42). -/

namespace Sys2Proof.Machine

/-- The writers of the tree and of the CodeBook among the commands (R102). -/
theorem exec_treeAndCodes {i : Instr} {s t : State} (h : exec i s = .next t) :
    (t.tre = s.tre ∨ i = .tree ∨ i = .compress ∨ i = .clear) ∧
      (t.cb = s.cb ∨ i = .codes ∨ i = .compress ∨ i = .clear) := by
  cases i with
  | freq => rcases execFreq_next h with ⟨_, rfl⟩ | ⟨_, rfl⟩ <;> exact ⟨.inl rfl, .inl rfl⟩
  | tree => obtain ⟨x, _, rfl⟩ := execTree_next h; exact ⟨.inr (.inl rfl), .inl rfl⟩
  | codes => obtain ⟨c, _, rfl⟩ := execCodes_next h; exact ⟨.inl rfl, .inr (.inl rfl)⟩
  | encode =>
    rcases execEncode_next h with ⟨_, rfl⟩ | ⟨_, _, rfl⟩ | ⟨_, e, _, rfl⟩ <;> exact ⟨.inl rfl, .inl rfl⟩
  | decode src =>
    rcases execDecode_next h with ⟨_, _, rfl⟩ | ⟨_, out, tail, _, rfl, _⟩ <;> exact ⟨.inl rfl, .inl rfl⟩
  | stats => rcases execStats_next h with ⟨_, rfl⟩ | ⟨_, rfl⟩ <;> exact ⟨.inl rfl, .inl rfl⟩
  | compress => exact ⟨.inr (.inr (.inl rfl)), .inr (.inr (.inl rfl))⟩
  | clear => exact ⟨.inr (.inr (.inr rfl)), .inr (.inr (.inr rfl))⟩

/-- A step either keeps the session, or `rst` is the next entry of the outside, or it completes a legal command. -/
theorem step_session_cases {s t : State} (h : step s = .next t) :
    SameSession s t ∨ s.host.next = some .rst ∨
      ∃ w i, s.seq = .busy w ∧ s.completionDue = true ∧ decodeCmd w = .ok i ∧ exec i s = .next t := by
  by_cases hrst : s.host.next = some .rst
  · exact .inr (.inl hrst)
  rcases step_cases h with ⟨w, hw, hdue, hrun⟩ | ⟨_, rfl⟩ | ⟨w, _, _, rfl⟩
  · rcases runCommand_cases hrun with ⟨i, hi, he⟩ | ⟨_, _, rfl⟩
    · exact .inr (.inr ⟨w, i, hw, hdue, hi, he⟩)
    · exact .inl ⟨rfl, rfl, rfl, rfl, rfl, rfl⟩
  · exact .inl (s.hostTurn_session hrst)
  · exact .inl (s.tickDue.hostTurn_session hrst)

/-- Settles O36: a step that changes the session is an `rst` or completes a command, and of the commands only those named
write the tree or the CodeBook. -/
theorem writersOfTreeAndCodes : Obligations.WritersOfTreeAndCodes := by
  intro s t h
  rcases step_session_cases h with ⟨-, htre, hcb, -⟩ | hrst | ⟨w, i, hw, hdue, hi, he⟩
  · exact ⟨fun ht => absurd htre ht, fun hc => absurd hcb hc⟩
  · exact ⟨fun _ => .inl hrst, fun _ => .inl hrst⟩
  · obtain ⟨htre, hcb⟩ := exec_treeAndCodes he
    exact ⟨fun ht => .inr ⟨w, i, hw, hdue, hi, htre.resolve_left ht⟩,
      fun hc => .inr ⟨w, i, hw, hdue, hi, hcb.resolve_left hc⟩⟩

end Sys2Proof.Machine
end

section
/-! SUPPORT and O37. What a command reads: the parameters, the inputs and the session (spec/10_state.md R44). -/

namespace Sys2Proof.Machine

/-- Two states that a command cannot tell apart: only their flags, their sequencer and their outside may differ. -/
structure SameOperands (s s' : State) : Prop where
  cfg : s'.cfg = s.cfg
  inp : s'.inp = s.inp
  session : SameSession s s'

/-- Two results of a command that agree on what it wrote: the session and the error code. -/
def SameResult (t t' : State) : Prop := SameSession t t' ∧ t'.err = t.err

namespace SameOperands

section
variable {s s' : State} (h : SameOperands s s')
include h

theorem tbl : s'.tbl = s.tbl :=
  let ⟨htbl, _⟩ := h.session
  htbl

theorem tre : s'.tre = s.tre :=
  let ⟨_, htre, _⟩ := h.session
  htre

theorem cb : s'.cb = s.cb :=
  let ⟨_, _, hcb, _⟩ := h.session
  hcb

theorem enc : s'.enc = s.enc :=
  let ⟨_, _, _, henc, _⟩ := h.session
  henc

theorem symLenBad : s'.symLenBad = s.symLenBad := by rw [State.symLenBad, h.cfg, h.inp]; rfl

theorem bitInLenBad : s'.bitInLenBad = s.bitInLenBad := by rw [State.bitInLenBad, h.cfg, h.inp]; rfl

theorem symInput : s'.symInput = s.symInput := by rw [State.symInput, h.inp]; rfl

theorem bitInput : s'.bitInput = s.bitInput := by rw [State.bitInput, h.inp]; rfl

/-! ### Equal writes keep the operands equal -/

theorem setTable (x : FreqTable) : SameOperands (s.setTable x) (s'.setTable x) :=
  let ⟨_, hrest⟩ := h.session
  ⟨h.cfg, h.inp, rfl, hrest⟩

theorem setTree (x : HuffTree) : SameOperands (s.setTree x) (s'.setTree x) :=
  let ⟨ht, _, hrest⟩ := h.session
  ⟨h.cfg, h.inp, ht, rfl, hrest⟩

theorem setCodes (c : CodeBook) : SameOperands (s.setCodes c) (s'.setCodes c) :=
  let ⟨ht, hr, _, hrest⟩ := h.session
  ⟨h.cfg, h.inp, ht, hr, rfl, hrest⟩

theorem setEncoded (e : Encoded) : SameOperands (s.setEncoded e) (s'.setEncoded e) :=
  let ⟨ht, hr, hc, _, hrest⟩ := h.session
  ⟨h.cfg, h.inp, ht, hr, hc, rfl, hrest⟩

theorem setDecoded (d : Decoded) : SameOperands (s.setDecoded d) (s'.setDecoded d) :=
  let ⟨ht, hr, hc, he, _, hs⟩ := h.session
  ⟨h.cfg, h.inp, ht, hr, hc, he, rfl, hs⟩

theorem setStats (x : Stats) : SameOperands (s.setStats x) (s'.setStats x) :=
  let ⟨ht, hr, hc, he, hd, _⟩ := h.session
  ⟨h.cfg, h.inp, ht, hr, hc, he, hd, rfl⟩

theorem clearSession : SameOperands s.clearSession s'.clearSession :=
  ⟨h.cfg, h.inp, rfl, rfl, rfl, rfl, rfl, rfl⟩

theorem complete (code : ErrCode) : SameResult (s.complete code) (s'.complete code) := ⟨h.session, rfl⟩

end

variable {s s' : State}

theorem compressTail (h : SameOperands s s') : SameResult s.compressTail s'.compressTail := by
  unfold State.compressTail
  rw [h.cfg, h.cb, h.symInput, h.inp]
  split
  · exact h.complete _
  · exact ((h.setEncoded _).setStats _).complete _

/-- Commands on equal operands complete alike. -/
theorem exec {i : Instr} {t : State} (h : SameOperands s s') (he : Machine.exec i s = .next t) :
    ∃ t', Machine.exec i s' = .next t' ∧ SameResult t t' := by
  cases i with
  | freq =>
    rcases execFreq_next he with ⟨hb, rfl⟩ | ⟨hb, rfl⟩
    · exact ⟨_, by simp [Machine.exec, execFreq, h.symLenBad, hb], h.complete _⟩
    · exact ⟨_, by simp [Machine.exec, execFreq, h.symLenBad, h.symInput, hb], (h.setTable _).complete _⟩
  | tree =>
    obtain ⟨x, hx, rfl⟩ := execTree_next he
    exact ⟨_, by simp [Machine.exec, execTree, h.tbl, hx], (h.setTree _).complete _⟩
  | codes =>
    obtain ⟨c, hc, rfl⟩ := execCodes_next he
    exact ⟨_, by simp [Machine.exec, execCodes, h.tre, hc], (h.setCodes _).complete _⟩
  | encode =>
    rcases execEncode_next he with ⟨hb, rfl⟩ | ⟨hb, hx, rfl⟩ | ⟨hb, x, hx, rfl⟩
    · exact ⟨_, by simp [Machine.exec, execEncode, h.symLenBad, hb], h.complete _⟩
    · exact ⟨_, by simp [Machine.exec, execEncode, h.symLenBad, h.cfg, h.cb, h.symInput, hb, hx], h.complete _⟩
    · exact ⟨_, by simp [Machine.exec, execEncode, h.symLenBad, h.cfg, h.cb, h.symInput, hb, hx],
        (h.setEncoded _).complete _⟩
  | decode src =>
    rcases execDecode_next he with ⟨rfl, hb, rfl⟩ | ⟨bits, out, tail, hd, rfl, hsrc⟩
    · exact ⟨_, by simp [Machine.exec, execDecode, h.bitInLenBad, hb], h.complete _⟩
    · refine ⟨_, ?_, (h.setDecoded _).complete _⟩
      rcases hsrc with ⟨rfl, hb, rfl⟩ | ⟨rfl, hf⟩
      · simp [Machine.exec, execDecode, State.decodeStream, h.bitInLenBad, h.bitInput, h.tre, hb, hd, decodedOf]
      · simp [Machine.exec, execDecode, State.decodeStream, h.enc, h.tre, hf, hd, decodedOf]
  | stats =>
    rcases execStats_next he with ⟨hb, rfl⟩ | ⟨hb, rfl⟩
    · exact ⟨_, by simp [Machine.exec, execStats, h.symLenBad, hb], h.complete _⟩
    · exact ⟨_, by simp [Machine.exec, execStats, h.symLenBad, h.inp, h.enc, hb], (h.setStats _).complete _⟩
  | compress =>
    rcases execCompress_next he with ⟨hb, rfl⟩ | ⟨hb, x, c, hx, hc, rfl⟩
    · exact ⟨_, by simp [Machine.exec, execCompress, h.symLenBad, hb], h.complete _⟩
    · exact ⟨_, by simp [Machine.exec, execCompress, h.symLenBad, h.symInput, hb, hx, hc],
        (((h.setTable _).setTree _).setCodes _).compressTail⟩
  | clear =>
    rw [execClear_next he]
    exact ⟨_, rfl, h.clearSession.complete _⟩

end SameOperands

/-- Settles O37: the states of the statement have the same operands. -/
theorem commandsReadNoFlag : Obligations.CommandsReadNoFlag :=
  fun _ _ _ _ hcfg hinp hsession he => SameOperands.exec ⟨hcfg, hinp, hsession⟩ he

end Sys2Proof.Machine
end


section
/-! SUPPORT and O45. What a step can do to STATUS (spec/10_state.md R26). -/

namespace Sys2Proof.Machine

/-- The fields of STATUS other than TREE are the same; BUSY is a function of SEQ (R21). -/
structure SameStatus (s t : State) : Prop where
  seq : t.seq = s.seq
  done : t.done = s.done
  ovr : t.ovr = s.ovr
  err : t.err = s.err
  lastOp : t.lastOp = s.lastOp

theorem SameStatus.refl (s : State) : SameStatus s s := ⟨rfl, rfl, rfl, rfl, rfl⟩

theorem SameStatus.trans {s t u : State} (h : SameStatus s t) (h' : SameStatus t u) : SameStatus s u :=
  ⟨h'.seq.trans h.seq, h'.done.trans h.done, h'.ovr.trans h.ovr, h'.err.trans h.err, h'.lastOp.trans h.lastOp⟩

theorem SameStatus.isBusy {s t : State} (h : SameStatus s t) : t.isBusy = s.isBusy := by
  simp only [State.isBusy, h.seq]

@[simp] theorem State.writeStatus_isBusy (s : State) (w : Word) : (s.writeStatus w).isBusy = s.isBusy := rfl

@[simp] theorem State.setOvr_isBusy (s : State) : s.setOvr.isBusy = s.isBusy := rfl

/-- The places a write to which is dropped with OVR set while a command runs (R83, R247). -/
def IsDropPlace (loc : Loc) : Prop :=
  loc = .reg .cmd ∨ loc = .reg .symLen ∨ loc = .reg .bitInLen ∨ (∃ i, loc = .symIn i) ∨ ∃ j, loc = .bitIn j

/-- What a host write of `w` to `loc` does to STATUS, by the rules of R27, R83, R245 and R247. -/
inductive StatusWrite (s t : State) (loc : Loc) (w : Word) : Prop where
  /-- STATUS stays: another place, or an input written while idle -/
  | kept (same : SameStatus s t)
  /-- a STATUS write clears DONE and OVR by its bits (R27) -/
  | acked (place : loc = .reg .status) (same : SameStatus (s.writeStatus w) t)
  /-- a CMD write while idle is accepted (R245) -/
  | issued (place : loc = .reg .cmd) (idle : s.isBusy = false) (same : SameStatus (s.acceptWord w) t)
  /-- a CMD or input write while a command runs is dropped (R83, R247) -/
  | dropped (place : IsDropPlace loc) (busy : s.isBusy = true) (same : SameStatus s.setOvr t)

section
variable {s t u : State} {loc : Loc} {w : Word}

/-- What follows a write and leaves STATUS alone can be counted with it. -/
theorem StatusWrite.trans (h : StatusWrite s t loc w) (hu : SameStatus t u) : StatusWrite s u loc w := by
  cases h with
  | kept same => exact .kept (same.trans hu)
  | acked place same => exact .acked place (same.trans hu)
  | issued place idle same => exact .issued place idle (same.trans hu)
  | dropped place busy same => exact .dropped place busy (same.trans hu)

/-- The count of the statements that may still go by is no part of STATUS. -/
theorem StatusWrite.of_tickDue (h : StatusWrite s.tickDue t loc w) : StatusWrite s t loc w := by
  cases h with
  | kept same => exact .kept { same with }
  | acked place same => exact .acked place { same with }
  | issued place idle same => exact .issued place idle { same with }
  | dropped place busy same => exact .dropped place busy { same with }

variable (s)

theorem State.issue_status (w : Word) : StatusWrite s (s.issue w) (.reg .cmd) w := by
  cases hq : s.seq with
  | idle =>
    rw [s.issue_idle hq]
    exact .issued rfl (State.isBusy_of_idle hq) (by constructor <;> simp)
  | busy v =>
    rw [s.issue_busy hq]
    exact .dropped (.inl rfl) (State.isBusy_of_busy hq) (SameStatus.refl _)

theorem State.writeInput_status (x : Inputs) (hloc : IsDropPlace loc) : StatusWrite s (s.writeInput x) loc w := by
  cases hq : s.seq with
  | idle =>
    rw [s.writeInput_idle hq]
    exact .kept ⟨rfl, rfl, rfl, rfl, rfl⟩
  | busy v =>
    rw [s.writeInput_busy hq]
    exact .dropped hloc (State.isBusy_of_busy hq) (SameStatus.refl _)

theorem State.writeLoc_status (loc : Loc) (w : Word) : StatusWrite s (s.writeLoc loc w) loc w := by
  rcases s.writeLoc_cases loc w with e | ⟨_, e⟩ | ⟨hloc, e⟩ | ⟨rfl, e⟩ | ⟨x, e, hx⟩ <;> rw [e]
  · exact .kept (SameStatus.refl s)
  · exact .kept ⟨rfl, rfl, rfl, rfl, rfl⟩
  · exact .acked hloc (SameStatus.refl _)
  · exact s.issue_status w
  · refine s.writeInput_status x ?_
    rcases hx with ⟨hl, _⟩ | ⟨hl, _⟩ | ⟨i, hl, _⟩ | ⟨j, hl, _⟩
    · exact .inr (.inl hl)
    · exact .inr (.inr (.inl hl))
    · exact .inr (.inr (.inr (.inl ⟨i, hl⟩)))
    · exact .inr (.inr (.inr (.inr ⟨j, hl⟩)))

/-- A turn of the outside that is no `rst` leaves STATUS alone, or is a write. -/
theorem State.hostTurn_status (hrst : s.host.next ≠ some .rst) :
    SameStatus s s.hostTurn ∨
      ∃ addr w, s.host.next = some (.wr addr w) ∧ StatusWrite s s.hostTurn (locate s.cfg addr) w := by
  unfold State.hostTurn
  split
  · rename_i op hop
    cases op with
    | rd addr t =>
      refine .inl ?_
      simp only [State.perform]
      rcases s.hostRead_snd addr with e | e <;> rw [e] <;> exact ⟨rfl, rfl, rfl, rfl, rfl⟩
    | wr addr w => exact .inr ⟨addr, w, hop, (s.writeLoc_status _ w).trans ⟨rfl, rfl, rfl, rfl, rfl⟩⟩
    | br t hi lo v target => exact .inl ⟨rfl, rfl, rfl, rfl, rfl⟩
    | rst => exact absurd hop hrst
  · exact .inl (SameStatus.refl s)

end

/-- A step that is no `rst` leaves STATUS alone, completes the running command, or performs a write. -/
theorem step_status {s t : State} (h : step s = .next t) (hrst : s.host.next ≠ some .rst) :
    SameStatus s t ∨ (s.isBusy = true ∧ s.completionDue = true ∧ Completed s t) ∨
      ∃ addr w, s.host.next = some (.wr addr w) ∧ StatusWrite s t (locate s.cfg addr) w := by
  rcases step_cases h with ⟨w, hw, hdue, hrun⟩ | ⟨_, rfl⟩ | ⟨w, _, _, rfl⟩
  · exact .inr (.inl ⟨State.isBusy_of_busy hw, hdue, runCommand_completed hrun⟩)
  · exact (s.hostTurn_status hrst).imp_right .inr
  · rcases s.tickDue.hostTurn_status hrst with same | ⟨addr, w, hop, hw⟩
    · exact .inl { same with }
    · exact .inr (.inr ⟨addr, w, hop, hw.of_tickDue⟩)

/-- Settles O45: each kind of step that `step_status` names moves only the fields of STATUS listed for it. -/
theorem statusChangesAsListed : Obligations.StatusChangesAsListed := by
  intro s t h hrst
  rcases step_status h hrst with same | ⟨hbusy, hdue, hdone⟩ | ⟨addr, w, hop, hw⟩
  · simp +contextual [same.isBusy, same.done, same.ovr, same.err, same.lastOp]
  · simp +contextual [hbusy, hdue, hdone.done, hdone.ovr, hdone.lastOp]
  cases hw with
  | kept same => simp +contextual [same.isBusy, same.done, same.ovr, same.err, same.lastOp]
  | acked place same =>
    simp +contextual [same.isBusy, same.done, same.ovr, same.err, same.lastOp, place, hop]
  | issued place idle same =>
    simp +contextual [same.isBusy, same.done, same.ovr, same.err, same.lastOp, place, hop, idle, same.seq, opcOf]
  | dropped place busy same =>
    simp +contextual [-State.isBusy_iff, same.isBusy, same.done, same.ovr, same.err, same.lastOp, hop, busy]
    exact fun _ => place

end Sys2Proof.Machine
end

section
/-! SUPPORT, O44, O46, O47 and O54. What the registers read as and what a write to them does (spec/10_state.md R20 to R33,
R43). -/

namespace Sys2Proof.Machine

/-! ### The fields of the STATUS word (R26), from the lowest up -/

/-- A bit above the low part of a concatenation is a bit of its high part. -/
theorem getLsbD_append_high {v w i : Nat} {x : BitVec v} {y : BitVec w} (h : w ≤ i) :
    (x ++ y).getLsbD i = x.getLsbD (i - w) := by
  rw [BitVec.getLsbD_append, if_neg (by omega)]

theorem getLsbD_append_ofBool {v : Nat} {x : BitVec v} {b : Bool} : (x ++ BitVec.ofBool b).getLsbD 0 = b := by
  rw [BitVec.getLsbD_append, if_pos (by decide)]
  simp

section
variable (s : State)

theorem State.statusWord_busy : s.statusWord.getLsbD 0 = s.isBusy := getLsbD_append_ofBool

theorem State.statusWord_done : s.statusWord.getLsbD 1 = s.done :=
  (getLsbD_append_high (by decide)).trans getLsbD_append_ofBool

theorem State.statusWord_ovr : s.statusWord.getLsbD 2 = s.ovr := by
  iterate 2 refine (getLsbD_append_high (by decide)).trans ?_
  exact getLsbD_append_ofBool

theorem State.statusWord_bit3 : s.statusWord.getLsbD 3 = false := by
  iterate 3 refine (getLsbD_append_high (by decide)).trans ?_
  exact getLsbD_append_ofBool (b := false)

theorem State.statusWord_err : s.statusWord.extractLsb' 4 4 = s.err.code := by
  iterate 4 refine (BitVec.extractLsb'_append_eq_of_le (by decide)).trans ?_
  exact BitVec.extractLsb'_append_eq_right

theorem State.statusWord_tree : s.statusWord.extractLsb' 8 2 = s.tre.shape.code := by
  iterate 5 refine (BitVec.extractLsb'_append_eq_of_le (by decide)).trans ?_
  exact BitVec.extractLsb'_append_eq_right

theorem State.statusWord_middle : s.statusWord.extractLsb' 10 6 = 0#6 := by
  iterate 6 refine (BitVec.extractLsb'_append_eq_of_le (by decide)).trans ?_
  exact BitVec.extractLsb'_append_eq_right

theorem State.statusWord_lastOp : s.statusWord.extractLsb' 16 8 = s.lastOp := by
  iterate 7 refine (BitVec.extractLsb'_append_eq_of_le (by decide)).trans ?_
  exact BitVec.extractLsb'_append_eq_right

theorem State.statusWord_top : s.statusWord.extractLsb' 24 8 = 0#8 := by
  iterate 8 refine (BitVec.extractLsb'_append_eq_of_le (by decide)).trans ?_
  exact BitVec.extractLsb'_eq_self

theorem State.isBusy_iff_not_idle : s.isBusy = true ↔ s.seq ≠ .idle := by
  cases hq : s.seq <;> simp [State.isBusy, hq]

/-- CTRL reads IE in bit 0 and 0 above (R24). -/
theorem State.ctrlWord_eq : s.ctrlWord = if s.ie = true then 1#32 else 0#32 := by
  unfold State.ctrlWord
  cases s.ie <;> rfl

/-! ### Transactions on a register -/

variable {s} {addr : Word} {r : Reg}

/-- A read of a register that is no result gives its word and changes nothing, running or not (R83, R88). -/
theorem State.hostRead_reg (h : locate s.cfg addr = .reg r) (hr : Reg.isResult r = false) :
    s.hostRead addr = (s.regRead r, s) := by
  rw [s.hostRead_plain (by rw [h]; exact hr), h]
  rfl

/-- A read of any register at its offset while idle gives its word and changes nothing (R20, R88). -/
theorem State.hostRead_addressOf (h : s.seq = .idle) (r : Reg) :
    s.hostRead (addressOf (.reg r)) = (s.regRead r, s) := by
  rw [s.hostRead_idle h, locate_addressOf (loc := .reg r) rfl]
  rfl

theorem State.hostWrite_reg (h : locate s.cfg addr = .reg r) (w : Word) :
    s.hostWrite addr w = s.writeReg r w := by
  rw [State.hostWrite, h]
  rfl

/-- A write moves no register, so that a read after it is one of the same register. -/
theorem State.hostRead_hostWrite_reg (h : locate s.cfg addr = .reg r) (hr : Reg.isResult r = false) (w : Word) :
    (s.hostWrite addr w).hostRead addr = ((s.hostWrite addr w).regRead r, s.hostWrite addr w) :=
  State.hostRead_reg (by rw [(s.hostWrite_keeps addr w).cfg, h]) hr

end

/-! ### The statements -/

/-- Settles O44: the read is one of a register that is no result, and the fields are those of `statusWord`. -/
theorem statusFields : Obligations.StatusFields := by
  intro s addr h
  refine ⟨s.statusWord, State.hostRead_reg h rfl, rfl, s.statusWord_busy, s.isBusy_iff_not_idle, s.statusWord_done,
    s.statusWord_ovr, s.statusWord_bit3, ?_, ?_, s.statusWord_middle, s.statusWord_lastOp, s.statusWord_top⟩
  · rw [s.statusWord_err]
    cases s.err <;> rfl
  · rw [s.statusWord_tree]
    cases s.tre.shape <;> rfl

/-- Settles O46: a STATUS write masks DONE with bit 1 and OVR with bit 2 of the word. -/
theorem statusWriteClears : Obligations.StatusWriteClears := by
  intro s addr w h
  have hmask : ∀ a b : Bool, (a && !b) = if b = true then false else a := by decide
  rw [State.hostWrite_reg h]
  simp only [State.writeReg, State.writeStatus, hmask]

/-- Settles O47, register by register. -/
theorem controlAndLengthRegisters : Obligations.ControlAndLengthRegisters := by
  intro s addr w
  have hlegal := s.cfg.legal
  refine ⟨fun h => State.hostRead_reg h rfl, fun h => ?_, fun h => ?_, fun h => State.hostRead_reg h rfl,
    fun h => ⟨State.hostWrite_reg h w, ?_⟩, fun h hq => ?_, fun h hq => ?_⟩
  · rw [State.hostRead_reg h rfl]
    exact (BitVec.toNat_ofNat _ _).trans (Nat.mod_eq_of_lt (by omega))
  · rw [State.hostRead_reg h rfl]
    exact (BitVec.toNat_ofNat _ _).trans (Nat.mod_eq_of_lt (by omega))
  · rw [State.hostRead_reg h rfl]
    exact s.ctrlWord_eq
  · have hw : s.hostWrite addr w = { s with inp := { s.inp with symLen := w } } :=
      (State.hostWrite_reg h w).trans (s.writeInput_idle hq _)
    refine ⟨hw, ?_⟩
    rw [State.hostRead_hostWrite_reg h rfl, hw]
    rfl
  · have hw : s.hostWrite addr w = { s with inp := { s.inp with bitInLen := w } } :=
      (State.hostWrite_reg h w).trans (s.writeInput_idle hq _)
    refine ⟨hw, ?_⟩
    rw [State.hostRead_hostWrite_reg h rfl, hw]
    rfl

/-- Settles O54: each offset is the address of its register, and ROOT is zero-extended. -/
theorem resultRegisterWords : Obligations.ResultRegisterWords := by
  intro s hq
  have hread := State.hostRead_addressOf hq
  have hroot : s.hostRead 0x3C#32 = (s.tre.root.setWidth 32, s) := hread .root
  refine ⟨hread .bitOutLen, hread .encSkip, hread .symOutLen, hread .decTail, hread .ftN, hread .ftTotal,
    hread .nodeCount, ⟨?_, ?_, ?_⟩, hread .statOrigBits, hread .statCompBits, hread .statRatioNum,
    hread .statRatioDen, hread .statRatioBp, hread .statSavedBits⟩ <;> rw [hroot]
  · exact (BitVec.extractLsb'_setWidth_of_le (by decide)).trans BitVec.extractLsb'_eq_self
  · ext i hi
    simp

end Sys2Proof.Machine
end

section
/-! SUPPORT and O13. Every command completes from a state with the invariant (spec/20_memory.md R94, spec/42_codebook.md
R161, spec/43_codec.md R193). -/

namespace Sys2Proof.Machine

section
variable {s : State}

theorem execFreq_completes (s : State) : ∃ t, execFreq s = .next t := by
  unfold execFreq
  split <;> exact ⟨_, rfl⟩

/-- The keys of a consistent table all lie in FT_ORDER (R35, R94). -/
theorem execTree_completes (h : s.tbl.Ok s.cfg) : ∃ t, execTree s = .next t := by
  simp only [execTree, buildTree_ok h]
  exact ⟨_, rfl⟩

/-- The traversal of a full binary tree stays in NODE and goes at most 255 levels deep (R161). -/
theorem execCodes_completes (h : s.tre.Ok) : ∃ t, execCodes s = .next t := by
  obtain ⟨c, hc⟩ := generateCodes_ok h
  simp only [execCodes, hc]
  exact ⟨_, rfl⟩

theorem execEncode_completes (s : State) : ∃ t, execEncode s = .next t := by
  unfold execEncode
  split
  · exact ⟨_, rfl⟩
  · split <;> exact ⟨_, rfl⟩

/-- The walk of DECODE on a full binary tree stays in NODE, whatever the bits (R193). -/
theorem decodeStream_completes (h : s.tre.Ok) (bits : Bits) : ∃ t, s.decodeStream bits = .next t := by
  obtain ⟨out, tail, hd, -, -⟩ := decodeBits_ok h bits
  simp only [State.decodeStream, hd]
  exact ⟨_, rfl⟩

/-- BIT_OUT holds the BIT_OUT_LEN bits that DECODE src=out reads (R40, R94). -/
theorem execDecode_completes (htre : s.tre.Ok) (henc : s.enc.Ok s.cfg) (src : Src) :
    ∃ t, execDecode src s = .next t := by
  cases src with
  | bitIn =>
    simp only [execDecode]
    split
    · exact ⟨_, rfl⟩
    · exact decodeStream_completes htre _
  | bitOut =>
    simp only [execDecode, firstOf_ok henc.size]
    exact decodeStream_completes htre _

theorem execStats_completes (s : State) : ∃ t, execStats s = .next t := by
  unfold execStats
  split <;> exact ⟨_, rfl⟩

/-- COMPRESS needs nothing of the state: its table and tree are its own, over an input no longer than MAX_LEN (R215). -/
theorem execCompress_completes (s : State) : ∃ t, execCompress s = .next t := by
  unfold execCompress
  split
  · exact ⟨_, rfl⟩
  · rename_i hb
    have htbl : (buildFrequencyTable s.symInput).Ok s.cfg :=
      buildFrequencyTable_ok _ _ (by simpa using State.symLen_le (Bool.eq_false_of_not_eq_true hb))
    obtain ⟨c, hc⟩ := generateCodes_ok (buildTree_tree_ok htbl)
    simp only [buildTree_ok htbl, hc]
    exact ⟨_, rfl⟩

theorem State.Inv.exec_completes (h : s.Inv) (i : Instr) : ∃ t, Machine.exec i s = .next t := by
  cases i with
  | freq => exact execFreq_completes s
  | tree => exact execTree_completes h.tbl
  | codes => exact execCodes_completes h.tre
  | encode => exact execEncode_completes s
  | decode src => exact execDecode_completes h.tre h.enc src
  | stats => exact execStats_completes s
  | compress => exact execCompress_completes s
  | clear => exact ⟨_, rfl⟩

/-- An ILLEGAL word completes too (R243). -/
theorem State.Inv.runCommand_completes (h : s.Inv) (w : Word) : ∃ t, Machine.runCommand w s = .next t := by
  unfold Machine.runCommand
  split
  · exact h.exec_completes _
  · exact ⟨_, rfl⟩

theorem State.Inv.step_completes (h : s.Inv) : ∃ t, step s = .next t := by
  unfold step
  split
  · exact ⟨_, rfl⟩
  · split
    · exact h.runCommand_completes _
    · exact ⟨_, rfl⟩

end

/-- Settles O13: the invariant is what TREE, CODES and DECODE need of the table, the tree and the stream. -/
theorem noStepStops : Obligations.NoStepStops :=
  fun _ h => ⟨h.exec_completes, h.step_completes⟩

end Sys2Proof.Machine
end

section
/-! SUPPORT, O9, O35, O39, O41 and O42. What a host access can do, idle and while a command runs (spec/20_memory.md R73, R77,
R79, R83, R88). -/

namespace Sys2Proof.Machine

/-! ### Reads -/

section
variable (s : State)

/-- Of the places, only STATUS reads the sequencer (R21, R26). -/
theorem State.view_withSeq (q : Seq) {loc : Loc} (h : loc ≠ .reg .status) :
    State.view { s with seq := q } loc = s.view loc := by
  cases loc with
  | reg r =>
    cases r with
    | status => exact absurd rfl h
    | _ => rfl
  | _ => rfl

/-- The inputs are read at their own places only (R28, R29, R77, R79). -/
theorem State.view_withInp (x : Inputs) {loc : Loc} (hsymLen : loc = .reg .symLen → x.symLen = s.inp.symLen)
    (hbitInLen : loc = .reg .bitInLen → x.bitInLen = s.inp.bitInLen)
    (hsymIn : ∀ i, loc = .symIn i → x.symAt i = s.inp.symAt i)
    (hbitIn : ∀ j, loc = .bitIn j → x.bitWordAt j = s.inp.bitWordAt j) :
    State.view { s with inp := x } loc = s.view loc := by
  cases loc with
  | reg r =>
    cases r with
    | symLen => exact hsymLen rfl
    | bitInLen => exact hbitInLen rfl
    | _ => rfl
  | symIn i => exact congrArg (BitVec.setWidth 32) (hsymIn i rfl)
  | bitIn j => exact hbitIn j rfl
  | _ => rfl

/-- CTRL is read at its own place only (R24). -/
theorem State.view_writeCtrl (w : Word) {loc : Loc} (h : loc ≠ .reg .ctrl) :
    (s.writeCtrl w).view loc = s.view loc := by
  cases loc with
  | reg r =>
    cases r with
    | ctrl => exact absurd rfl h
    | _ => rfl
  | _ => rfl

/-- BUSY is bit 0 of the STATUS word (R26). -/
theorem State.statusWord_busy_or {v : Word} (h : s.seq = .busy v) :
    s.statusWord = State.statusWord { s with seq := .idle } ||| 1#32 := by
  have hbit : ∀ x : BitVec 31, x ++ BitVec.ofBool true = (x ++ BitVec.ofBool false) ||| 1#32 := by
    intro x
    rw [show 1#32 = 0#31 ++ BitVec.ofBool true by decide, BitVec.or_append]
    simp
  have hbusy : s.isBusy = true := State.isBusy_of_busy h
  unfold State.statusWord
  rw [hbusy]
  exact hbit _

/-! ### Writes -/

/-- A write to a result changes nothing (R73). -/
theorem State.writeLoc_isResult {loc : Loc} (h : Loc.isResult loc = true) (w : Word) : s.writeLoc loc w = s := by
  rcases s.writeLoc_cases loc w with e | ⟨rfl, _⟩ | ⟨rfl, _⟩ | ⟨rfl, _⟩ | ⟨x, _, hx⟩
  · exact e
  · cases h
  · cases h
  · cases h
  · rcases hx with ⟨rfl, _⟩ | ⟨rfl, _⟩ | ⟨i, rfl, _⟩ | ⟨j, rfl, _⟩ <;> cases h

/-- A write that is not dropped while busy does the same whatever the sequencer, and leaves it alone (R83). -/
theorem State.writeLoc_withSeq {loc : Loc} (h : ¬ IsDropPlace loc) (q : Seq) (w : Word) :
    s.writeLoc loc w = { State.writeLoc { s with seq := q } loc w with seq := s.seq } := by
  cases loc with
  | reg r =>
    cases r with
    | cmd => exact absurd (.inl rfl) h
    | symLen => exact absurd (.inr (.inl rfl)) h
    | bitInLen => exact absurd (.inr (.inr (.inl rfl))) h
    | _ => rfl
  | symIn i => exact absurd (.inr (.inr (.inr (.inl ⟨i, rfl⟩)))) h
  | bitIn j => exact absurd (.inr (.inr (.inr (.inr ⟨j, rfl⟩)))) h
  | _ => rfl

/-- An input write while a command runs is dropped (R83). -/
theorem State.writeLoc_drop {v : Word} (hq : s.seq = .busy v) {loc : Loc} (h : IsDropPlace loc) (w : Word) :
    s.writeLoc loc w = s.setOvr := by
  rcases h with rfl | rfl | rfl | ⟨i, rfl⟩ | ⟨j, rfl⟩
  · exact s.issue_busy hq w
  all_goals exact s.writeInput_busy hq _

end

/-- A write while idle to a place other than CMD and STATUS leaves the word of every other place alone (R70). -/
theorem State.view_writeLoc_other {s : State} (hq : s.seq = .idle) {loc other : Loc} (w : Word)
    (hcmd : loc ≠ .reg .cmd) (hstatus : loc ≠ .reg .status) (h : other ≠ loc) :
    (s.writeLoc loc w).view other = s.view other := by
  rcases s.writeLoc_cases loc w with e | ⟨rfl, e⟩ | ⟨hl, _⟩ | ⟨hl, _⟩ | ⟨x, e, hx⟩
  · rw [e]
  · rw [e, s.view_writeCtrl w h]
  · exact absurd hl hstatus
  · exact absurd hl hcmd
  · rw [e, s.writeInput_idle hq]
    rcases hx with ⟨rfl, rfl⟩ | ⟨rfl, rfl⟩ | ⟨i, rfl, rfl⟩ | ⟨j, rfl, rfl⟩
    · exact s.view_withInp _ (absurd · h) (fun _ => rfl) (fun _ _ => rfl) (fun _ _ => rfl)
    · exact s.view_withInp _ (fun _ => rfl) (absurd · h) (fun _ _ => rfl) (fun _ _ => rfl)
    · refine s.view_withInp _ (fun _ => rfl) (fun _ => rfl) (fun k hk => ?_) (fun _ _ => rfl)
      rw [Inputs.symAt_put, if_neg (fun hki : k = i => h (hki ▸ hk))]
    · refine s.view_withInp _ (fun _ => rfl) (fun _ => rfl) (fun _ _ => rfl) (fun k hk => ?_)
      rw [Inputs.bitWordAt_put, if_neg (fun hkj : k = j => h (hkj ▸ hk))]

/-! ### The input windows (R77, R79, R84) -/

section
variable {s : State} {addr : Word}

theorem State.hostRead_symIn {i : Nat} (h : locate s.cfg addr = .symIn i) :
    s.hostRead addr = ((s.inp.symAt i).setWidth 32, s) := by
  rw [s.hostRead_plain (by rw [h]; rfl), h]
  rfl

theorem State.hostRead_bitIn {j : Nat} (h : locate s.cfg addr = .bitIn j) :
    s.hostRead addr = (s.inp.bitWordAt j, s) := by
  rw [s.hostRead_plain (by rw [h]; rfl), h]
  rfl

/-- A SYM_IN write keeps bits 7..0 of the word (R77). -/
theorem State.hostWrite_symIn (hq : s.seq = .idle) {i : Nat} (h : locate s.cfg addr = .symIn i) (w : Word) :
    s.hostWrite addr w =
      { s with inp := { s.inp with symIn := Memory.put s.inp.symIn i (w.extractLsb' 0 8) } } := by
  rw [State.hostWrite, h, ← BitVec.setWidth_eq_extractLsb' (by decide)]
  exact s.writeInput_idle hq _

theorem State.hostWrite_bitIn (hq : s.seq = .idle) {j : Nat} (h : locate s.cfg addr = .bitIn j) (w : Word) :
    s.hostWrite addr w = { s with inp := { s.inp with bitIn := Memory.put s.inp.bitIn j w } } := by
  rw [State.hostWrite, h]
  exact s.writeInput_idle hq _

end

/-- Bit `32j + t` of a stream is bit `31 − t` of its word `j` (R84). -/
theorem streamBit_word (word : Nat → Word) (j : Nat) {t : Nat} (h : t < 32) :
    streamBit word (32 * j + t) = (word j).getLsbD (31 - t) := by
  rw [streamBit, Nat.mul_add_div (by decide), Nat.div_eq_of_lt h, Nat.mul_add_mod, Nat.mod_eq_of_lt h,
    BitVec.getMsbD_eq_getLsbD]
  simp [h]

/-! ### The statements -/

/-- Settles O9: each clause is one rule on a write or a read, applied to the place the address names. -/
theorem accessWhileBusy : Obligations.AccessWhileBusy := by
  intro s addr w v hq
  refine ⟨fun h => s.writeLoc_drop hq (.inr h) w, fun h => s.hostRead_result hq h, fun h hne => ?_, fun h => ?_,
    fun hcmd hsymLen hbitInLen hsymIn hbitIn => ?_⟩
  · rw [s.hostRead_plain h, State.hostRead_idle _ rfl]
    exact congrArg (·, s) (s.view_withSeq _ hne).symm
  · rw [State.hostRead_reg h rfl, State.hostRead_reg (s := { s with seq := .idle }) h rfl]
    exact congrArg (·, s) (s.statusWord_busy_or hq)
  · have hplace : ¬ IsDropPlace (locate s.cfg addr) := by
      rintro (h | h | h | ⟨i, h⟩ | ⟨j, h⟩)
      · exact hcmd h
      · exact hsymLen h
      · exact hbitInLen h
      · exact hsymIn i h
      · exact hbitIn j h
    rw [← hq]
    exact s.writeLoc_withSeq hplace .idle w

/-- Settles O35: what is left of a step that is no completion and no `rst` keeps the session. -/
theorem sessionChangesOnlyAtCompletion : Obligations.SessionChangesOnlyAtCompletion := by
  intro s t h hno hrst
  rcases step_session_cases h with hsame | hnext | ⟨w, i, hw, hdue, -, -⟩
  · exact hsame
  · exact absurd hnext hrst
  · have hbusy := State.isBusy_of_busy hw
    simp [hbusy, hdue] at hno

/-- Settles O39: a read moves the draw counter at most, and the element an idle write puts is viewed at its own place only. -/
theorem readsHaveNoSideEffect : Obligations.ReadsHaveNoSideEffect := by
  refine ⟨fun s addr => ?_, fun s addr hq => s.hostRead_idle hq addr, fun s addr w hcmd hstatus hq loc h => ?_⟩
  · rcases s.hostRead_snd addr with e | e
    · exact ⟨s.env.draws, e⟩
    · exact ⟨s.env.draws + 1, e⟩
  · exact State.view_writeLoc_other hq w hcmd hstatus h

/-- Settles O41: a reserved place is no result, and no write rule names a read-only place. -/
theorem reservedAndReadOnlyPlaces : Obligations.ReservedAndReadOnlyPlaces := by
  intro s addr w
  refine ⟨fun h => ⟨?_, ?_⟩, ?_⟩
  · rw [s.hostRead_plain (by rw [h]; rfl), h]
    rfl
  · rw [State.hostWrite, h]
    rfl
  · rintro (h | h | h | h)
    · exact s.writeLoc_isResult h w
    all_goals
      rw [State.hostWrite, h]
      rfl

/-- Settles O42: an input window is no result, and an idle write puts one element into its buffer. -/
theorem inputWritesReadBack : Obligations.InputWritesReadBack := by
  refine ⟨fun s addr w i h => ⟨by rw [State.hostRead_symIn h], fun hq => ?_⟩,
    fun s addr w j h => ⟨fun t ht => ?_, fun hq => ?_⟩⟩
  · have hw := State.hostWrite_symIn hq h w
    have hat : ∀ k, (s.hostWrite addr w).inp.symAt k = if k = i then w.extractLsb' 0 8 else s.inp.symAt k := by
      rw [hw]
      exact fun k => Inputs.symAt_put ..
    have hcfg := (s.hostWrite_keeps addr w).cfg
    refine ⟨_, hw, ?_, ?_, fun k hk => ?_⟩
    · rw [State.hostRead_symIn (by rw [hcfg, h]), hat, if_pos rfl]
    · rw [hat, if_pos rfl]
    · rw [hat, if_neg hk]
  · rw [State.hostRead_bitIn h, Inputs.bitAt, streamBit_word _ _ ht]
  · have hw := State.hostWrite_bitIn hq h w
    have hat : ∀ k, (s.hostWrite addr w).inp.bitWordAt k = if k = j then w else s.inp.bitWordAt k := by
      rw [hw]
      exact fun k => Inputs.bitWordAt_put ..
    have hcfg := (s.hostWrite_keeps addr w).cfg
    refine ⟨_, hw, ?_, fun t ht => ?_, fun k hk => ?_⟩
    · rw [State.hostRead_bitIn (by rw [hcfg, h]), hat, if_pos rfl]
    · rw [Inputs.bitAt, streamBit_word _ _ ht, hat, if_pos rfl]
    · rw [Inputs.bitAt, streamBit, hat, if_neg hk]
      rfl

end Sys2Proof.Machine
end

section
/-! SUPPORT and O40. The address map in byte addresses (spec/20_memory.md R71, R72). -/

namespace Sys2Proof.Machine

/-- Byte address `n = 4m` names word `m` of the map (R71). -/
theorem locate_word (p : Params) {n m : Nat} (hn : n = 4 * m) (hm : m < 2 ^ 30) :
    locate p (BitVec.ofNat 32 n) = locateWord p m := by
  subst hn
  rw [locate_ofNat p (by omega), Nat.mul_div_cancel_left _ (by decide)]

/-- The place whose address is `n` (R72). -/
theorem locate_place {p : Params} (loc : Loc) {n : Nat} (h : loc.wf p = true) (hn : n = 4 * wordIndex loc) :
    locate p (BitVec.ofNat 32 n) = loc := by
  rw [hn]
  exact locate_addressOf h

/-- Settles O40: the places the parameters do not bound are at their addresses, and the rest is the map region by region. -/
theorem addressMap : Obligations.AddressMap := by
  intro p
  have hreg : ∀ r : Reg, locate p (addressOf (.reg r)) = .reg r := fun r => locate_addressOf rfl
  refine ⟨fun a => ?_, ⟨hreg .id, hreg .paramMaxLen, hreg .paramMaxBits, hreg .ctrl, hreg .cmd, hreg .status,
    hreg .symLen, hreg .bitInLen, hreg .bitOutLen, hreg .encSkip, hreg .symOutLen, hreg .decTail, hreg .ftN,
    hreg .ftTotal, hreg .nodeCount, hreg .root, hreg .statOrigBits, hreg .statCompBits, hreg .statRatioNum,
    hreg .statRatioDen, hreg .statRatioBp, hreg .statSavedBits⟩, fun a h h' => ?_, fun x => ?_, fun i hi => ?_,
    fun a h h' => ?_, fun i hi => ?_, fun x k hk => ?_, fun a h h' => ?_, fun i hi => ?_, fun j hj => ?_,
    fun j hj => ?_, fun i hi => ?_, fun a h h' => ?_⟩
  · have := a.isLt
    exact (locate_word p rfl (by omega)).symm
  · rw [locate_word p rfl (by omega)]
    rcases Nat.lt_or_ge a (0x0100 / 4) with hlow | hhigh
    · rw [locateWord_reg p hlow, List.getElem?_eq_none h]
    · exact locateWord_gap1 p hhigh h'
  · exact locate_place (.freq x) rfl (by simp only [wordIndex]; omega)
  · exact locate_place (.ftOrder i) (decide_eq_true hi) (by simp only [wordIndex]; omega)
  · rw [locate_word p rfl (by omega), locateWord_gap2 p h h']
  · have hnode : ∀ k n, n = 0x2000 + 16 * i + 4 * nodeWordIndex k → locate p (BitVec.ofNat 32 n) = .node i k :=
      fun k n hn => locate_place (.node i k) (decide_eq_true hi) (by simp only [wordIndex]; omega)
    exact ⟨hnode .freq _ rfl, hnode .info _ rfl, hnode .left _ rfl, hnode .right _ rfl⟩
  · exact locate_place (.cb x k) (decide_eq_true hk) (by simp only [wordIndex]; omega)
  · rw [locate_word p rfl (by omega), locateWord_gap3 p h h']
  · rw [locate_word p (m := 0x01000000 / 4 + i) (by omega) (by omega), locateWord_symIn p (by omega) (by omega),
      Nat.add_sub_cancel_left]
  · rw [locate_word p (m := 0x02000000 / 4 + j) (by omega) (by omega), locateWord_bitIn p (by omega) (by omega),
      Nat.add_sub_cancel_left]
  · rw [locate_word p (m := 0x03000000 / 4 + j) (by omega) (by omega), locateWord_bitOut p (by omega) (by omega),
      Nat.add_sub_cancel_left]
  · rw [locate_word p (m := 0x04000000 / 4 + i) (by omega) (by omega), locateWord_symOut p (by omega) (by omega),
      Nat.add_sub_cancel_left]
  · rw [locate_word p rfl (by omega), locateWord_gap4 p h]

end Sys2Proof.Machine
end

section
/-! SUPPORT and O43. The words of the result windows (spec/20_memory.md R75 to R82). -/

namespace Sys2Proof.Machine

/-! ### The INFO word of a NODE slot (R78) -/

section
variable (r : NodeRec)

theorem NodeRec.info_isLeaf : (r.word .info).getLsbD 31 = r.isLeaf := by
  refine (getLsbD_append_high (by decide)).trans ?_
  refine (getLsbD_append_high (by decide)).trans ?_
  simp

theorem NodeRec.info_gap : (r.word .info).extractLsb' 8 23 = 0#23 :=
  (BitVec.extractLsb'_append_eq_of_le (by decide)).trans BitVec.extractLsb'_append_eq_right

theorem NodeRec.info_sym : (r.word .info).extractLsb' 0 8 = r.sym := BitVec.extractLsb'_append_eq_right

end

/-- A child index fits its word (R78). -/
theorem toNat_child (i : NodeIdx) : (i.setWidth 32).toNat = i.toNat :=
  BitVec.toNat_setWidth_of_le (by decide)

/-! ### NODE and CB -/

theorem HuffTree.windowWord_outside (t : HuffTree) {i : Nat} (h : t.nodeCount.toNat ≤ i) (k : NodeWord) :
    t.windowWord i k = 0#32 := by
  rw [HuffTree.windowWord, if_neg (by omega)]

theorem HuffTree.windowWord_inside {t : HuffTree} {i : Nat} {r : NodeRec} (h : i < t.nodeCount.toNat)
    (hr : t.node[i]? = some r) (k : NodeWord) : t.windowWord i k = r.word k := by
  simp only [HuffTree.windowWord, if_pos h, hr]

/-- The code is in words 1 to 8, MSB-first, with 0 past its end (R82). -/
theorem codeWord_bit (code : Bits) {k t : Nat} (hk : 1 ≤ k) (hk' : k ≤ 8) (ht : t < 32) :
    (codeWord code k).getLsbD (31 - t) = code.getD (32 * (k - 1) + t) false := by
  rw [codeWord, if_neg (by omega), if_pos hk', packedWord_getLsbD _ _ _ _ ht]
  by_cases hlen : 32 * (k - 1) + t < code.length
  · simp [hlen]
  · simp [hlen]

theorem codeWord_high (code : Bits) {k : Nat} (hk : 9 ≤ k) : codeWord code k = 0#32 := by
  rw [codeWord, if_neg (by omega), if_neg (by omega)]

/-- Settles O43, window by window. -/
theorem resultWindowWords : Obligations.ResultWindowWords := by
  intro s
  refine ⟨fun x => rfl, fun i => rfl, fun i => rfl, fun i k h => s.tre.windowWord_outside h k, fun i r hi hr => ?_,
    fun j t ht => packedWord_getLsbD _ _ _ _ ht, fun x => rfl,
    fun x k t hk hk' ht => codeWord_bit _ hk hk' ht, fun x k hk => codeWord_high _ hk⟩
  have hview : ∀ k, s.view (.node i k) = r.word k := HuffTree.windowWord_inside hi hr
  simp only [hview]
  exact ⟨rfl, r.info_isLeaf, r.info_gap, r.info_sym, toNat_child r.left, toNat_child r.right⟩

end Sys2Proof.Machine
end

section
/-! SUPPORT, O1, O2, O3 and O4. The decoder, the encoder and the opcode map (spec/30_encoding.md R100 to R105). -/

namespace Sys2Proof

section
variable {w v : Word} {i : Instr}

/-- A command word is its three fields (R101). -/
theorem word_ext (hopc : opcOf w = opcOf v) (hsel : selOf w = selOf v) (hres : resOf w = resOf v) : w = v := by
  have hopc := congrArg BitVec.toNat hopc
  have hsel := congrArg BitVec.toNat hsel
  have hres := congrArg BitVec.toNat hres
  simp only [opcOf, selOf, resOf, BitVec.extractLsb'_toNat, Nat.shiftRight_eq_div_pow] at hopc hsel hres
  have := w.isLt
  have := v.isLt
  exact BitVec.eq_of_toNat_eq (by omega)

/-- S is bit 8 (R101). -/
theorem selOf_ne_zero_iff : selOf w ≠ 0#1 ↔ w.getLsbD 8 = true := by
  have hbit : (selOf w).getLsbD 0 = w.getLsbD 8 := by simp [selOf]
  rw [← hbit]
  rcases BitVec.eq_zero_or_eq_one (selOf w) with h | h <;> rw [h] <;> decide

theorem needsSZero_ok {s : BitVec 1} {c : Instr} (h : needsSZero s c = .ok i) : s = 0#1 ∧ i = c := by
  unfold needsSZero at h
  split at h
  · exact ⟨by assumption, by cases h; rfl⟩
  · cases h

theorem needsSZero_error_iff {s : BitVec 1} {c : Instr} : (∃ e, needsSZero s c = .error e) ↔ s ≠ 0#1 := by
  unfold needsSZero
  split <;> simp [*]

/-- The word of every command selects the row of its mnemonic, with the reserved bits at 0 (R101, R103). -/
theorem encoding_statement : ∀ i : Instr, Laws.Encoding.Statement i
  | .freq => Laws.Encoding.freq
  | .tree => Laws.Encoding.tree
  | .codes => Laws.Encoding.codes
  | .encode => Laws.Encoding.encode
  | .decode src => Laws.Encoding.decode src
  | .stats => Laws.Encoding.stats
  | .compress => Laws.Encoding.compress
  | .clear => Laws.Encoding.clear

theorem decodeCmd_encode (i : Instr) : decodeCmd (encode i) = .ok i := by
  cases i with
  | decode src => cases src <;> rfl
  | _ => rfl

/-- A legal word has the three fields of its command's encoding (R103, R104). -/
theorem decodeCmd_fields (h : decodeCmd w = .ok i) :
    opcOf w = opcOf (encode i) ∧ selOf w = selOf (encode i) ∧ resOf w = 0#23 := by
  unfold decodeCmd at h
  split at h
  · cases h
  rename_i hres
  rw [Decidable.not_not] at hres
  split at h
  case h_5 hopc =>
    cases h
    rcases BitVec.eq_zero_or_eq_one (selOf w) with hsel | hsel <;>
      exact ⟨BitVec.eq_of_toNat_eq (by rw [hopc, hsel]; rfl), by rw [hsel]; rfl, hres⟩
  case h_9 => cases h
  all_goals
    rename_i hopc
    obtain ⟨hsel, rfl⟩ := needsSZero_ok h
    exact ⟨BitVec.eq_of_toNat_eq hopc, hsel, hres⟩

/-- Decoding succeeds on the encodings only (R103). -/
theorem decodeCmd_ok_iff : decodeCmd w = .ok i ↔ w = encode i := by
  refine ⟨fun h => ?_, fun h => h ▸ decodeCmd_encode i⟩
  obtain ⟨hopc, hsel, hres⟩ := decodeCmd_fields h
  obtain ⟨-, hzero⟩ := encoding_statement i
  exact word_ext hopc hsel (hres.trans hzero.symm)

/-! ### The opcode map -/

/-- The mask of the DECODE row leaves only S open (R103). -/
theorem eq_encode_decode_of_mask (h : w &&& 0xFFFFFEFF#32 = 5#32) : ∃ src, w = encode (.decode src) := by
  have hopc : opcOf (w &&& 0xFFFFFEFF#32) = opcOf w := BitVec.extractLsb'_and.trans BitVec.and_allOnes
  have hres : resOf (w &&& 0xFFFFFEFF#32) = resOf w := BitVec.extractLsb'_and.trans BitVec.and_allOnes
  rw [h] at hopc hres
  rcases BitVec.eq_zero_or_eq_one (selOf w) with hsel | hsel
  · exact ⟨.bitIn, word_ext hopc.symm hsel hres.symm⟩
  · exact ⟨.bitOut, word_ext hopc.symm hsel hres.symm⟩

/-- Only the encodings select a row (R103). -/
theorem eq_encode_of_selects {r : OpcodeRow} (hr : r ∈ opcodeMap) (h : r.selects w = true) : ∃ i, w = encode i := by
  have hsel : w &&& r.mask = r.value := of_decide_eq_true h
  have hall : ∀ v : Word, w &&& 0xFFFFFFFF#32 = v → w = v := fun v hv => BitVec.and_allOnes.symm.trans hv
  simp only [opcodeMap, List.mem_cons, List.not_mem_nil, or_false] at hr
  rcases hr with rfl | rfl | rfl | rfl | rfl | rfl | rfl | rfl
  · exact ⟨.freq, hall _ hsel⟩
  · exact ⟨.tree, hall _ hsel⟩
  · exact ⟨.codes, hall _ hsel⟩
  · exact ⟨.encode, hall _ hsel⟩
  · obtain ⟨src, hw⟩ := eq_encode_decode_of_mask hsel
    exact ⟨.decode src, hw⟩
  · exact ⟨.stats, hall _ hsel⟩
  · exact ⟨.compress, hall _ hsel⟩
  · exact ⟨.clear, hall _ hsel⟩

end

/-! ### The statements -/

/-- Settles O1: the decoder computes each of the thirteen words. -/
theorem commandWordsDecode : Obligations.CommandWordsDecode := by
  unfold Obligations.CommandWordsDecode
  decide

/-- Settles O2. -/
theorem decodeInvertsEncode : Obligations.DecodeInvertsEncode := fun i _ => decodeCmd_encode i

/-- Settles O3: the legal words are the encodings of the commands, and only those select a row of the map. -/
theorem legalWordsAreTheNine : Obligations.LegalWordsAreTheNine := by
  refine ⟨fun w => ?_, fun w i => decodeCmd_ok_iff.1, fun w => ?_⟩
  · simp only [decodeCmd_ok_iff]
    constructor
    · rintro ⟨i, rfl⟩
      cases i with
      | decode src => cases src <;> decide
      | _ => decide
    · simp only [List.mem_cons, List.not_mem_nil, or_false]
      rintro (rfl | rfl | rfl | rfl | rfl | rfl | rfl | rfl | rfl)
      exacts [⟨.freq, rfl⟩, ⟨.tree, rfl⟩, ⟨.codes, rfl⟩, ⟨.encode, rfl⟩, ⟨.decode .bitIn, rfl⟩, ⟨.stats, rfl⟩,
        ⟨.compress, rfl⟩, ⟨.clear, rfl⟩, ⟨.decode .bitOut, rfl⟩]
  · unfold legalCmd
    cases hw : decodeCmd w with
    | ok i =>
      obtain rfl := decodeCmd_ok_iff.1 hw
      obtain ⟨hfind, -⟩ := encoding_statement i
      exact hfind.symm
    | error e =>
      have hnone : opcodeMap.find? (fun r => r.selects w) = none := by
        refine List.find?_eq_none.2 fun r hr hsel => ?_
        obtain ⟨i, rfl⟩ := eq_encode_of_selects hr hsel
        simp [decodeCmd_encode] at hw
      rw [hnone]
      rfl

/-- Settles O4, by the branches of the decoder. -/
theorem illegalWordsAreThose : Obligations.IllegalWordsAreThose := by
  intro w
  change _ ↔ opcOf w = 0#8 ∨ 9 ≤ (opcOf w).toNat ∨ resOf w ≠ 0#23 ∨ (w.getLsbD 8 = true ∧ opcOf w ≠ 5#8)
  have hzero : opcOf w = 0#8 ↔ (opcOf w).toNat = 0 := BitVec.toNat_inj.symm
  have hfive : opcOf w = 5#8 ↔ (opcOf w).toNat = 5 := BitVec.toNat_inj.symm
  rw [← selOf_ne_zero_iff, hzero, ne_eq (opcOf w), hfive]
  unfold decodeCmd
  split
  case isTrue hres => simp [hres]
  case isFalse hres =>
    split
    case h_5 hopc => simp [hopc, hres]
    case h_9 =>
      have hopc : (opcOf w).toNat = 0 ∨ 9 ≤ (opcOf w).toNat := by
        simp only [imp_false] at *
        omega
      simp [← or_assoc, hopc]
    all_goals
      rename_i hopc
      simp [needsSZero_error_iff, hopc, hres]

end Sys2Proof
end

section
/-! SUPPORT and O34. What each command leaves as the host reads it (spec/30_encoding.md R102). -/

namespace Sys2Proof.Machine

/-! ### The columns of R102 -/

/-- COMPRESS writes what the five commands of its stages write (R102, R215). -/
theorem mayWrite_compress (loc : Loc) :
    mayWrite .compress loc = (mayWrite .freq loc || mayWrite .tree loc || mayWrite .codes loc ||
      mayWrite .encode loc || mayWrite .stats loc) := by
  cases loc with
  | reg r => cases r <;> rfl
  | _ => rfl

/-- CLEAR writes what COMPRESS and DECODE write (R102, R220). -/
theorem mayWrite_clear (src : Src) (loc : Loc) :
    mayWrite .clear loc = (mayWrite .compress loc || mayWrite (.decode src) loc) := by
  cases loc with
  | reg r => cases r <;> rfl
  | _ => rfl

/-! ### The words each update leaves alone -/

section
variable (s : State) {loc : Loc}

/-- A completion is read in STATUS only (R246). -/
theorem State.view_complete (code : ErrCode) (h : loc ≠ .reg .status) :
    (s.complete code).view loc = s.view loc := by
  cases loc with
  | reg r =>
    cases r with
    | status => exact absurd rfl h
    | _ => rfl
  | _ => rfl

theorem State.view_setTable (x : FreqTable) (h : mayWrite .freq loc = false) :
    (s.setTable x).view loc = s.view loc := by
  cases loc with
  | reg r =>
    cases r with
    | ftN | ftTotal => cases h
    | _ => rfl
  | freq | ftOrder => cases h
  | _ => rfl

/-- The tree is also read in STATUS.TREE (R26, R37). -/
theorem State.view_setTree (x : HuffTree) (hstatus : loc ≠ .reg .status) (h : mayWrite .tree loc = false) :
    (s.setTree x).view loc = s.view loc := by
  cases loc with
  | reg r =>
    cases r with
    | status => exact absurd rfl hstatus
    | nodeCount | root => cases h
    | _ => rfl
  | node => cases h
  | _ => rfl

theorem State.view_setCodes (x : CodeBook) (h : mayWrite .codes loc = false) :
    (s.setCodes x).view loc = s.view loc := by
  cases loc with
  | reg r => cases r <;> rfl
  | cb => cases h
  | _ => rfl

theorem State.view_setEncoded (x : Encoded) (h : mayWrite .encode loc = false) :
    (s.setEncoded x).view loc = s.view loc := by
  cases loc with
  | reg r =>
    cases r with
    | bitOutLen | encSkip => cases h
    | _ => rfl
  | bitOut => cases h
  | _ => rfl

theorem State.view_setDecoded (x : Decoded) {src : Src} (h : mayWrite (.decode src) loc = false) :
    (s.setDecoded x).view loc = s.view loc := by
  cases loc with
  | reg r =>
    cases r with
    | symOutLen | decTail => cases h
    | _ => rfl
  | symOut => cases h
  | _ => rfl

theorem State.view_setStats (x : Stats) (h : mayWrite .stats loc = false) :
    (s.setStats x).view loc = s.view loc := by
  cases loc with
  | reg r =>
    cases r with
    | statOrigBits | statCompBits | statRatioNum | statRatioDen | statRatioBp | statSavedBits => cases h
    | _ => rfl
  | _ => rfl

/-- CLEAR is the writes of every piece of the session (R220). -/
theorem State.clearSession_eq : s.clearSession =
    (((((s.setTable FreqTable.empty).setTree HuffTree.absent).setCodes CodeBook.empty).setEncoded
      Encoded.empty).setDecoded Decoded.empty).setStats Stats.zero := rfl

end

/-! ### The words each command leaves alone -/

section
variable {s t : State} {loc : Loc}

theorem State.view_compressTail (s : State) (hstatus : loc ≠ .reg .status) (henc : mayWrite .encode loc = false)
    (hsts : mayWrite .stats loc = false) : s.compressTail.view loc = s.view loc := by
  rcases compressTail_cases s with ⟨_, e⟩ | ⟨x, _, e⟩ <;> rw [e, State.view_complete _ _ hstatus]
  rw [State.view_setStats _ _ hsts, State.view_setEncoded _ _ henc]

/-- A command leaves the words outside its column of R102 alone, STATUS apart. -/
theorem exec_view {i : Instr} (he : exec i s = .next t) (hstatus : loc ≠ .reg .status)
    (h : mayWrite i loc = false) : t.view loc = s.view loc := by
  cases i with
  | freq =>
    rcases execFreq_next he with ⟨_, rfl⟩ | ⟨_, rfl⟩ <;> rw [State.view_complete _ _ hstatus]
    exact s.view_setTable _ h
  | tree =>
    obtain ⟨x, _, rfl⟩ := execTree_next he
    rw [State.view_complete _ _ hstatus, s.view_setTree x hstatus h]
  | codes =>
    obtain ⟨c, _, rfl⟩ := execCodes_next he
    rw [State.view_complete _ _ hstatus, s.view_setCodes c h]
  | encode =>
    rcases execEncode_next he with ⟨_, rfl⟩ | ⟨_, _, rfl⟩ | ⟨_, x, _, rfl⟩ <;> rw [State.view_complete _ _ hstatus]
    exact s.view_setEncoded x h
  | decode src =>
    rcases execDecode_next he with ⟨_, _, rfl⟩ | ⟨_, out, tail, _, rfl, _⟩ <;> rw [State.view_complete _ _ hstatus]
    exact s.view_setDecoded _ h
  | stats =>
    rcases execStats_next he with ⟨_, rfl⟩ | ⟨_, rfl⟩ <;> rw [State.view_complete _ _ hstatus]
    exact s.view_setStats _ h
  | compress =>
    simp only [mayWrite_compress, Bool.or_eq_false_iff, and_assoc] at h
    obtain ⟨htbl, htre, hcb, henc, hsts⟩ := h
    rcases execCompress_next he with ⟨_, rfl⟩ | ⟨_, x, c, _, _, rfl⟩
    · exact s.view_complete _ hstatus
    · rw [State.view_compressTail _ hstatus henc hsts, State.view_setCodes _ _ hcb, State.view_setTree _ _ hstatus htre,
        State.view_setTable _ _ htbl]
  | clear =>
    simp only [mayWrite_clear .bitIn, mayWrite_compress, Bool.or_eq_false_iff, and_assoc] at h
    obtain ⟨htbl, htre, hcb, henc, hsts, hdec⟩ := h
    rw [execClear_next he, State.view_complete _ _ hstatus, s.clearSession_eq, State.view_setStats _ _ hsts,
      State.view_setDecoded _ _ hdec, State.view_setEncoded _ _ henc, State.view_setCodes _ _ hcb,
      State.view_setTree _ _ hstatus htre, State.view_setTable _ _ htbl]

end

/-- Settles O34: the words by `exec_view`, the tree by its writers, and the rest by what every completion keeps. -/
theorem commandsWriteOnlyTheirOwn : Obligations.CommandsWriteOnlyTheirOwn := by
  intro i s t he
  have hdone := exec_completed he
  have htre : writesShape i = false → t.tre = s.tre := by
    intro hshape
    obtain ⟨hwriters, -⟩ := exec_treeAndCodes he
    rcases hwriters with h | rfl | rfl | rfl
    · exact h
    all_goals cases hshape
  exact ⟨fun _ => exec_view he, hdone.cfg, hdone.ie, hdone.ovr, hdone.lastOp, hdone.inp, hdone.host, hdone.env, htre,
    hdone.seq, hdone.done⟩

end Sys2Proof.Machine
end

section
/-! SUPPORT, O48 and O50. What the host's assembler gives (spec/30_encoding.md R108, R109). -/

namespace Sys2Proof.Machine

/-! ### The addresses of the inputs (R72) -/

theorem addressOf_symIn (i : Nat) : addressOf (.symIn i) = BitVec.ofNat 32 (0x01000000 + 4 * i) := by
  simp only [addressOf, wordIndex]
  congr 1
  omega

theorem addressOf_bitIn (j : Nat) : addressOf (.bitIn j) = BitVec.ofNat 32 (0x02000000 + 4 * j) := by
  simp only [addressOf, wordIndex]
  congr 1
  omega

/-! ### The writes of `fill` (R109) -/

/-- The writes of `fill` from element `i` on, in closed form. -/
theorem fillWrites_eq (i : Nat) (text : List Symbol) :
    fillWrites i text =
      (List.range text.length).map
          (fun k => .wr (addressOf (.symIn (i + k))) ((text.getD k 0#8).setWidth 32))
        ++ [.wr (addressOf (.reg .symLen)) (BitVec.ofNat 32 (i + text.length))] := by
  induction text generalizing i with
  | nil => rfl
  | cons x xs ih =>
    rw [fillWrites, ih (i + 1), List.length_cons, List.range_succ_eq_map, List.map_cons, List.map_map]
    simp [Function.comp_def, Nat.add_assoc, Nat.add_comm 1]

/-! ### Sizes and positions (R108) -/

theorem expand_goto (labels : List (Nat × Nat)) (pos t hi lo v l : Nat) :
    Stmt.expand labels pos (.goto t hi lo v l) =
      (labelPos labels l).map (fun target => [.br (t + 1) hi lo v target]) := by
  simp only [Stmt.expand]
  cases labelPos labels l <;> rfl

theorem fillWrites_length (i : Nat) (text : List Symbol) : (fillWrites i text).length = text.length + 1 := by
  simp [fillWrites_eq]

/-- A statement expands to as many entries as its size says. -/
theorem expand_length {labels : List (Nat × Nat)} {pos : Nat} {st : Stmt} {ops : List PortOp}
    (h : Stmt.expand labels pos st = some ops) : ops.length = Stmt.size st := by
  cases st with
  | fill text =>
    cases h
    exact fillWrites_length 0 text
  | fillbits bits =>
    cases h
    simp [fillbitsWrites, Stmt.size]
  | goto t hi lo v l =>
    rw [expand_goto, Option.map_eq_some_iff] at h
    obtain ⟨target, _, rfl⟩ := h
    rfl
  | _ =>
    cases h
    rfl

/-- The number of entries of a list of statements. -/
def programSize (stmts : List Stmt) : Nat := (stmts.map Stmt.size).sum

@[simp] theorem programSize_nil : programSize [] = 0 := rfl

@[simp] theorem programSize_cons (st : Stmt) (stmts : List Stmt) :
    programSize (st :: stmts) = Stmt.size st + programSize stmts := by simp [programSize]

/-- The label of a statement, if it is one. -/
def labelOf : Stmt → Option Nat
  | .label l => some l
  | _ => none

theorem labelPositions_cons (pos : Nat) (st : Stmt) (stmts : List Stmt) :
    labelPositions pos (st :: stmts) =
      ((labelOf st).map (fun l => (l, pos))).toList ++ labelPositions (pos + Stmt.size st) stmts := by
  cases st <;> rfl

theorem labelPositions_append (pos : Nat) (a b : List Stmt) :
    labelPositions pos (a ++ b) = labelPositions pos a ++ labelPositions (pos + programSize a) b := by
  induction a generalizing pos with
  | nil => rfl
  | cons st a ih => simp [labelPositions_cons, ih, Nat.add_assoc]

/-- Only a label statement gives its label a position. -/
theorem label_mem_of_labelPositions {pos : Nat} {stmts : List Stmt} {c : Nat × Nat}
    (h : c ∈ labelPositions pos stmts) : .label c.1 ∈ stmts := by
  induction stmts generalizing pos with
  | nil => cases h
  | cons st stmts ih =>
    rw [labelPositions_cons, List.mem_append] at h
    rcases h with h | h
    · cases st with
      | label l =>
        obtain rfl : c = (l, pos) := by simpa [labelOf] using h
        exact List.mem_cons_self
      | _ => cases h
    · exact List.mem_cons_of_mem _ (ih h)

/-- A label defined once has the position after the statements before it. -/
theorem labelPos_of_once {pre post : List Stmt} {l : Nat} (hpre : .label l ∉ pre) (hpost : .label l ∉ post) :
    labelPos (labelPositions 0 (pre ++ .label l :: post)) l = some (programSize pre) := by
  have hnone : ∀ {pos stmts}, .label l ∉ stmts →
      (labelPositions pos stmts).filter (fun c => decide (c.1 = l)) = [] := by
    intro pos stmts hl
    refine List.filter_eq_nil_iff.2 fun c hc hcl => hl ?_
    rw [← of_decide_eq_true hcl]
    exact label_mem_of_labelPositions hc
  unfold labelPos
  simp [labelPositions_append, labelPositions_cons, labelOf, hnone hpre, hnone hpost]

/-! ### Expansion one statement after the other (R108) -/

section
variable {labels : List (Nat × Nat)} {pos : Nat} {ops : List PortOp}

theorem expandFrom_cons {st : Stmt} {stmts : List Stmt} (h : expandFrom labels pos (st :: stmts) = some ops) :
    ∃ x y, Stmt.expand labels pos st = some x ∧ expandFrom labels (pos + Stmt.size st) stmts = some y ∧
      ops = x ++ y := by
  unfold expandFrom at h
  split at h
  · rename_i x y hx hy
    cases h
    exact ⟨x, y, hx, hy, rfl⟩
  · cases h

theorem expandFrom_append {a b : List Stmt} (h : expandFrom labels pos (a ++ b) = some ops) :
    ∃ x y, expandFrom labels pos a = some x ∧ expandFrom labels (pos + programSize a) b = some y ∧ ops = x ++ y := by
  induction a generalizing pos ops with
  | nil => exact ⟨[], ops, rfl, h, rfl⟩
  | cons st a ih =>
    obtain ⟨x, r, hx, hr, rfl⟩ := expandFrom_cons h
    obtain ⟨y, z, hy, hz, rfl⟩ := ih hr
    refine ⟨x ++ y, z, ?_, ?_, (List.append_assoc ..).symm⟩
    · rw [expandFrom, hx, hy]
    · rw [programSize_cons, ← Nat.add_assoc]
      exact hz

theorem expandFrom_length {stmts : List Stmt} (h : expandFrom labels pos stmts = some ops) :
    ops.length = programSize stmts := by
  induction stmts generalizing pos ops with
  | nil =>
    cases h
    rfl
  | cons st stmts ih =>
    obtain ⟨x, y, hx, hy, rfl⟩ := expandFrom_cons h
    rw [List.length_append, expand_length hx, ih hy, programSize_cons]

end

/-! ### The statements -/

/-- Settles O48: the expansions are those of the definition at the addresses of the map, `cmd` is an accepted issue and `ack`
a STATUS write of bits 1 and 2. -/
theorem hostStatementsExpand : Obligations.HostStatementsExpand := by
  refine ⟨fun _ _ _ => rfl, fun _ _ _ => rfl, fun s i hq => ⟨?_, decodeCmd_encode i⟩, fun _ _ => rfl, fun s => ?_,
    fun labels pos p loc v h => ⟨_, rfl, ?_⟩, fun labels pos p loc t h => ⟨_, rfl, locate_addressOf h⟩,
    fun labels pos text => ⟨rfl, ?_⟩, fun labels pos bits => ⟨rfl, ?_⟩, fun _ _ _ => rfl, expand_goto⟩
  · have hw : s.hostWrite 0x10#32 (encode i) = (s.acceptWord (encode i)).drawLatency :=
      (State.hostWrite_reg (r := .cmd) (locate_addressOf rfl) _).trans (s.issue_idle hq _)
    rw [State.perform, hw]
    simp
  · rw [State.perform, statusWriteClears s 0x14#32 6#32 (locate_addressOf (loc := .reg .status) rfl)]
    rfl
  · simp only [Stmt.wf, Bool.and_eq_true] at h
    obtain ⟨hplace, -⟩ := h
    exact locate_addressOf hplace
  · simp only [fillWrites_eq, Nat.zero_add, addressOf_symIn]
    rfl
  · simp only [fillbitsWrites, addressOf_bitIn]
    rfl

/-- Settles O50: the expansion splits at the label, which adds no entry, and the part before it is as long as its size. -/
theorem labelsNameTheNextStatement : Obligations.LabelsNameTheNextStatement := by
  intro pre post l ops h hpre hpost
  obtain ⟨a, r, ha, hr, rfl⟩ := expandFrom_append h
  obtain ⟨x, b, hx, hb, rfl⟩ := expandFrom_cons hr
  cases hx
  have hlen := expandFrom_length ha
  rw [Nat.zero_add, ← hlen] at hb
  exact ⟨a, b, rfl, by rw [labelPos_of_once hpre hpost, hlen], ha, hb⟩

end Sys2Proof.Machine
end

section
/-! SUPPORT and O51. What the writes of `fill` and `fillbits` load (spec/30_encoding.md R109, spec/70_reset_and_hazards.md
R275). -/

namespace Sys2Proof.Machine

theorem performWrites_append (s : State) (a b : List PortOp) :
    s.performWrites (a ++ b) = (s.performWrites a).performWrites b := by
  induction a generalizing s with
  | nil => rfl
  | cons op a ih => cases op <;> exact ih _

section
variable {s : State}

/-- Writes to places `loc 0`, `loc 1`, … that change the inputs only, each loading its own element and no other, load
every element. -/
theorem performWrites_range {n : Nat} {loc : Nat → Loc} {v : Nat → Word} {Loaded : Inputs → Nat → Prop}
    (hwrite : ∀ x, ∀ i < n, ∃ y, State.hostWrite { s with inp := x } (addressOf (loc i)) (v i) = { s with inp := y } ∧
      Loaded y i ∧ ∀ k, k ≠ i → Loaded x k → Loaded y k) :
    ∃ x, s.performWrites ((List.range n).map (fun i => .wr (addressOf (loc i)) (v i))) = { s with inp := x } ∧
      ∀ i < n, Loaded x i := by
  induction n with
  | zero => exact ⟨s.inp, rfl, nofun⟩
  | succ n ih =>
    obtain ⟨x, hx, hloaded⟩ := ih fun x i hi => hwrite x i (by omega)
    obtain ⟨y, hy, hnew, hold⟩ := hwrite x n (by omega)
    refine ⟨y, ?_, fun i hi => ?_⟩
    · rw [List.range_succ, List.map_append, performWrites_append, hx]
      exact hy
    · by_cases hin : i = n
      · rw [hin]
        exact hnew
      · exact hold i hin (hloaded i (by omega))

/-- A write of a length register while idle keeps the word (R28, R29). -/
theorem hostWrite_lengths (hq : s.seq = .idle) (x : Inputs) (w : Word) :
    State.hostWrite { s with inp := x } (addressOf (.reg .symLen)) w = { s with inp := { x with symLen := w } } ∧
    State.hostWrite { s with inp := x } (addressOf (.reg .bitInLen)) w = { s with inp := { x with bitInLen := w } } := by
  have hreg : ∀ r : Reg, locate s.cfg (addressOf (.reg r)) = .reg r := fun r => locate_addressOf rfl
  have hwrite := State.writeInput_idle { s with inp := x } hq
  exact ⟨(State.hostWrite_reg (s := { s with inp := x }) (hreg .symLen) w).trans (hwrite _),
    (State.hostWrite_reg (s := { s with inp := x }) (hreg .bitInLen) w).trans (hwrite _)⟩

/-! ### `fill` -/

/-- `fill` writes the text to SYM_IN and its length to SYM_LEN (R109). -/
theorem performWrites_fill (hq : s.seq = .idle) {text : List Symbol} (h : text.length ≤ s.cfg.maxLen) :
    ∃ x, s.performWrites (fillWrites 0 text) = { s with inp := x } ∧ x.symLen = BitVec.ofNat 32 text.length ∧
      ∀ i < text.length, x.symAt i = text.getD i 0#8 := by
  obtain ⟨x, hx, hloaded⟩ : ∃ x, s.performWrites ((List.range text.length).map
      (fun i => .wr (addressOf (.symIn i)) ((text.getD i 0#8).setWidth 32))) = { s with inp := x } ∧
      ∀ i < text.length, x.symAt i = text.getD i 0#8 := by
    refine performWrites_range fun x i hi => ?_
    have hplace : Loc.wf s.cfg (.symIn i) = true := decide_eq_true (by omega)
    refine ⟨_, State.hostWrite_symIn (s := { s with inp := x }) hq (locate_addressOf hplace) _, ?_,
      fun k hk hold => ?_⟩
    · rw [Inputs.symAt_put, if_pos rfl]
      exact (BitVec.extractLsb'_setWidth_of_le (by decide)).trans BitVec.extractLsb'_eq_self
    · rw [Inputs.symAt_put, if_neg hk, hold]
  obtain ⟨hlen, -⟩ := hostWrite_lengths hq x (BitVec.ofNat 32 text.length)
  refine ⟨{ x with symLen := BitVec.ofNat 32 text.length }, ?_, rfl, hloaded⟩
  simp only [fillWrites_eq, Nat.zero_add]
  rw [performWrites_append, hx]
  exact hlen

/-! ### `fillbits` -/

/-- Bit `k` of the words `fillbits` writes is bit `k` of the string (R84, R109). -/
theorem streamBit_packedWord {bits : Bits} {word : Nat → Word} {k : Nat} (h : k < bits.length)
    (hword : word (k / 32) = packedWord bits bits.length (k / 32)) : streamBit word k = bits.getD k false := by
  have hk : 32 * (k / 32) + k % 32 = k := Nat.div_add_mod k 32
  have hmod : k % 32 < 32 := Nat.mod_lt _ (by decide)
  rw [← hk, streamBit_word _ _ hmod, hword, packedWord_getLsbD _ _ _ _ hmod, hk]
  simp [h]

/-- `fillbits` writes the string to BIT_IN and its length to BIT_IN_LEN (R109). -/
theorem performWrites_fillbits (hq : s.seq = .idle) {bits : Bits} (h : bits.length ≤ s.cfg.maxBits) :
    ∃ x, s.performWrites (fillbitsWrites bits) = { s with inp := x } ∧ x.bitInLen = BitVec.ofNat 32 bits.length ∧
      ∀ k < bits.length, x.bitAt k = bits.getD k false := by
  have hlegal := s.cfg.legal
  obtain ⟨x, hx, hloaded⟩ : ∃ x, s.performWrites ((List.range (wordsFor bits.length)).map
      (fun j => .wr (addressOf (.bitIn j)) (packedWord bits bits.length j))) = { s with inp := x } ∧
      ∀ j < wordsFor bits.length, x.bitWordAt j = packedWord bits bits.length j := by
    refine performWrites_range fun x j hj => ?_
    unfold wordsFor at hj
    have hplace : Loc.wf s.cfg (.bitIn j) = true := decide_eq_true (by omega)
    refine ⟨_, State.hostWrite_bitIn (s := { s with inp := x }) hq (locate_addressOf hplace) _, ?_,
      fun k hk hold => ?_⟩
    · rw [Inputs.bitWordAt_put, if_pos rfl]
    · rw [Inputs.bitWordAt_put, if_neg hk, hold]
  obtain ⟨-, hlen⟩ := hostWrite_lengths hq x (BitVec.ofNat 32 bits.length)
  refine ⟨{ x with bitInLen := BitVec.ofNat 32 bits.length }, ?_, rfl, fun k hk => ?_⟩
  · rw [fillbitsWrites, performWrites_append, hx]
    exact hlen
  · exact streamBit_packedWord hk (hloaded (k / 32) (by unfold wordsFor; omega))

end

/-- Reading a list element by element gives the list. -/
theorem map_range_eq {α : Type} {f : Nat → α} {xs : List α} {d : α} (h : ∀ i < xs.length, f i = xs.getD i d) :
    (List.range xs.length).map f = xs := by
  refine List.ext_getElem (by simp) fun i _ hi => ?_
  rw [List.getElem_map, List.getElem_range, h i hi, List.getD_eq_getElem _ _ hi]

/-- Settles O51: what the writes load, read through lengths that fit their registers. -/
theorem fillLoadsTheInputs : Obligations.FillLoadsTheInputs := by
  refine ⟨fun s text hq h => ?_, fun s bits hq h => ?_⟩
  · have hlegal := s.cfg.legal
    obtain ⟨x, hx, hlen, hsyms⟩ := performWrites_fill hq h
    have hnat : x.symLen.toNat = text.length := by
      rw [hlen, BitVec.toNat_ofNat, Nat.mod_eq_of_lt (by omega)]
    rw [hx]
    exact ⟨by rw [State.symInput, hnat]; exact map_range_eq hsyms, hnat, x, rfl⟩
  · have hlegal := s.cfg.legal
    obtain ⟨x, hx, hlen, hbits⟩ := performWrites_fillbits hq h
    have hnat : x.bitInLen.toNat = bits.length := by
      rw [hlen, BitVec.toNat_ofNat, Nat.mod_eq_of_lt (by omega)]
    rw [hx]
    exact ⟨by rw [State.bitInput, hnat]; exact map_range_eq hbits, hnat, x, rfl⟩

end Sys2Proof.Machine
end

section
/-! SUPPORT, O49 and O52. The host's branches and the loop of `wait` (spec/30_encoding.md R108, R109). -/

namespace Sys2Proof.Machine

theorem fieldOf_eq_extractLsb' (w : Word) (hi lo : Nat) : fieldOf w hi lo = (w.extractLsb' lo (hi - lo + 1)).toNat := by
  rw [fieldOf, BitVec.extractLsb'_toNat, Nat.shiftRight_eq_div_pow]

/-- A one-bit field is the bit (R8). -/
theorem fieldOf_bit (w : Word) (i : Nat) : fieldOf w i i = (w.getLsbD i).toNat := by
  rw [fieldOf, Nat.sub_self, BitVec.getLsbD, Nat.toNat_testBit, Nat.zero_add, Nat.pow_one]

section
variable (s : State) {t : Nat} {w : Word}

/-- A read puts its word into its temporary and moves the host on (R108). -/
theorem State.perform_rd_host (addr : Word) (t : Nat) :
    (s.perform (.rd addr t)).host =
      { s.host with temps := Memory.put s.host.temps t (s.hostRead addr).1, pos := s.host.pos + 1 } := by
  simp only [State.perform]
  rcases s.hostRead_snd addr with e | e <;> rw [e]

variable {s}

/-- A branch on a temporary that holds `w` moves the host by its test (R108). -/
theorem State.perform_br (h : Memory.find s.host.temps t = some w) (hi lo v target : Nat) :
    s.perform (.br t hi lo v target) = s.hostAt (if fieldOf w hi lo = v then target else s.host.pos + 1) := by
  simp [State.perform, HostAgent.branchTaken, h]

theorem State.hostTurn_perform {op : PortOp} (h : s.host.prog[s.host.pos]? = some op) : s.hostTurn = s.perform op := by
  simp [State.hostTurn, HostAgent.next, h]

end

/-- Settles O49: a branch moves the host by its test, and a read after a write to the same temporary gives the word. -/
theorem branchesTestAField : Obligations.BranchesTestAField := by
  intro s t hi lo v target w _ h
  refine ⟨?_, fun addr => ⟨?_, ?_⟩⟩
  · rw [State.perform_br h, fieldOf_eq_extractLsb']
    rfl
  · rw [State.perform_rd_host]
  · rw [State.perform_rd_host]
    exact Memory.find_put_same ..

/-- Settles O52: the loop's branch tests bit 0 of the STATUS word its read put into the temporary. -/
theorem waitLoopsWhileBusy : Obligations.WaitLoopsWhileBusy := by
  refine fun s pos => ⟨rfl, fun hpos hrd hbr => ?_⟩
  have hread : s.hostRead 0x14#32 = (s.statusWord, s) :=
    State.hostRead_reg (r := .status) (locate_addressOf (loc := .reg .status) rfl) rfl
  have hhost := s.perform_rd_host 0x14#32 waitTemp
  rw [hread, hpos] at hhost
  have hfirst : s.hostTurn = s.perform (.rd 0x14#32 waitTemp) := State.hostTurn_perform (by rw [hpos, hrd])
  have hsecond : s.hostTurn.hostTurn = s.hostTurn.perform (.br waitTemp 0 0 1 pos) :=
    State.hostTurn_perform (by rw [hfirst, hhost]; exact hbr)
  have htemp : Memory.find s.hostTurn.host.temps waitTemp = some s.statusWord := by
    rw [hfirst, hhost]
    exact Memory.find_put_same ..
  rw [hsecond, State.perform_br htemp, fieldOf_bit, s.statusWord_busy, State.hostAt_host, hfirst, hhost]
  cases s.isBusy <;> rfl

end Sys2Proof.Machine
end

section
/-! SUPPORT, O14, O15 and O16. FREQ on an input of legal length (spec/40_frequency.md R120 to R124). -/

namespace Sys2Proof.Machine

/-! ### The table of an input (R122) -/

section
variable (syms : List Symbol)

theorem buildFrequencyTable_ftN_dedup : (buildFrequencyTable syms).ftN.toNat = syms.dedup.length := by
  have hperm : (buildFrequencyTable syms).ftOrder.Perm syms.dedup :=
    (List.perm_ext_iff_of_nodup (buildFrequencyTable_distinct syms) syms.nodup_dedup).2 fun x => by
      rw [buildFrequencyTable_keys, List.mem_dedup]
  rw [buildFrequencyTable_ftN, hperm.length_eq]

theorem buildFrequencyTable_ftN_le : (buildFrequencyTable syms).ftN.toNat ≤ min 256 syms.length := by
  rw [buildFrequencyTable_ftN_dedup]
  exact le_min (Symbol.nodup_length_le syms.nodup_dedup) syms.dedup_sublist.length_le

end

/-! ### The command (R120, R123) -/

section
variable {s s' t : State}

/-- FREQ on an input of legal length writes the table of the input and completes. -/
theorem execFreq_legal (h : s.inp.symLen.toNat ≤ s.cfg.maxLen) :
    exec .freq s = .next ((s.setTable (buildFrequencyTable s.symInput)).complete .ok) := by
  have hb : ¬ s.symLenBad = true := by rw [s.symLenBad_iff]; omega
  exact if_neg hb

theorem execFreq_tbl (h : s.inp.symLen.toNat ≤ s.cfg.maxLen) (he : exec .freq s = .next t) :
    t.tbl = buildFrequencyTable s.symInput := by
  rw [execFreq_legal h, Outcome.next_inj] at he
  rw [← he]
  rfl

theorem State.symInput_congr (hlen : s.inp.symLen = s'.inp.symLen)
    (hsyms : ∀ i, i < s.inp.symLen.toNat → s.inp.symAt i = s'.inp.symAt i) : s.symInput = s'.symInput := by
  rw [State.symInput, State.symInput, ← hlen]
  exact List.map_congr_left fun i hi => hsyms i (List.mem_range.1 hi)

end

/-! ### The statements -/

/-- Settles O14: the next state of FREQ holds the table of the input, and each clause is one fact about that table. -/
theorem freqCountsTheInput : Obligations.FreqCountsTheInput := by
  intro s h
  have hlength := s.symInput_length
  have hfits : s.symInput.length < 2 ^ 32 := hlength ▸ s.inp.symLen.isLt
  have hfreq := buildFrequencyTable_freq s.symInput hfits
  have hkeys := buildFrequencyTable_keys s.symInput
  have htotal := buildFrequencyTable_total s.symInput hfits
  refine ⟨buildFrequencyTable s.symInput, execFreq_legal h, hfreq, hkeys, buildFrequencyTable_distinct s.symInput,
    fun x hx => ?_, BitVec.eq_of_toNat_eq (htotal.trans hlength), ?_, buildFrequencyTable_ftN_dedup s.symInput, ?_⟩
  · rw [hfreq, List.count_pos_iff, ← hkeys]
    exact hx
  · rw [htotal, buildFrequencyTable_sum s.symInput hfits]
  · rw [← hlength]
    exact buildFrequencyTable_ftN_le s.symInput

/-- Settles O15: the pass appends a symbol to the keys when it first meets it (`Counting.Tracks.first`). -/
theorem freqOrderIsFirstOccurrence : Obligations.FreqOrderIsFirstOccurrence := by
  intro s t h he x y hx hy _
  rw [execFreq_tbl h he] at hx hy ⊢
  exact buildFrequencyTable_first s.symInput hx hy

/-- Settles O16: the table is that of SYM_IN[0..SYM_LEN−1], which the two states share. -/
theorem freqDependsOnTheInputOnly : Obligations.FreqDependsOnTheInputOnly := by
  intro s s' t t' h h' hlen hsyms he he'
  rw [execFreq_tbl h he, execFreq_tbl h' he', State.symInput_congr hlen hsyms]

end Sys2Proof.Machine
end

section
/-! SUPPORT, O20, O21, O22 and O53. TREE on a consistent table (spec/41_tree.md R140 to R149), and the worked example
"abracadabra" (spec/42_codebook.md R165, spec/44_stats_control.md R215). -/

namespace Sys2Proof.Machine

/-! ### The tree over two keys or more (R145, R146) -/

section
variable {freq : Vector Word 256} {keys : List Symbol}

/-- NODE_COUNT and ROOT fit their registers: no more than 256 keys are distinct. -/
theorem huffman_registers (h : 2 ≤ keys.length) (hd : keys.Nodup) :
    (huffman freq keys).shape = .general ∧ (huffman freq keys).nodeCount.toNat = 2 * keys.length - 1 ∧
      (huffman freq keys).root.toNat = 2 * keys.length - 2 := by
  have hlen := Symbol.nodup_length_le hd
  rw [huffman_general freq keys h]
  refine ⟨rfl, ?_, ?_⟩
  · exact Nat.mod_eq_of_lt (by omega)
  · exact Nat.mod_eq_of_lt (by omega)

theorem huffman_leaf (h : 2 ≤ keys.length) (hd : keys.Nodup)
    (ht : (keys.map (fun x => (SymTable.get freq x).toNat)).sum < 2 ^ 32) {i : Nat} {x : Symbol}
    (hx : keys[i]? = some x) : (huffman freq keys).node[i]? = some (leafOf freq x) := by
  obtain ⟨p, hp⟩ := huffman_merging freq keys h hd ht
  have hi : i < keys.length := (List.getElem?_eq_some_iff.1 hx).1
  rw [hp.base i (by rwa [List.length_map]), List.getElem?_map, hx]
  rfl

/-- The pair the merge loop ends with is that of the root, and its frequency is the sum of all counts. -/
theorem huffman_root_freq (h : 2 ≤ keys.length) (hd : keys.Nodup)
    (ht : (keys.map (fun x => (SymTable.get freq x).toNat)).sum < 2 ^ 32) :
    ∃ r, (huffman freq keys).node[2 * keys.length - 2]? = some r ∧
      r.freq.toNat = (keys.map (fun x => (SymTable.get freq x).toNat)).sum := by
  obtain ⟨p, hp⟩ := huffman_merging freq keys h hd ht
  have hleaves : ∀ r ∈ keys.map (leafOf freq), r.isLeaf = true := by
    intro r hr
    obtain ⟨x, -, rfl⟩ := List.mem_map.1 hr
    rfl
  obtain ⟨hidx, hfreq, -⟩ := hp.root (by rwa [List.length_map]) hleaves
  rw [List.length_map] at hidx
  obtain ⟨r, hr, hrf⟩ := hp.exact p (by simp)
  exact ⟨r, hidx ▸ hr, hrf.trans hfreq⟩

/-- Every internal node is a merge of the loop: it took the two least pairs of the queue (R145). -/
theorem huffman_internal (hd : keys.Nodup)
    (ht : (keys.map (fun x => (SymTable.get freq x).toNat)).sum < 2 ^ 32) {k : Nat} {r : NodeRec}
    (hr : (huffman freq keys).node[k]? = some r) (hl : r.isLeaf = false) :
    r.left.toNat < k ∧ r.right.toNat < k ∧ MergesTwoLeast (huffman freq keys).node k r := by
  match keys, hd, ht, hr with
  | [], _, _, hr => cases hr
  | [x], _, _, hr =>
    have hleaf : r = leafOf freq x := List.mem_singleton.1 (List.mem_of_getElem? hr)
    subst hleaf
    cases hl
  | x :: y :: rest, hd, ht, hr =>
    have h2 : 2 ≤ (x :: y :: rest).length := by simp
    obtain ⟨p, hp⟩ := huffman_merging freq (x :: y :: rest) h2 hd ht
    have hk : (x :: y :: rest).length ≤ k :=
      ((huffman_fullTree freq (x :: y :: rest) h2 hd ht).inner_iff hr).1 hl
    rw [← List.length_map (f := leafOf freq)] at hk
    obtain ⟨-, -, hleft, hright⟩ := hp.inner k r hk hr
    exact ⟨hleft, hright, hp.least k r hk hr⟩

end

/-! ### What TREE reads (R147) -/

theorem huffman_congr {f g : Vector Word 256} {keys : List Symbol}
    (h : ∀ x ∈ keys, SymTable.get f x = SymTable.get g x) : huffman f keys = huffman g keys := by
  have hleaves : keys.map (leafOf f) = keys.map (leafOf g) :=
    List.map_congr_left fun x hx => by rw [leafOf, leafOf, h x hx]
  match keys, hleaves with
  | [], _ => rfl
  | [x], e => rw [huffman_single, huffman_single, List.singleton_inj.1 e]
  | x :: y :: rest, e => rw [huffman_general _ _ (by simp), huffman_general _ _ (by simp), e]

theorem mem_of_firstOf {α : Type} {sp : Space} {n : Nat} {xs ys : List α} (h : firstOf sp n xs = .ok ys) {x : α}
    (hx : x ∈ ys) : x ∈ xs := by
  unfold firstOf at h
  split at h
  · cases h
    exact List.mem_of_mem_take hx
  · cases h

theorem buildTree_congr {t u : FreqTable} (hn : t.ftN = u.ftN) (ho : t.ftOrder = u.ftOrder)
    (hf : ∀ x ∈ t.ftOrder, SymTable.get t.freq x = SymTable.get u.freq x) : buildTree t = buildTree u := by
  unfold buildTree
  rw [← hn, ← ho]
  cases hkeys : firstOf .ftOrder t.ftN.toNat t.ftOrder with
  | error _ => rfl
  | ok keys => exact congrArg Except.ok (huffman_congr fun x hx => hf x (mem_of_firstOf hkeys hx))

/-! ### The command (R140, R148) -/

/-- TREE on a consistent table writes the tree over its keys and completes. -/
theorem execTree_ok {s : State} (h : s.tbl.Ok s.cfg) :
    exec .tree s = .next ((s.setTree (huffman s.tbl.freq s.tbl.ftOrder)).complete .ok) := by
  simp only [exec, execTree, buildTree_ok h]

/-- Settles O20: no key and one key by the equations of `huffman`, and two or more by the finished merge. -/
theorem treeIsFullOverTheKeys : Obligations.TreeIsFullOverTheKeys := by
  intro s h
  have hsize := h.size
  have hd := h.distinct
  have ht := h.sum_lt
  refine ⟨huffman s.tbl.freq s.tbl.ftOrder, execTree_ok h, buildTree_tree_ok h, fun h0 => ?_,
    fun x hx => ?_, fun h2 => ?_⟩
  · rw [List.length_eq_zero_iff.1 (hsize.symm.trans h0)]
    exact ⟨rfl, rfl, rfl, rfl⟩
  · rw [hx]
    exact ⟨rfl, rfl, rfl, rfl⟩
  · rw [hsize] at h2 ⊢
    have hfull := huffman_fullTree s.tbl.freq s.tbl.ftOrder h2 hd ht
    obtain ⟨hshape, hcount, hroot⟩ := huffman_registers (freq := s.tbl.freq) h2 hd
    obtain ⟨r, hr, hrf⟩ := huffman_root_freq h2 hd ht
    rw [hroot]
    exact ⟨hshape, hfull, hcount, rfl, fun i x hx => huffman_leaf h2 hd ht hx,
      ⟨r, hr, BitVec.eq_of_toNat_eq (hrf.trans h.sum_keys)⟩, fun x p hp => hfull.code_length hp⟩

/-- Settles O21: the internal nodes are the merges of the loop. -/
theorem treeMergesTheTwoLeast : Obligations.TreeMergesTheTwoLeast := by
  intro s t h he k r hr hl
  rw [execTree_ok h, Outcome.next_inj] at he
  subst he
  exact huffman_internal h.distinct h.sum_lt hr hl

/-- Settles O22: the leaves hold the counts of the keys, and the merges read the leaves only. -/
theorem treeDependsOnTheTableOnly : Obligations.TreeDependsOnTheTableOnly := by
  intro s s' t t' hn ho hf he he'
  obtain ⟨x, hx, rfl⟩ := execTree_next he
  obtain ⟨x', hx', rfl⟩ := execTree_next he'
  rw [buildTree_congr hn ho hf, hx'] at hx
  exact (Except.ok.inj hx).symm

/-! ### The worked example (R149, R165, R215) -/

/-- What COMPRESS writes when each of its stages succeeds (R215). -/
theorem execCompress_writes {s t : State} {x : HuffTree} {c : CodeBook} {e : Encoded}
    (hlen : s.symLenBad = false) (hx : buildTree (buildFrequencyTable s.symInput) = .ok x)
    (hc : generateCodes x = .ok c) (he : encodeSymbols s.cfg.maxBits c s.symInput = some e)
    (h : exec .compress s = .next t) :
    t.tbl = buildFrequencyTable s.symInput ∧ t.tre = x ∧ t.cb = c ∧ t.enc = e := by
  rcases execCompress_next h with ⟨hbad, -⟩ | ⟨-, x', c', hx', hc', rfl⟩
  · rw [hlen] at hbad
    cases hbad
  · obtain rfl : x = x' := Except.ok.inj (hx.symm.trans hx')
    obtain rfl : c = c' := Except.ok.inj (hc.symm.trans hc')
    rcases compressTail_cases (((s.setTable (buildFrequencyTable s.symInput)).setTree x).setCodes c) with
      ⟨hnone, -⟩ | ⟨e', he', htail⟩
    · exact absurd (he.symm.trans hnone) (by simp)
    · obtain rfl : e = e' := Option.some.inj (he.symm.trans he')
      rw [htail]
      exact ⟨rfl, rfl, rfl, rfl⟩

namespace Abracadabra

/-- The symbols of "abracadabra". -/
def text : List Symbol :=
  [0x61#8, 0x62#8, 0x72#8, 0x61#8, 0x63#8, 0x61#8, 0x64#8, 0x61#8, 0x62#8, 0x72#8, 0x61#8]

/-- The tree of R149. -/
def tree : HuffTree where
  node :=
    [⟨true, 0x61#8, 5#32, 0#9, 0#9⟩, ⟨true, 0x62#8, 2#32, 0#9, 0#9⟩, ⟨true, 0x72#8, 2#32, 0#9, 0#9⟩,
     ⟨true, 0x63#8, 1#32, 0#9, 0#9⟩, ⟨true, 0x64#8, 1#32, 0#9, 0#9⟩, ⟨false, 0#8, 2#32, 3#9, 4#9⟩,
     ⟨false, 0#8, 4#32, 1#9, 2#9⟩, ⟨false, 0#8, 6#32, 5#9, 6#9⟩, ⟨false, 0#8, 11#32, 0#9, 7#9⟩]
  nodeCount := 9#32
  root := 8#9
  shape := .general

/-- The CodeBook of R165, its entries in the order the traversal meets the leaves. -/
def codes : CodeBook :=
  [(0x61#8, [false]), (0x63#8, [true, false, false]), (0x64#8, [true, false, true]),
    (0x62#8, [true, true, false]), (0x72#8, [true, true, true])].foldl
    (fun c (e : Symbol × Bits) => SymTable.set c e.1 e.2) CodeBook.empty

theorem ftOrder_eq : (buildFrequencyTable text).ftOrder = [0x61#8, 0x62#8, 0x72#8, 0x63#8, 0x64#8] := by
  decide +kernel

theorem huffman_eq : huffman (buildFrequencyTable text).freq (buildFrequencyTable text).ftOrder = tree := by
  decide +kernel

theorem buildTree_eq : buildTree (buildFrequencyTable text) = .ok tree := by
  rw [buildTree_ok (buildFrequencyTable_ok text Config.defaults (by decide)), huffman_eq]

theorem generateCodes_eq : generateCodes tree = .ok codes := rfl

/-- The encoded stream: 23 bits, none skipped. -/
def stream : Encoded where
  bitOut := encodedBits codes text
  bitOutLen := 23#32
  encSkip := 0#32

theorem encodeSymbols_eq {maxBits : Nat} (h : 23 ≤ maxBits) : encodeSymbols maxBits codes text = some stream := by
  have hlen : encodedLength codes text = 23 := by decide
  have hskip : skippedCount codes text = 0 := by decide
  rw [encodeSymbols, if_neg (by omega), encodedBits_length, hlen, hskip]
  rfl

theorem packedWord_eq : packedWord stream.bitOut stream.bitOutLen.toNat 0 = 0x6E8ADC00#32 := by decide

end Abracadabra

/-- Settles O53: each stage of COMPRESS on the text is computed, and its 23 bits fit, as MAX_BITS is at least
8 · MAX_LEN (R5). -/
theorem workedExampleAbracadabra : Obligations.WorkedExampleAbracadabra := by
  intro s t hlen (hsyms : s.symInput = Abracadabra.text) hmax h
  have hlegal := s.cfg.legal
  have hgood : s.symLenBad = false := by simpa [State.symLenBad, hlen] using hmax
  have hfits : 23 ≤ s.cfg.maxBits := by omega
  obtain ⟨htbl, htre, hcb, henc⟩ := execCompress_writes hgood (by rw [hsyms, Abracadabra.buildTree_eq])
    Abracadabra.generateCodes_eq (by rw [hsyms, Abracadabra.encodeSymbols_eq hfits]) h
  rw [State.view, htbl, htre, hcb, henc, hsyms]
  exact ⟨Abracadabra.ftOrder_eq, rfl, rfl, rfl, by decide, by decide, by decide, by decide, by decide, rfl,
    Abracadabra.packedWord_eq⟩

end Sys2Proof.Machine
end

section
/-! SUPPORT, O23 and O24. The CodeBook that CODES writes in each state of the tree (spec/42_codebook.md R160 to R163). -/

namespace Sys2Proof.Machine

/-! ### Codes of any arena and of a full binary tree -/

/-- A code ends at a leaf, so it goes on to no other code (R163). -/
theorem IsCode.eq_of_isPrefix {nodes : List NodeRec} {m : Nat} {x y : Symbol} {p q : Bits} (hx : IsCode nodes m x p)
    (hy : IsCode nodes m y q) (hpq : p <+: q) : x = y := by
  obtain ⟨w, rfl⟩ := hpq
  obtain ⟨l, r, hd, hr, hleaf, rfl⟩ := hx
  obtain ⟨k, s, hd', hs, hleaf', rfl⟩ := hy
  rw [descend_append hd] at hd'
  exact ((IsCode.leaf_iff hr hleaf).1 ⟨k, s, hd', hs, hleaf', rfl⟩).2.symm

/-- A symbol has a code exactly when a leaf of the tree holds it, as every node is reached from the root. -/
theorem FullTree.exists_code_iff {n : Nat} {nodes : List NodeRec} (h : FullTree n nodes) (x : Symbol) :
    (∃ p, IsCode nodes (2 * n - 2) x p) ↔ ∃ r ∈ nodes, r.isLeaf = true ∧ r.sym = x := by
  constructor
  · rintro ⟨p, l, r, -, hr, hleaf, hx⟩
    exact ⟨r, List.mem_of_getElem? hr, hleaf, hx⟩
  · rintro ⟨r, hmem, hleaf, hx⟩
    obtain ⟨l, hr⟩ := List.mem_iff_getElem?.1 hmem
    obtain ⟨p, hp⟩ := h.reachable l (h.lt_of_get hr)
    exact ⟨p, l, r, hp, hr, hleaf, hx⟩

/-! ### The empty CodeBook -/

@[simp] theorem CodeBook.get_empty (x : Symbol) : SymTable.get CodeBook.empty x = [] := SymTable.get_replicate [] x

@[simp] theorem CodeBook.kraftScaled_empty : kraftScaled CodeBook.empty = 0 := by
  rw [kraftScaled, SymTable.sum_eq]
  exact Finset.sum_eq_zero fun x _ => by simp

/-! ### The three states of the tree (R37) -/

section
variable {t : HuffTree} {c : CodeBook}

theorem HuffTree.Ok.node_absent (h : t.Ok) (hs : t.shape = .absent) : t.node = [] := by
  simp only [HuffTree.Ok, hs] at h
  exact h.1

theorem HuffTree.Ok.node_single (h : t.Ok) (hs : t.shape = .single) : ∃ r, t.node = [r] ∧ r.isLeaf = true := by
  simp only [HuffTree.Ok, hs] at h
  obtain ⟨⟨x, f, hnode⟩, -⟩ := h
  exact ⟨_, hnode, rfl⟩

theorem HuffTree.Ok.fullTree (h : t.Ok) (hs : t.shape = .general) :
    ∃ n, FullTree n t.node ∧ t.root.toNat = 2 * n - 2 := by
  simp only [HuffTree.Ok, hs] at h
  obtain ⟨n, hfull, -, hroot⟩ := h
  exact ⟨n, hfull, hroot⟩

/-! ### The CodeBook in each state (R160, R162, R163) -/

theorem generateCodes_absent (hs : t.shape = .absent) (hc : generateCodes t = .ok c) (x : Symbol) :
    SymTable.get c x = [] := by
  simp only [generateCodes, hs, Except.ok.injEq] at hc
  rw [← hc, CodeBook.get_empty]

theorem generateCodes_single {r : NodeRec} (hs : t.shape = .single) (hr : t.node[0]? = some r)
    (hc : generateCodes t = .ok c) (x : Symbol) : SymTable.get c x = if x = r.sym then [false] else [] := by
  simp only [generateCodes, hs, nodeAt_some hr, Except.ok.injEq] at hc
  rw [← hc, SymTable.get_set, CodeBook.get_empty]

theorem generateCodes_general {x : Symbol} {p : Bits} (h : t.Ok) (hs : t.shape = .general)
    (hc : generateCodes t = .ok c) (hp : p ≠ []) :
    SymTable.get c x = p ↔ IsCode t.node t.root.toNat x p := by
  obtain ⟨n, hfull, hroot⟩ := h.fullTree hs
  obtain ⟨c', hvisit, hcodes⟩ := hfull.codes
  simp only [generateCodes, hs, hroot, hvisit, Except.ok.injEq] at hc
  rw [← hc, hroot]
  exact hcodes x p hp

/-- What the visit of the root adds to the empty CodeBook is the whole Kraft sum. -/
theorem generateCodes_kraft (h : t.Ok) (hs : t.shape = .general) (hc : generateCodes t = .ok c) :
    kraftScaled c = 2 ^ Config.maxCode := by
  obtain ⟨n, hfull, hroot⟩ := h.fullTree hs
  have hn := hfull.atLeast
  have hn' := hfull.atMost
  have hlevels : 2 * n - 2 < n + Config.maxCode := by simp only [Config.maxCode]; omega
  simp only [generateCodes, hs, hroot] at hc
  have hsum := hfull.visit_kraft Config.maxCode (2 * n - 2) [] CodeBook.empty c (by omega) hlevels (Nat.zero_add _)
    (.inr (by omega)) (fun x _ => CodeBook.get_empty x) hc
  rwa [CodeBook.kraftScaled_empty, Nat.zero_add] at hsum

theorem generateCodes_eq_of_isPrefix {x y : Symbol} (h : t.Ok) (hs : t.shape = .general) (hc : generateCodes t = .ok c)
    (hx : SymTable.get c x ≠ []) (hy : SymTable.get c y ≠ []) (hpre : SymTable.get c x <+: SymTable.get c y) :
    x = y :=
  ((generateCodes_general h hs hc hx).1 rfl).eq_of_isPrefix ((generateCodes_general h hs hc hy).1 rfl) hpre

/-- In every state exactly the leaves' symbols have an entry. -/
theorem generateCodes_entry_iff (h : t.Ok) (hc : generateCodes t = .ok c) (x : Symbol) :
    SymTable.get c x ≠ [] ↔ ∃ r ∈ t.node, r.isLeaf = true ∧ r.sym = x := by
  cases hs : t.shape with
  | absent => simp [generateCodes_absent hs hc, h.node_absent hs]
  | single =>
    obtain ⟨r, hnode, hleaf⟩ := h.node_single hs
    simp [generateCodes_single hs (by rw [hnode]; rfl) hc, hnode, hleaf, eq_comm (a := x)]
  | general =>
    obtain ⟨n, hfull, hroot⟩ := h.fullTree hs
    have hentry : ∀ {p}, p ≠ [] → (SymTable.get c x = p ↔ IsCode t.node (2 * n - 2) x p) := fun hp => by
      rw [← hroot]; exact generateCodes_general h hs hc hp
    rw [← hfull.exists_code_iff]
    constructor
    · exact fun hne => ⟨_, (hentry hne).1 rfl⟩
    · rintro ⟨p, hp⟩
      have hne : p ≠ [] := List.length_pos_iff.1 (hfull.code_length hp).1
      rwa [(hentry hne).2 hp]

end

/-! ### The command -/

/-- Settles O24: the entries are the codes of the leaves, a code ends at a leaf, and the traversal of the root adds
2^255. -/
theorem codesArePrefixFreeAndFull : Obligations.CodesArePrefixFreeAndFull := by
  intro s t h he
  obtain ⟨c, hc, rfl⟩ := execCodes_next he
  refine ⟨generateCodes_entry_iff h hc, fun hs => ⟨fun x y hxy hx hy hpre => ?_, generateCodes_kraft h hs hc⟩⟩
  exact hxy (generateCodes_eq_of_isPrefix h hs hc hx hy hpre)

/-- Settles O23: the traversal ends in each of the three states, and its CodeBook is the one of that state. -/
theorem codesAreThePaths : Obligations.CodesAreThePaths := by
  intro s h
  obtain ⟨c, hc⟩ := generateCodes_ok h
  have hexec : exec .codes s = .next ((s.setCodes c).complete .ok) := by simp only [exec, execCodes, hc]
  exact ⟨c, hexec, fun hs => generateCodes_absent hs hc, fun hs _ hr => generateCodes_single hs hr hc,
    fun hs _ _ hp => generateCodes_general h hs hc hp⟩

end Sys2Proof.Machine
end

section
/-! SUPPORT, O25, O26, O27 and O28. ENCODE and DECODE on every input, the weighted length of the encoded stream and the
round trip (spec/43_codec.md R180 to R197). -/

namespace Sys2Proof.Machine

/-! ### What a command that succeeds has done (R242, R246) -/

section
variable {s t : State}

theorem execFreq_succeeds (h : exec .freq s = .next t) (herr : t.err = .ok) :
    s.inp.symLen.toNat ≤ s.cfg.maxLen ∧ t.tbl = buildFrequencyTable s.symInput := by
  rcases execFreq_next h with ⟨-, rfl⟩ | ⟨hb, rfl⟩
  · cases herr
  · exact ⟨State.symLen_le hb, rfl⟩

theorem execTree_tre (h : exec .tree s = .next t) : buildTree s.tbl = .ok t.tre := by
  obtain ⟨x, hx, rfl⟩ := execTree_next h
  exact hx

theorem execCodes_cb (h : exec .codes s = .next t) : generateCodes s.tre = .ok t.cb := by
  obtain ⟨c, hc, rfl⟩ := execCodes_next h
  exact hc

theorem execEncode_succeeds (h : exec .encode s = .next t) (herr : t.err = .ok) :
    encodeSymbols s.cfg.maxBits s.cb s.symInput = some t.enc ∧ t.tbl = s.tbl ∧ t.cb = s.cb := by
  rcases execEncode_next h with ⟨-, rfl⟩ | ⟨-, -, rfl⟩ | ⟨-, e, he, rfl⟩
  · cases herr
  · cases herr
  · exact ⟨he, rfl, rfl⟩

theorem execCompress_succeeds (h : exec .compress s = .next t) (herr : t.err = .ok) :
    s.inp.symLen.toNat ≤ s.cfg.maxLen ∧ buildTree (buildFrequencyTable s.symInput) = .ok t.tre ∧
      generateCodes t.tre = .ok t.cb ∧ encodeSymbols s.cfg.maxBits t.cb s.symInput = some t.enc := by
  rcases execCompress_next h with ⟨-, rfl⟩ | ⟨hb, x, c, hx, hc, rfl⟩
  · cases herr
  · rcases compressTail_cases (((s.setTable (buildFrequencyTable s.symInput)).setTree x).setCodes c) with
      ⟨-, htail⟩ | ⟨e, he, htail⟩ <;> rw [htail] at herr ⊢
    · cases herr
    · exact ⟨State.symLen_le hb, hx, hc, he⟩

end

/-! ### The body of DECODE in each state of the tree (R190, R191, R192) -/

section
variable {t : HuffTree} {bits : Bits}

theorem decodeBits_absent (hs : t.shape = .absent) : decodeBits t bits = .ok ([], 0) := by
  simp only [decodeBits, hs]

theorem decodeBits_single {r : NodeRec} (hs : t.shape = .single) (hr : t.node[0]? = some r) :
    decodeBits t bits = .ok (List.replicate bits.length r.sym, 0) := by
  simp only [decodeBits, hs, nodeAt_some hr]

theorem decodeBits_general (hs : t.shape = .general) :
    decodeBits t bits = walk t.node t.root.toNat bits t.root.toNat 0 := by
  simp only [decodeBits, hs]

/-- In the general state the stream is codes of the symbols emitted and then the tail, an incomplete code. -/
theorem decodeBits_general_split {out : List Symbol} {tail : Nat} (h : t.Ok) (hs : t.shape = .general)
    (hd : decodeBits t bits = .ok (out, tail)) :
    ∃ ps rest, bits = ps.flatten ++ rest ∧ List.Forall₂ (IsCode t.node t.root.toNat) out ps ∧
      IsPartialCode t.node t.root.toNat rest ∧ tail = rest.length := by
  obtain ⟨n, hfull, hroot⟩ := h.fullTree hs
  obtain ⟨out', tail', ps, rest, hwalk, hbits, hcodes, hrest, htail, -⟩ := hfull.walk_root bits
  rw [decodeBits_general hs, hroot, hwalk] at hd
  cases hd
  rw [hroot]
  exact ⟨ps, rest, hbits, hcodes, hrest, htail⟩

end

/-! ### The command DECODE (R190, R193) -/

/-- The stream DECODE reads from each source, of a length that passes its check (R190, R242). -/
def State.Reads (s : State) (src : Src) (bits : Bits) : Prop :=
  src = .bitIn ∧ s.inp.bitInLen.toNat ≤ s.cfg.maxBits ∧ bits = s.bitInput ∨
    src = .bitOut ∧ bits = s.enc.bitOut

section
variable {s : State} {src : Src} {bits : Bits}

theorem State.Reads.length_le (h : s.Reads src bits) (henc : s.enc.Ok s.cfg) : bits.length ≤ s.cfg.maxBits := by
  rcases h with ⟨-, hlen, rfl⟩ | ⟨-, rfl⟩
  · rwa [s.bitInput_length]
  · exact henc.bound

/-- DECODE of either source writes what its body gives on the stream and completes. -/
theorem execDecode_of_decodeBits {out : List Symbol} {tail : Nat} (hsrc : s.Reads src bits)
    (hsize : s.enc.bitOutLen.toNat = s.enc.bitOut.length) (hd : decodeBits s.tre bits = .ok (out, tail)) :
    exec (.decode src) s = .next ((s.setDecoded (decodedOf out tail)).complete .ok) := by
  have hstream : s.decodeStream bits = .next ((s.setDecoded (decodedOf out tail)).complete .ok) := by
    simp only [State.decodeStream, hd, decodedOf]
  rw [← hstream]
  rcases hsrc with ⟨rfl, hlen, rfl⟩ | ⟨rfl, rfl⟩
  · have hb : ¬ s.bitInLenBad = true := by rw [s.bitInLenBad_iff]; omega
    exact if_neg hb
  · simp only [exec, execDecode, firstOf_ok hsize]

end

/-- Settles O27: the body of DECODE completes on every tree of R37, and its result is that of the tree's state. -/
theorem decodeWalksTheTree : Obligations.DecodeWalksTheTree := by
  intro s src bits htre henc (hsrc : s.Reads src bits)
  obtain ⟨out, tail, hd, hout, htail⟩ := decodeBits_ok htre bits
  have hdec : (decodedOf out tail).Ok s.cfg := decodedOf_ok htre (hsrc.length_le henc) hd
  have hdecTail : (decodedOf out tail).decTail.toNat = tail := Nat.mod_eq_of_lt (by omega)
  refine ⟨decodedOf out tail, execDecode_of_decodeBits hsrc henc.size hd, hdec.size, hout, fun hs => ?_,
    fun hs r hr => ?_, fun hs => ?_⟩
  · rw [decodeBits_absent hs] at hd
    cases hd
    exact ⟨rfl, rfl⟩
  · rw [decodeBits_single hs hr] at hd
    cases hd
    exact ⟨rfl, rfl⟩
  · obtain ⟨ps, rest, hbits, hcodes, hrest, rfl⟩ := decodeBits_general_split htre hs hd
    exact ⟨ps, rest, hbits, hcodes, hrest, hdecTail, htail⟩

/-! ### The CodeBook of an input's own tree (R162, R182) -/

theorem leafOf_mem_huffman {freq : Vector Word 256} {keys : List Symbol} (hd : keys.Nodup)
    (ht : (keys.map (fun x => (SymTable.get freq x).toNat)).sum < 2 ^ 32) {x : Symbol} (hx : x ∈ keys) :
    leafOf freq x ∈ (huffman freq keys).node := by
  match keys, hd, ht, hx with
  | [y], _, _, hx => rw [List.mem_singleton.1 hx]; exact List.mem_singleton_self _
  | y :: z :: rest, hd, ht, hx =>
    obtain ⟨i, hi⟩ := List.mem_iff_getElem?.1 hx
    exact List.mem_of_getElem? (huffman_leaf (by simp) hd ht hi)

section
variable {p : Params} {syms : List Symbol} {t : HuffTree} {c : CodeBook}

/-- The tree of an input of legal length is one of the three of R37, and every symbol of the input has a leaf. -/
theorem buildTree_of_input (hlen : syms.length ≤ p.maxLen) (ht : buildTree (buildFrequencyTable syms) = .ok t) :
    t.Ok ∧ ∀ x ∈ syms, ∃ r ∈ t.node, r.isLeaf = true ∧ r.sym = x := by
  have htbl := buildFrequencyTable_ok syms p hlen
  rw [buildTree_ok htbl] at ht
  cases ht
  refine ⟨buildTree_tree_ok htbl, fun x hx => ⟨_, leafOf_mem_huffman htbl.distinct htbl.sum_lt ?_, rfl, rfl⟩⟩
  exact (buildFrequencyTable_keys syms x).2 hx

/-- Every symbol of the input has an entry. -/
theorem generateCodes_of_input (hlen : syms.length ≤ p.maxLen) (ht : buildTree (buildFrequencyTable syms) = .ok t)
    (hc : generateCodes t = .ok c) : ∀ x ∈ syms, SymTable.get c x ≠ [] := by
  obtain ⟨hok, hleaves⟩ := buildTree_of_input hlen ht
  exact fun x hx => (generateCodes_entry_iff hok hc x).2 (hleaves x hx)

/-! ### The round trip (R195, R197) -/

/-- Where every symbol has an entry, the body of DECODE inverts that of ENCODE: a string of codes of a general tree has
one decomposition, and in a single leaf's code every symbol is one bit. -/
theorem decodeBits_encodedBits (h : t.Ok) (hc : generateCodes t = .ok c) (hentry : ∀ x ∈ syms, SymTable.get c x ≠ []) :
    decodeBits t (encodedBits c syms) = .ok (syms, 0) := by
  cases hs : t.shape with
  | absent =>
    have hnil : syms = [] :=
      List.eq_nil_iff_forall_not_mem.2 fun x hx => hentry x hx (generateCodes_absent hs hc x)
    rw [decodeBits_absent hs, hnil]
  | single =>
    obtain ⟨r, hnode, -⟩ := h.node_single hs
    have hr : t.node[0]? = some r := by rw [hnode]; rfl
    have hsym : ∀ x ∈ syms, x = r.sym := fun x hx => by
      by_contra hne
      exact hentry x hx (by rw [generateCodes_single hs hr hc, if_neg hne])
    have hlength : (encodedBits c syms).length = syms.length := by
      have hone : ∀ x ∈ syms, (SymTable.get c x).length = 1 := fun x hx => by
        rw [generateCodes_single hs hr hc, if_pos (hsym x hx)]; rfl
      rw [encodedBits_length, encodedLength, List.map_congr_left hone, List.map_const', List.sum_replicate]
      simp
    rw [decodeBits_single hs hr, hlength, ← List.eq_replicate_of_mem hsym]
  | general =>
    rw [decodeBits_general hs]
    exact FullTree.walk_flatten syms fun x hx =>
      ⟨(generateCodes_general h hs hc (hentry x hx)).1 rfl, hentry x hx⟩

/-- DECODE src=out on the tree and the stream of an input gives the input (R197). -/
theorem execDecode_of_input {u : State} (hlen : syms.length ≤ p.maxLen)
    (ht : buildTree (buildFrequencyTable syms) = .ok u.tre) (hc : generateCodes u.tre = .ok c) {q : Params}
    (he : encodeSymbols q.maxBits c syms = some u.enc) :
    exec (.decode .bitOut) u = .next ((u.setDecoded (decodedOf syms 0)).complete .ok) := by
  obtain ⟨-, hbits, -, -⟩ := encodeSymbols_some he
  have hd := decodeBits_encodedBits (buildTree_of_input hlen ht).1 hc (generateCodes_of_input hlen ht hc)
  exact execDecode_of_decodeBits (.inr ⟨rfl, rfl⟩) (encodeSymbols_ok he).size (hbits ▸ hd)

end

/-- SYM_OUT_LEN after decoding the input back is SYM_LEN (R197). -/
theorem decodedOf_symInput_symOutLen (s : State) (tail : Nat) : (decodedOf s.symInput tail).symOutLen = s.inp.symLen := by
  simp [decodedOf]

/-- Settles O28: both forms leave the tree, the CodeBook and the stream of the input. -/
theorem roundTrip : Obligations.RoundTrip := by
  constructor
  · intro s t u h herr htre henc
    obtain ⟨hlen, ht, hc, he⟩ := execCompress_succeeds h herr
    rw [← s.symInput_length] at hlen
    rw [← htre] at ht hc
    rw [← henc] at he
    exact ⟨_, execDecode_of_input hlen ht hc he, rfl, decodedOf_symInput_symOutLen s 0, rfl⟩
  · intro s0 s1 s2 s3 s4 s5 s6 s7 u hfreq hferr htbl htree htre4 hcodes hcb hinput hencode heerr htre henc
    obtain ⟨hlen, htbl1⟩ := execFreq_succeeds hfreq hferr
    have ht := execTree_tre htree
    have hc := execCodes_cb hcodes
    obtain ⟨he, -, -⟩ := execEncode_succeeds hencode heerr
    rw [← s0.symInput_length] at hlen
    rw [htbl, htbl1, ← htre] at ht
    rw [htre4, ← htre] at hc
    rw [hcb, hinput, ← henc] at he
    exact ⟨_, execDecode_of_input hlen ht hc he, rfl, decodedOf_symInput_symOutLen s0 0, rfl⟩

/-! ### The registers of ENCODE (R180, R181, R182) -/

section
variable {p : Params} {syms : List Symbol} {c : CodeBook} {e : Encoded}

/-- BIT_OUT_LEN holds the total without wrapping, as one that does not fit in MAX_BITS is refused. -/
theorem encodeSymbols_bitOutLen (h : encodeSymbols p.maxBits c syms = some e) :
    e.bitOutLen.toNat = encodedLength c syms := by
  obtain ⟨-, hbits, -, -⟩ := encodeSymbols_some h
  rw [(encodeSymbols_ok h).size, hbits, encodedBits_length]

/-- ENC_SKIP holds the number of symbols without an entry: there are no more of them than symbols. -/
theorem encodeSymbols_encSkip (hlen : syms.length < 2 ^ 32) (h : encodeSymbols p.maxBits c syms = some e) :
    e.encSkip.toNat = skippedCount c syms := by
  obtain ⟨-, -, -, hskip⟩ := encodeSymbols_some h
  have hle : skippedCount c syms ≤ syms.length := List.countP_le_length
  rw [hskip, BitVec.toNat_ofNat, Nat.mod_eq_of_lt (by omega)]

theorem skippedCount_eq_filter :
    skippedCount c syms = (syms.filter (fun x => (SymTable.get c x).length = 0)).length := by
  rw [skippedCount, ← List.countP_eq_length_filter]
  exact List.countP_congr fun x _ => by simp

theorem skippedCount_eq_zero (h : ∀ x ∈ syms, SymTable.get c x ≠ []) : skippedCount c syms = 0 :=
  List.countP_eq_zero.2 fun x hx => by simpa using h x hx

/-- The length of the encoded string, summed key by key instead of symbol by symbol (R182). -/
theorem encodedLength_eq_sum_keys (c : CodeBook) (hlen : syms.length < 2 ^ 32) :
    encodedLength c syms = ((buildFrequencyTable syms).ftOrder.map
      (fun x => (SymTable.get (buildFrequencyTable syms).freq x).toNat * (SymTable.get c x).length)).sum := by
  have hkeys : (buildFrequencyTable syms).ftOrder.toFinset = syms.toFinset := by
    ext x
    rw [List.mem_toFinset, List.mem_toFinset, buildFrequencyTable_keys]
  rw [← List.sum_toFinset _ (buildFrequencyTable_distinct syms), hkeys, encodedLength, Finset.sum_list_map_count]
  exact Finset.sum_congr rfl fun x _ => by rw [buildFrequencyTable_freq syms hlen, smul_eq_mul]

end

section
variable {s : State}

theorem execEncode_capacity (hlen : s.inp.symLen.toNat ≤ s.cfg.maxLen)
    (h : s.cfg.maxBits < encodedLength s.cb s.symInput) : exec .encode s = .next (s.complete .capacity) := by
  have hb : ¬ s.symLenBad = true := by rw [s.symLenBad_iff]; omega
  simp only [exec, execEncode, if_neg hb, (encodeSymbols_none_iff _ _ _).2 h]

/-- ENCODE of a string that fits in MAX_BITS writes what its body gives and completes. -/
theorem execEncode_fits (hlen : s.inp.symLen.toNat ≤ s.cfg.maxLen)
    (h : encodedLength s.cb s.symInput ≤ s.cfg.maxBits) :
    ∃ e, encodeSymbols s.cfg.maxBits s.cb s.symInput = some e ∧
      exec .encode s = .next ((s.setEncoded e).complete .ok) := by
  have hb : ¬ s.symLenBad = true := by rw [s.symLenBad_iff]; omega
  obtain ⟨e, he⟩ := Option.ne_none_iff_exists'.1 fun hnone =>
    Nat.not_lt.2 h ((encodeSymbols_none_iff s.cfg.maxBits s.cb s.symInput).1 hnone)
  exact ⟨e, he, by simp only [exec, execEncode, if_neg hb, he]⟩

end

/-- Settles O25: the three answers of ENCODE, in the order of its checks. -/
theorem encodeConcatenatesEntries : Obligations.EncodeConcatenatesEntries := by
  intro s
  refine ⟨fun h => if_pos (s.symLenBad_iff.2 h), execEncode_capacity, fun hlen htotal => ?_⟩
  obtain ⟨e, he, hexec⟩ := execEncode_fits hlen htotal
  obtain ⟨-, hbits, -, -⟩ := encodeSymbols_some he
  have hfits : s.symInput.length < 2 ^ 32 := s.symInput_length ▸ s.inp.symLen.isLt
  refine ⟨e, hexec, ?_, encodeSymbols_bitOutLen he, ?_⟩
  · rw [hbits, encodedBits, List.flatMap_def]
  · rw [encodeSymbols_encSkip hfits he, skippedCount_eq_filter]

/-- Settles O26: every symbol of the input has an entry, and its length counts once for each time the symbol occurs. -/
theorem encodedLengthIsWeighted : Obligations.EncodedLengthIsWeighted := by
  intro s0 s1 s2 s3 s4 s5 s6 s7 hfreq hferr htbl htree htre4 hcodes hcb htbl6 hinput hencode heerr
  obtain ⟨hlen, htbl1⟩ := execFreq_succeeds hfreq hferr
  have ht := execTree_tre htree
  have hc := execCodes_cb hcodes
  obtain ⟨he, htbl7, hcb7⟩ := execEncode_succeeds hencode heerr
  have hfits : s0.symInput.length < 2 ^ 32 := s0.symInput_length ▸ s0.inp.symLen.isLt
  rw [← s0.symInput_length] at hlen
  rw [htbl, htbl1] at ht
  rw [htre4] at hc
  rw [hcb, hinput] at he
  rw [htbl7, htbl6, htbl1, hcb7, hcb]
  constructor
  · apply BitVec.eq_of_toNat_eq
    rw [encodeSymbols_encSkip hfits he, skippedCount_eq_zero (generateCodes_of_input hlen ht hc)]
    rfl
  · rw [encodeSymbols_bitOutLen he, encodedLength_eq_sum_keys _ hfits]

end Sys2Proof.Machine
end

section
/-! SUPPORT, O29, O30 and O31. STATS, COMPRESS and CLEAR (spec/44_stats_control.md R210 to R220). -/

namespace Sys2Proof.Machine

/-! ### The statistics registers (R211, R6) -/

theorem sat32s_bounds (v : Int) : -2 ^ 31 ≤ sat32s v ∧ sat32s v < 2 ^ 31 := by
  unfold sat32s
  omega

section
variable {orig comp : Nat}

/-- The ratio with the bounds of `sat32s` and the numerator written out. -/
theorem ratioBpOf_eq : ratioBpOf orig comp =
    if orig = 0 then 0
    else max (-2147483648) (min (Int.tdiv (((orig : Int) - comp) * 100 * 100) orig) 2147483647) := by
  unfold ratioBpOf ratioNumOf sat32s
  split <;> rfl

/-- STAT_RATIO_BP holds the clamped ratio: clamping is what makes it fit (R10, R211). -/
theorem statsOf_ratioBp : (statsOf orig comp).ratioBp.toInt = ratioBpOf orig comp := by
  obtain ⟨hlo, hhi⟩ : -2 ^ 31 ≤ ratioBpOf orig comp ∧ ratioBpOf orig comp < 2 ^ 31 := by
    unfold ratioBpOf
    split
    · decide
    · exact sat32s_bounds _
  exact BitVec.toInt_ofInt_eq_self (by decide) hlo hhi

/-- STAT_RATIO_NUM holds the numerator for sizes within the largest buffers, 2^23 and 2^24 bits (R5, R6). -/
theorem statsOf_ratioNum (horig : orig ≤ 2 ^ 23) (hcomp : comp ≤ 2 ^ 24) :
    (statsOf orig comp).ratioNum.toInt = ratioNumOf orig comp := by
  obtain ⟨hlo, hhi⟩ : -2 ^ 31 ≤ ratioNumOf orig comp ∧ ratioNumOf orig comp < 2 ^ 31 := by
    unfold ratioNumOf
    split <;> omega
  exact BitVec.toInt_ofInt_eq_self (by decide) hlo hhi

/-- The unsigned registers hold their numbers for sizes that fit in a register. -/
theorem statsOf_unsigned (horig : orig < 2 ^ 32) (hcomp : comp < 2 ^ 32) :
    (statsOf orig comp).origBits.toNat = orig ∧ (statsOf orig comp).compBits.toNat = comp ∧
      (statsOf orig comp).ratioDen.toNat = ratioDenOf orig ∧ (statsOf orig comp).savedBits.toNat = orig - comp := by
  have hden : ratioDenOf orig < 2 ^ 32 := by
    unfold ratioDenOf
    split <;> omega
  exact ⟨Nat.mod_eq_of_lt horig, Nat.mod_eq_of_lt hcomp, Nat.mod_eq_of_lt hden, Nat.mod_eq_of_lt (by omega)⟩

end

/-- STATS on an input of legal length writes the statistics and completes. -/
theorem execStats_legal {s : State} (h : s.inp.symLen.toNat ≤ s.cfg.maxLen) :
    exec .stats s =
      .next ((s.setStats (statsOf (8 * s.inp.symLen.toNat) s.enc.bitOutLen.toNat)).complete .ok) := by
  have hb : ¬ s.symLenBad = true := by rw [s.symLenBad_iff]; omega
  exact if_neg hb

/-- Settles O29: the buffers hold at most 2^23 and 2^24 bits, and within these bounds no register wraps. -/
theorem statsAreExact : Obligations.StatsAreExact := by
  intro s orig comp hlen henc horig hcompLen
  have hlegal := s.cfg.legal
  have hcomp : s.enc.bitOutLen.toNat ≤ 2 ^ 24 := by
    rw [henc.size]
    exact henc.bound.trans (by omega)
  have hsymBits : 8 * s.inp.symLen.toNat ≤ 2 ^ 23 := by omega
  obtain ⟨horigBits, hcompBits, hden, hsaved⟩ :=
    statsOf_unsigned (hsymBits.trans_lt (by decide)) (hcomp.trans_lt (by decide))
  obtain rfl : orig = (8 * s.inp.symLen.toNat : Nat) := by omega
  refine ⟨statsOf (8 * s.inp.symLen.toNat) s.enc.bitOutLen.toNat, execStats_legal hlen, ?_⟩
  simp only [hcompLen, Int.natCast_eq_zero]
  refine ⟨congrArg _ horigBits, congrArg _ hcompBits, statsOf_ratioNum hsymBits hcomp, ?_, ?_, ?_⟩
  · rw [hden, ratioDenOf, Nat.cast_ite, Nat.cast_one]
  · rw [statsOf_ratioBp, ratioBpOf_eq]
  · rw [hsaved]
    omega

/-! ### The two last stages of COMPRESS (R215) -/

section
variable {s t : State}

theorem compressTail_of_none (h : encodeSymbols s.cfg.maxBits s.cb s.symInput = none) :
    s.compressTail = s.complete .capacity := by
  simp only [State.compressTail, h]

theorem compressTail_of_some {e : Encoded} (h : encodeSymbols s.cfg.maxBits s.cb s.symInput = some e) :
    s.compressTail =
      ((s.setEncoded e).setStats (statsOf (8 * s.inp.symLen.toNat) e.bitOutLen.toNat)).complete .ok := by
  simp only [State.compressTail, h]

/-- The stages read nothing that a completion writes. -/
theorem compressTail_complete (s : State) (code : ErrCode) : (s.complete code).compressTail = s.compressTail := by
  cases h : encodeSymbols s.cfg.maxBits s.cb s.symInput with
  | none => rw [compressTail_of_none h, compressTail_of_none (s := s.complete code) h]; rfl
  | some e => rw [compressTail_of_some h, compressTail_of_some (s := s.complete code) h]; rfl

/-- Where ENCODE succeeds, the stages are ENCODE and then STATS. -/
theorem compressTail_of_encode (h : exec .encode s = .next t) (herr : t.err = .ok) :
    exec .stats t = .next s.compressTail ∧ s.compressTail.err = .ok ∧ s.compressTail.enc = t.enc := by
  rcases execEncode_next h with ⟨-, rfl⟩ | ⟨-, -, rfl⟩ | ⟨hb, e, he, rfl⟩
  · cases herr
  · cases herr
  · rw [compressTail_of_some he]
    exact ⟨execStats_legal (s := (s.setEncoded e).complete .ok) (State.symLen_le hb), rfl, rfl⟩

/-! ### The five stages (R215, R216) -/

theorem execCodes_of_generateCodes {c : CodeBook} (h : generateCodes s.tre = .ok c) :
    exec .codes s = .next ((s.setCodes c).complete .ok) := by
  simp only [exec, execCodes, h]

theorem execCompress_legal {x : HuffTree} {c : CodeBook} (h : s.inp.symLen.toNat ≤ s.cfg.maxLen)
    (hx : buildTree (buildFrequencyTable s.symInput) = .ok x) (hc : generateCodes x = .ok c) :
    exec .compress s =
      .next (((s.setTable (buildFrequencyTable s.symInput)).setTree x).setCodes c).compressTail := by
  have hb : ¬ s.symLenBad = true := by rw [s.symLenBad_iff]; omega
  simp only [exec, execCompress, if_neg hb, hx, hc]

/-- FREQ, TREE and CODES complete on an input of legal length, and COMPRESS is the two last stages on the state they
leave: the table of the input is consistent, which is all TREE and CODES need. -/
theorem execCompress_stages (h : s.inp.symLen.toNat ≤ s.cfg.maxLen) :
    ∃ s1 s2 s3 : State, exec .freq s = .next s1 ∧ s1.err = .ok ∧ exec .tree s1 = .next s2 ∧
      exec .codes s2 = .next s3 ∧ s3.tbl = s1.tbl ∧ s3.symInput = s.symInput ∧
      exec .compress s = .next s3.compressTail := by
  have htbl : (buildFrequencyTable s.symInput).Ok s.cfg := buildFrequencyTable_ok _ _ (by rwa [s.symInput_length])
  have hx := buildTree_ok htbl
  obtain ⟨c, hc⟩ := generateCodes_ok (buildTree_tree_ok htbl)
  refine ⟨_, _, _, execFreq_legal h, rfl, execTree_ok htbl, execCodes_of_generateCodes hc, rfl, rfl, ?_⟩
  rw [compressTail_complete]
  exact execCompress_legal h hx hc

end

/-- Settles O30: COMPRESS is its last two stages on the state after CODES, and these are ENCODE and STATS where ENCODE
succeeds; ENC_SKIP is 0 by `encodedLengthIsWeighted`. -/
theorem compressIsTheFiveSteps : Obligations.CompressIsTheFiveSteps := by
  refine ⟨fun s hlen => ?_, fun u h => compressTail_of_none ((encodeSymbols_none_iff _ _ _).2 h)⟩
  obtain ⟨s1, s2, s3, hfreq, hferr, htree, hcodes, htbl, hinput, hcompress⟩ := execCompress_stages hlen
  obtain ⟨s4, hencode⟩ : ∃ s4, exec .encode s3 = .next s4 := execEncode_completes s3
  refine ⟨s1, s2, s3, s4, _, hfreq, htree, hcodes, hencode, hcompress, rfl, fun herr => ?_⟩
  obtain ⟨hstats, hok, henc⟩ := compressTail_of_encode hencode herr
  obtain ⟨hskip, -⟩ := encodedLengthIsWeighted s s1 s1 s2 s2 s3 s3 s4 hfreq hferr rfl htree rfl hcodes rfl htbl hinput
    hencode herr
  exact ⟨hstats, hok, henc ▸ hskip⟩

/-! ### CLEAR (R220) -/

/-- Settles O31: the reset values CLEAR writes are those of the reset state. -/
theorem clearLeavesTheResetSession : Obligations.ClearLeavesTheResetSession := fun _ => rfl

end Sys2Proof.Machine
end

section
/-! SUPPORT, O5, O6, O7, O8 and O38. The life cycle of a command: issue, step, completion and the interrupt output
(spec/60_exceptions.md R243 to R250). -/

namespace Sys2Proof.Machine

section
variable {s : State} {addr w v : Word}

/-! ### Steps (R246) -/

theorem step_idle (h : s.seq = .idle) : step s = .next s.hostTurn := by
  simp only [step, h]

theorem step_due (h : s.seq = .busy w) (hdue : s.completionDue = true) : step s = runCommand w s := by
  simp only [step, h, hdue, if_true]

theorem step_waiting (h : s.seq = .busy w) (hdue : s.completionDue = false) : step s = .next s.tickDue.hostTurn := by
  simp [step, h, hdue]

theorem runCommand_legal {i : Instr} (h : decodeCmd w = .ok i) : runCommand w s = exec i s := by
  simp only [runCommand, h]

theorem runCommand_illegal {e : Illegal} (h : decodeCmd w = .error e) : runCommand w s = .next s.completeIllegal := by
  simp only [runCommand, h]

/-- The whole word is the word of its number (R100). -/
theorem tableWord_toNat (w : Word) : tableWord 32 w.toNat = w := by
  rw [tableWord, Nat.mod_eq_of_lt w.isLt, BitVec.ofNat_toNat, BitVec.setWidth_eq]

theorem State.withFetchWord_seq (s : State) (w : Word) : (s.withFetchWord 32 w.toNat).seq = .busy w :=
  congrArg Seq.busy (tableWord_toNat w)

/-! ### Issue (R245, R247) -/

/-- Every byte address of the fifth word names CMD (R20, R71). -/
theorem locate_cmd (p : Params) (h : addr.toNat / 4 = 0x10 / 4) : locate p addr = .reg .cmd := by
  rw [locate, h, locateWord_reg p (by decide)]
  rfl

theorem State.hostWrite_cmd (h : locate s.cfg addr = .reg .cmd) (w : Word) : s.hostWrite addr w = s.issue w :=
  State.hostWrite_reg h w

/-- Drawing a latency changes the model's own timing only (U5). -/
theorem State.drawLatency_eq (s : State) : s.drawLatency = { s with env := s.drawLatency.env } := by
  unfold State.drawLatency
  split <;> rfl

/-- The writes of an accepted issue (R245). -/
theorem State.issue_idle_eq (h : s.seq = .idle) (w : Word) :
    s.issue w = { s with seq := .busy w, done := false, lastOp := opcOf w, env := (s.issue w).env } := by
  rw [s.issue_idle h]
  exact (s.acceptWord w).drawLatency_eq

end

/-! ### The statements -/

/-- Settles O5: each clause is one branch of `step`, and `withFetchWord` makes the completion due. -/
theorem stepRunsDecodedCommand : Obligations.StepRunsDecodedCommand := by
  refine ⟨fun s w i hq hdue hi => ?_, fun s w hq hdue => step_waiting hq hdue, fun s hq => step_idle hq,
    fun s w i hi => ⟨s.withFetchWord_seq w, ?_⟩⟩
  · rw [step_due hq hdue, runCommand_legal hi]
  · rw [step_due (s.withFetchWord_seq w) rfl, runCommand_legal hi]

/-- Settles O6: issue does not look at the word, and an illegal one completes by `completeIllegal`. -/
theorem illegalWordWritesNoData : Obligations.IllegalWordWritesNoData := by
  intro s addr w e he hq haddr
  constructor
  · rw [State.hostWrite_cmd (locate_cmd _ haddr), State.issue_idle_eq hq]
  · intro u hu hdue
    rw [step_due hu hdue, runCommand_illegal he]
    rfl

/-- Settles O7: the write is an issue, and an issue while idle is accepted. -/
theorem issueWhileIdleIsAccepted : Obligations.IssueWhileIdleIsAccepted := by
  intro s addr w hq haddr
  rw [State.hostWrite_cmd (locate_cmd _ haddr)]
  refine ⟨(s.issue w).env, State.issue_idle_eq hq w, ?_, (s.issue_keeps w).err⟩
  rw [State.issue_idle_eq hq]
  rfl

/-- Settles O8: the write is an issue, and an issue while a command runs is dropped. -/
theorem issueWhileBusyIsDropped : Obligations.IssueWhileBusyIsDropped := by
  intro s addr w v hq haddr
  rw [State.hostWrite_cmd (locate_cmd _ haddr)]
  exact s.issue_busy hq w

/-- Settles O38: `irq` is the two flags, and each clause is what the event writes to them. -/
theorem interruptFollowsDone : Obligations.InterruptFollowsDone := by
  refine ⟨fun s => Bool.and_eq_true_iff, fun s t w h => ?_, fun s addr w hloc hbit => ?_, fun s addr w hloc hq => ?_,
    fun s addr w hloc => ?_, fun s => rfl⟩
  · have hdone := runCommand_completed h
    rw [State.irq, hdone.ie, hdone.done, Bool.and_true]
  · rw [State.hostWrite_reg hloc]
    simp [State.writeReg, State.irq, hbit]
  · rw [State.hostWrite_cmd hloc, State.issue_idle_eq hq]
    exact Bool.and_false _
  · rw [State.hostWrite_reg hloc]
    rfl

end Sys2Proof.Machine
end

section
/-! SUPPORT, O17, O18 and O19. How a command ends: its error code, and what it wrote (spec/60_exceptions.md R241 to R248). -/

namespace Sys2Proof.Machine

/-- The command checks a length, and the length is beyond its buffer (R242). -/
def LengthBad (i : Instr) (s : State) : Prop :=
  (i = .freq ∨ i = .encode ∨ i = .stats ∨ i = .compress) ∧ s.cfg.maxLen < s.inp.symLen.toNat ∨
    i = .decode .bitIn ∧ s.cfg.maxBits < s.inp.bitInLen.toNat

/-- The command encodes the input, and with the CodeBook `c` the encoded string exceeds BIT_OUT (R180, R241). -/
def Overflows (i : Instr) (s : State) (c : CodeBook) : Prop :=
  (i = .encode ∨ i = .compress) ∧ s.cfg.maxBits < encodedLength c s.symInput

/-- What a command that ends in CAPACITY leaves unchanged: the session, or for COMPRESS the part it writes last (R244). -/
def KeepsOnCapacity (i : Instr) (s t : State) : Prop :=
  SameSession s t ∨ i = .compress ∧ t.enc = s.enc ∧ t.dec = s.dec ∧ t.sts = s.sts

/-- The three ends of a command, in the order of its checks (R241, R242). -/
inductive Ending (i : Instr) (s t : State) : Prop where
  /-- a bad length: nothing is written (R242, R244) -/
  | lenRange (bad : LengthBad i s) (result : t = s.complete .lenRange)
  /-- the encoded string does not fit (R180, R215) -/
  | capacity (legal : ¬ LengthBad i s) (big : Overflows i s t.cb) (err : t.err = .capacity)
      (keeps : KeepsOnCapacity i s t)
  /-- success -/
  | success (legal : ¬ LengthBad i s) (fits : ¬ Overflows i s t.cb) (err : t.err = .ok)

section
variable {s t : State} {i : Instr}

theorem SameSession.complete (s : State) (code : ErrCode) : SameSession s (s.complete code) :=
  ⟨rfl, rfl, rfl, rfl, rfl, rfl⟩

theorem LengthBad.of_symLen (hi : i = .freq ∨ i = .encode ∨ i = .stats ∨ i = .compress)
    (h : s.symLenBad = true) : LengthBad i s :=
  .inl ⟨hi, s.symLenBad_iff.1 h⟩

theorem not_lengthBad_of_symLen (hi : i ≠ .decode .bitIn) (h : s.symLenBad = false) : ¬ LengthBad i s := by
  rintro (⟨-, hlen⟩ | ⟨hdecode, -⟩)
  · exact Nat.not_lt.2 (State.symLen_le h) hlen
  · exact hi hdecode

/-- The commands that encode nothing do not overflow. -/
theorem not_overflows {c : CodeBook} (he : i ≠ .encode) (hc : i ≠ .compress) : ¬ Overflows i s c :=
  fun ⟨hi, _⟩ => hi.elim he hc

/-- COMPRESS after its length check ends as its ENCODE stage does (R215). -/
theorem compressTail_ending {x : FreqTable} {y : HuffTree} {c : CodeBook} (hb : s.symLenBad = false) :
    Ending .compress s (((s.setTable x).setTree y).setCodes c).compressTail := by
  have hlegal : ¬ LengthBad .compress s := not_lengthBad_of_symLen (by decide) hb
  rcases compressTail_cases (((s.setTable x).setTree y).setCodes c) with ⟨hnone, e⟩ | ⟨enc, hsome, e⟩ <;> rw [e]
  · exact .capacity hlegal ⟨.inr rfl, (encodeSymbols_none_iff _ _ _).1 hnone⟩ rfl (.inr ⟨rfl, rfl, rfl, rfl⟩)
  · exact .success hlegal (fun ⟨_, hbig⟩ => Nat.not_lt.2 (encodeSymbols_some hsome).1 hbig) rfl

/-- A command that completes ends in one of the three ways. -/
theorem exec_ending (h : exec i s = .next t) : Ending i s t := by
  cases i with
  | freq =>
    rcases execFreq_next h with ⟨hb, rfl⟩ | ⟨hb, rfl⟩
    · exact .lenRange (.of_symLen (by decide) hb) rfl
    · exact .success (not_lengthBad_of_symLen (by decide) hb) (not_overflows (by decide) (by decide)) rfl
  | tree =>
    obtain ⟨x, -, rfl⟩ := execTree_next h
    exact .success (by simp [LengthBad]) (not_overflows (by decide) (by decide)) rfl
  | codes =>
    obtain ⟨c, -, rfl⟩ := execCodes_next h
    exact .success (by simp [LengthBad]) (not_overflows (by decide) (by decide)) rfl
  | encode =>
    have hlegal : s.symLenBad = false → ¬ LengthBad .encode s := not_lengthBad_of_symLen (by decide)
    rcases execEncode_next h with ⟨hb, rfl⟩ | ⟨hb, hnone, rfl⟩ | ⟨hb, e, hsome, rfl⟩
    · exact .lenRange (.of_symLen (by decide) hb) rfl
    · exact .capacity (hlegal hb) ⟨.inl rfl, (encodeSymbols_none_iff _ _ _).1 hnone⟩ rfl
        (.inl (SameSession.complete s _))
    · exact .success (hlegal hb) (fun ⟨_, hbig⟩ => Nat.not_lt.2 (encodeSymbols_some hsome).1 hbig) rfl
  | decode src =>
    have hfits : ∀ c, ¬ Overflows (.decode src) s c := fun c => not_overflows (by simp) (by simp)
    rcases execDecode_next h with ⟨rfl, hb, rfl⟩ | ⟨bits, out, tail, -, rfl, hsrc⟩
    · exact .lenRange (.inr ⟨rfl, s.bitInLenBad_iff.1 hb⟩) rfl
    · refine .success ?_ (hfits _) rfl
      rcases hsrc with ⟨rfl, hb, -⟩ | ⟨rfl, -⟩
      · simpa [LengthBad] using State.bitInLen_le hb
      · simp [LengthBad]
  | stats =>
    rcases execStats_next h with ⟨hb, rfl⟩ | ⟨hb, rfl⟩
    · exact .lenRange (.of_symLen (by decide) hb) rfl
    · exact .success (not_lengthBad_of_symLen (by decide) hb) (not_overflows (by decide) (by decide)) rfl
  | compress =>
    rcases execCompress_next h with ⟨hb, rfl⟩ | ⟨hb, x, c, -, -, rfl⟩
    · exact .lenRange (.of_symLen (by decide) hb) rfl
    · exact compressTail_ending hb
  | clear =>
    rw [execClear_next h]
    exact .success (by simp [LengthBad]) (not_overflows (by decide) (by decide)) rfl

/-- The error code of a command: the first check that fails, CAPACITY by the CodeBook after the command (R241). -/
theorem exec_err (h : exec i s = .next t) :
    t.err =
      if (i = .freq ∨ i = .encode ∨ i = .stats ∨ i = .compress) ∧ s.cfg.maxLen < s.inp.symLen.toNat then .lenRange
      else if i = .decode .bitIn ∧ s.cfg.maxBits < s.inp.bitInLen.toNat then .lenRange
      else if (i = .encode ∨ i = .compress) ∧
          s.cfg.maxBits < (s.symInput.map (fun x => (SymTable.get t.cb x).length)).sum then .capacity
      else .ok := by
  rcases exec_ending h with ⟨hbad | hbad, rfl⟩ | ⟨hlegal, hbig, herr, -⟩ | ⟨hlegal, hfits, herr⟩
  · rw [if_pos hbad]; rfl
  · rw [if_pos hbad, ite_self]; rfl
  · obtain ⟨hsym, hbit⟩ := not_or.1 hlegal
    rw [if_neg hsym, if_neg hbit, herr]
    exact (if_pos hbig).symm
  · obtain ⟨hsym, hbit⟩ := not_or.1 hlegal
    rw [if_neg hsym, if_neg hbit, herr]
    exact (if_neg hfits).symm

/-- A command that ends in an error keeps the session, except a COMPRESS that ends in CAPACITY (R244). -/
theorem exec_error_keeps (h : exec i s = .next t) (herr : t.err ≠ .ok) :
    SameSession s t ∨ i = .compress ∧ t.err = .capacity ∧ t.enc = s.enc ∧ t.dec = s.dec ∧ t.sts = s.sts := by
  rcases exec_ending h with ⟨-, rfl⟩ | ⟨-, -, hcap, hkeeps⟩ | ⟨-, -, hok⟩
  · exact .inl (SameSession.complete s _)
  · exact hkeeps.imp_right fun ⟨hi, hrest⟩ => ⟨hi, hcap, hrest⟩
  · exact absurd hok herr

/-- Only a STATUS write with bit 2 set or `rst` clears OVR (R26, R27). -/
theorem step_clears_ovr (h : step s = .next t) (hs : s.ovr = true) (ht : t.ovr = false) :
    s.host.next = some .rst ∨
      ∃ addr w, s.host.next = some (.wr addr w) ∧ locate s.cfg addr = .reg .status ∧ w.getLsbD 2 = true := by
  have hne : t.ovr ≠ s.ovr := by simp [hs, ht]
  by_cases hrst : s.host.next = some .rst
  · exact .inl hrst
  refine .inr ?_
  rcases step_status h hrst with same | ⟨-, -, hdone⟩ | ⟨addr, w, hop, hw⟩
  · exact absurd same.ovr hne
  · exact absurd hdone.ovr hne
  cases hw with
  | kept same => exact absurd same.ovr hne
  | acked place same =>
    have hmask : t.ovr = (s.ovr && !w.getLsbD 2) := same.ovr
    exact ⟨addr, w, hop, place, by simpa [hs, ht] using hmask⟩
  | issued place idle same => exact absurd same.ovr hne
  | dropped place busy same => exact absurd (hs.trans same.ovr.symm) hne.symm

end

/-- Settles O17: the length check comes first, and the commands of the last clause can only end in success. -/
theorem lengthErrorsWriteNothing : Obligations.LengthErrorsWriteNothing := by
  refine ⟨fun s i hi hlen => ?_, fun s hlen => if_pos (s.bitInLenBad_iff.2 hlen), fun s t i hi h => ?_⟩
  · have hb : s.symLenBad = true := s.symLenBad_iff.2 hlen
    rcases hi with rfl | rfl | rfl | rfl <;> exact if_pos hb
  · rw [exec_err h]
    rcases hi with rfl | rfl | rfl | rfl <;> simp

/-- Settles O18: the code of an illegal word is that of R243, the code of a command is `exec_err`, and no command touches
OVR (`exec_completed`). -/
theorem oneErrorCodeByOrder : Obligations.OneErrorCodeByOrder := by
  refine ⟨fun s t w e he h => ?_, fun s t w i hi h => ?_, fun s t => step_clears_ovr⟩
  · rw [runCommand_illegal he, Outcome.next_inj] at h
    rw [← h]
    rfl
  · rw [runCommand_legal hi] at h
    exact ⟨(exec_completed h).ovr, exec_err h⟩

/-- Settles O19: an illegal word writes no data at all, and a legal one is `exec_error_keeps`. -/
theorem errorsWriteNoData : Obligations.ErrorsWriteNoData := by
  intro s t w h herr
  rcases runCommand_cases h with ⟨i, hi, hexec⟩ | ⟨e, -, rfl⟩
  · refine (exec_error_keeps hexec herr).imp_right fun ⟨hcompress, hrest⟩ => ⟨?_, hrest⟩
    rw [hi, hcompress]
  · exact .inl (SameSession.complete s _)

end Sys2Proof.Machine
end

section
/-! SUPPORT and O10. A running command completes unless an `rst` ends it (spec/60_exceptions.md R246, spec/20_memory.md
R83). -/

namespace Sys2Proof.Machine

/-- `u` is `s` some turns of the outside later, the same command still running: the parameters, the inputs and the session
are those of `s` (R83, R247), and no more turns may still go by than from `s`. -/
structure RunsOn (s u : State) : Prop where
  operands : SameOperands s u
  seq : u.seq = s.seq
  prog : u.host.prog = s.host.prog
  due : u.env.due ≤ s.env.due

section
variable {s u v : State} {w : Word}

theorem SameOperands.trans (h : SameOperands s u) (h' : SameOperands u v) : SameOperands s v :=
  ⟨h'.cfg.trans h.cfg, h'.inp.trans h.inp, h.session.trans h'.session⟩

theorem RunsOn.refl (s : State) : RunsOn s s := ⟨⟨rfl, rfl, SameSession.refl s⟩, rfl, rfl, le_rfl⟩

theorem RunsOn.trans (h : RunsOn s u) (h' : RunsOn u v) : RunsOn s v :=
  ⟨h.operands.trans h'.operands, h'.seq.trans h.seq, h'.prog.trans h.prog, h'.due.trans h.due⟩

theorem RunsOn.tickDue (s : State) : RunsOn s s.tickDue :=
  ⟨⟨rfl, rfl, SameSession.refl s⟩, rfl, rfl, Nat.sub_le _ _⟩

/-- Only the host and the model's timing separate the states. -/
theorem RunsOn.of_outside (h : RunsOn s u) {a : HostAgent} {d : Env} (ha : a.prog = u.host.prog)
    (hd : d.due = u.env.due) : RunsOn s { u with host := a, env := d } where
  operands := ⟨h.operands.cfg, h.operands.inp, h.operands.session⟩
  seq := h.seq
  prog := ha.trans h.prog
  due := hd.le.trans h.due

/-- A write while a command runs reaches flags only: an issue or an input write is dropped (R83, R247). -/
theorem State.writeLoc_runsOn (hq : s.seq = .busy w) (loc : Loc) (x : Word) : RunsOn s (s.writeLoc loc x) := by
  have hkeeps := s.writeLoc_keeps loc x
  obtain ⟨hinp, hseq, henv⟩ : (s.writeLoc loc x).inp = s.inp ∧ (s.writeLoc loc x).seq = s.seq ∧
      (s.writeLoc loc x).env = s.env := by
    rcases s.writeLoc_cases loc x with e | ⟨_, e⟩ | ⟨_, e⟩ | ⟨_, e⟩ | ⟨p, e, _⟩ <;> rw [e]
    · exact ⟨rfl, rfl, rfl⟩
    · exact ⟨rfl, rfl, rfl⟩
    · exact ⟨rfl, rfl, rfl⟩
    · rw [s.issue_busy hq]; exact ⟨rfl, rfl, rfl⟩
    · rw [s.writeInput_busy hq]; exact ⟨rfl, rfl, rfl⟩
  exact ⟨⟨hkeeps.cfg, hinp, hkeeps.session⟩, hseq, congrArg HostAgent.prog hkeeps.host,
    (congrArg Env.due henv).le⟩

/-- No transaction and no branch of the host ends a running command or reaches its operands. -/
theorem State.perform_runsOn (hq : s.seq = .busy w) {op : PortOp} (hop : op ≠ .rst) : RunsOn s (s.perform op) := by
  cases op with
  | rd addr t =>
    simp only [State.perform]
    rcases s.hostRead_snd addr with e | e <;> rw [e] <;> exact (RunsOn.refl s).of_outside rfl rfl
  | wr addr x => exact (s.writeLoc_runsOn hq (locate s.cfg addr) x).of_outside rfl rfl
  | br t hi lo x target => exact (RunsOn.refl s).of_outside rfl rfl
  | rst => exact absurd rfl hop

theorem State.hostTurn_runsOn (hq : s.seq = .busy w) (hrst : s.host.next ≠ some .rst) : RunsOn s s.hostTurn := by
  unfold State.hostTurn
  split
  · rename_i op hop
    exact s.perform_runsOn hq fun e => hrst (by rw [hop, e])
  · exact RunsOn.refl s

/-- While a command's completion is not due, at least one more turn may go by (U5). -/
theorem State.due_pos (h : s.completionDue = false) : 0 < s.env.due := by
  simp only [State.completionDue, Bool.or_eq_false_iff, decide_eq_false_iff_not] at h
  omega

theorem core_run_succ (h : step s = .next u) (k : Nat) : core.run (k + 1) s = core.run k u := by
  have hcore : core.step s = .next u := h
  simp only [Host.Core.run, hcore]

/-- Within `due` turns the completion is due, or `rst` is next. -/
theorem running_reaches_end (n : Nat) : ∀ {s : State}, s.env.due ≤ n → s.seq = .busy w →
    ∃ k u, k ≤ n ∧ core.run k s = .next u ∧ RunsOn s u ∧
      (u.completionDue = true ∨ u.host.next = some .rst ∧ u.completionDue = false) := by
  induction n with
  | zero =>
    intro s hn hq
    exact ⟨0, s, le_rfl, rfl, RunsOn.refl s, .inl (by simp [State.completionDue, Nat.le_zero.1 hn])⟩
  | succ n ih =>
    intro s hn hq
    cases hdue : s.completionDue with
    | true => exact ⟨0, s, Nat.zero_le _, rfl, RunsOn.refl s, .inl hdue⟩
    | false =>
      by_cases hrst : s.host.next = some .rst
      · exact ⟨0, s, Nat.zero_le _, rfl, RunsOn.refl s, .inr ⟨hrst, hdue⟩⟩
      have hturn : RunsOn s.tickDue s.tickDue.hostTurn := State.hostTurn_runsOn hq hrst
      have hless : s.tickDue.hostTurn.env.due ≤ n := by
        have hpos := State.due_pos hdue
        have hle : s.tickDue.hostTurn.env.due ≤ s.env.due - 1 := hturn.due
        omega
      obtain ⟨k, u, hk, hrun, hon, hend⟩ := ih hless (hturn.seq.trans hq)
      exact ⟨k + 1, u, Nat.succ_le_succ hk, (core_run_succ (step_waiting hq hdue) k).trans hrun,
        ((RunsOn.tickDue s).trans hturn).trans hon, hend⟩

/-- A word, legal or not, completes alike on equal operands. -/
theorem SameOperands.runCommand {t : State} (h : SameOperands s u) (hr : Machine.runCommand w s = .next t) :
    ∃ t', Machine.runCommand w u = .next t' ∧ SameResult t t' := by
  rcases runCommand_cases hr with ⟨i, hi, he⟩ | ⟨e, he, rfl⟩
  · rw [runCommand_legal hi]
    exact h.exec he
  · rw [runCommand_illegal he]
    exact ⟨_, rfl, h.complete _⟩

/-- A step whose turn is an `rst` leaves HUFC idle (R270). -/
theorem State.hostTurn_rst_seq (h : s.host.next = some .rst) : s.hostTurn.seq = .idle := by
  simp [State.hostTurn, h, State.perform_rst]

end

/-- Settles O10: the run ends where `running_reaches_end` says, with the operands it began with. -/
theorem acceptedCommandCompletes : Obligations.AcceptedCommandCompletes := by
  intro s w hinv hq
  obtain ⟨k, u, hk, hrun, hon, hend⟩ := running_reaches_end s.env.due le_rfl hq
  have hqu : u.seq = .busy w := hon.seq.trans hq
  rcases hend with hdue | ⟨hrst, hdue⟩
  · obtain ⟨t0, ht0⟩ := hinv.runCommand_completes w
    obtain ⟨t, ht, hsession, herr⟩ := hon.operands.runCommand ht0
    have hdone := runCommand_completed ht
    exact ⟨k, u, t, hk, hrun, hqu, hon.operands.inp, hon.operands.session, (step_due hqu hdue).trans ht, hdone.seq,
      .inl ⟨ht, hdone.done, t0, ht0, hsession, herr⟩⟩
  · have hmem : PortOp.rst ∈ s.host.prog := hon.prog ▸ List.mem_of_getElem? hrst
    exact ⟨k, u, _, hk, hrun, hqu, hon.operands.inp, hon.operands.session, step_waiting hqu hdue,
      State.hostTurn_rst_seq hrst, .inr ⟨hmem, hrst, hdue⟩⟩

end Sys2Proof.Machine
end

section
/-! SUPPORT, O11, O32 and O33. The reset state, `rst`, and the commands on the reset state
(spec/70_reset_and_hazards.md R270 to R274). -/

namespace Sys2Proof.Machine

/-! ### The reset state (R270) -/

/-- Settles O11: the reset state has the values `rst` gives, but for the launch its blank inputs are numbered with. -/
theorem resetMeetsInvariant : Obligations.ResetMeetsInvariant :=
  { State.Inv.assertRst State.reset with inp := Inputs.blank_ok _ _ }

/-! ### Window words of empty results (R76, R80 to R82) -/

theorem packWord_false : packWord (fun _ => false) = 0#32 := by decide

theorem packedWord_length_zero (bits : Bits) (j : Nat) : packedWord bits 0 j = 0#32 := by
  simp only [packedWord, Nat.not_lt_zero, decide_false, Bool.false_and, packWord_false]

theorem codeWord_nil (k : Nat) : codeWord [] k = 0#32 := by
  unfold codeWord
  split
  · rfl
  · rw [List.length_nil, packedWord_length_zero, ite_self]

theorem symWord_length_zero (syms : List Symbol) (i : Nat) : symWord syms 0#32 i = 0#32 :=
  if_neg (Nat.not_lt_zero i)

/-! ### What `rst` leaves to read (R270, R271) -/

section
variable {s : State}

theorem State.ctrlWord_assertRst : s.assertRst.ctrlWord = 0#32 := by
  simp [State.ctrlWord]

theorem State.statusWord_assertRst : s.assertRst.statusWord = 0#32 := by
  simp [State.statusWord, State.isBusy, HuffTree.absent, TreeShape.code, ErrCode.code]

theorem State.regRead_assertRst_result {r : Reg} (h : Reg.isResult r = true) (hden : r ≠ .statRatioDen) :
    s.assertRst.regRead r = 0#32 := by
  cases r with
  | id | paramMaxLen | paramMaxBits | ctrl | cmd | status | symLen | bitInLen => exact absurd h (by decide)
  | statRatioDen => exact absurd rfl hden
  | _ => rfl

theorem State.view_assertRst_result {loc : Loc} (h : Loc.isResult loc = true) (hden : loc ≠ .reg .statRatioDen) :
    s.assertRst.view loc = 0#32 := by
  cases loc with
  | reg r => exact State.regRead_assertRst_result h fun hr => hden (congrArg Loc.reg hr)
  | freq x => exact SymTable.get_replicate 0#32 x
  | ftOrder i => exact symWord_length_zero [] i
  | node i k => exact HuffTree.windowWord_outside HuffTree.absent (Nat.zero_le i) k
  | cb x k => exact (congrArg (codeWord · k) (CodeBook.get_empty x)).trans (codeWord_nil k)
  | bitOut j => exact packedWord_length_zero [] j
  | symOut i => exact symWord_length_zero [] i
  | symIn | bitIn | reserved => exact absurd h Bool.false_ne_true

/-! ### A step that comes to an `rst` (R271) -/

theorem State.hostTurn_rst (h : s.host.next = some .rst) : s.hostTurn = s.assertRst.hostAt (s.host.pos + 1) := by
  simp only [State.hostTurn, h, State.perform_rst]

/-- An `rst` that is the next entry is performed while idle, and while a command runs whose completion is not due; what
is left of that command's latency is lost with it. -/
theorem step_rst (h : s.host.next = some .rst) (hq : s.seq = .idle ∨ s.completionDue = false) :
    step s = .next (s.assertRst.hostAt (s.host.pos + 1)) := by
  cases hseq : s.seq with
  | idle => rw [step_idle hseq, State.hostTurn_rst h]
  | busy w =>
    have hdue : s.completionDue = false := hq.resolve_left (by simp [hseq])
    have hturn : s.tickDue.hostTurn = s.tickDue.assertRst.hostAt (s.host.pos + 1) := State.hostTurn_rst h
    rw [step_waiting hseq hdue, hturn]
    rfl

end

/-- Settles O32: the register values by the registers, the result windows by `State.view_assertRst_result`, and the step
by `step_rst`. -/
theorem rstGivesResetValues : Obligations.RstGivesResetValues := by
  refine ⟨fun s => ⟨rfl, rfl, fun r => ?_, fun loc => State.view_assertRst_result, fun i => rfl, fun j => rfl⟩,
    fun s h hq => ⟨_, step_rst h hq, rfl⟩⟩
  cases r with
  | ctrl => exact State.ctrlWord_assertRst
  | status => exact State.statusWord_assertRst
  | _ => rfl

/-! ### The bodies of the commands on the reset session (R274) -/

theorem State.reset_symInput : State.reset.symInput = [] := rfl

theorem State.reset_enc : State.reset.enc = Encoded.empty := rfl

theorem buildFrequencyTable_nil : buildFrequencyTable [] = FreqTable.empty := by
  have hcounts : SymTable.map (BitVec.ofNat 32) Counting.start.counts = FreqTable.empty.freq :=
    SymTable.ext fun x => by simp [Counting.start, FreqTable.empty]
  simp only [buildFrequencyTable, List.foldl_nil, hcounts]
  rfl

theorem buildTree_empty : buildTree FreqTable.empty = .ok HuffTree.absent := rfl

theorem generateCodes_absentTree : generateCodes HuffTree.absent = .ok CodeBook.empty := rfl

theorem encodeSymbols_nil (maxBits : Nat) (c : CodeBook) : encodeSymbols maxBits c [] = some Encoded.empty :=
  if_neg (Nat.not_lt_zero maxBits)

theorem statsOf_empty :
    statsOf (8 * State.reset.inp.symLen.toNat) Encoded.empty.bitOutLen.toNat = Stats.zero := by decide

/-! ### The commands on the reset state (R274) -/

theorem State.reset_symLen_le : State.reset.inp.symLen.toNat ≤ State.reset.cfg.maxLen := Nat.zero_le _

theorem execFreq_reset : exec .freq State.reset = .next { State.reset with done := true } := by
  rw [execFreq_legal State.reset_symLen_le, State.reset_symInput, buildFrequencyTable_nil]
  rfl

theorem execTree_reset : exec .tree State.reset = .next { State.reset with done := true } :=
  execTree_ok (FreqTable.empty_ok _)

theorem execCodes_reset : exec .codes State.reset = .next { State.reset with done := true } :=
  execCodes_of_generateCodes generateCodes_absentTree

theorem execEncode_reset : exec .encode State.reset = .next { State.reset with done := true } := by
  obtain ⟨e, he, hexec⟩ := execEncode_fits State.reset_symLen_le (Nat.zero_le _)
  rw [State.reset_symInput, encodeSymbols_nil, Option.some_inj] at he
  rw [hexec, ← he]
  rfl

/-- Both sources are empty streams, and the absent tree decodes every stream to the empty output. -/
theorem execDecode_reset (src : Src) : exec (.decode src) State.reset = .next { State.reset with done := true } := by
  have hsrc : State.reset.Reads src [] := by
    cases src with
    | bitIn => exact .inl ⟨rfl, Nat.zero_le _, rfl⟩
    | bitOut => exact .inr ⟨rfl, rfl⟩
  exact execDecode_of_decodeBits hsrc rfl (decodeBits_absent rfl)

theorem execStats_reset : exec .stats State.reset = .next { State.reset with done := true } := by
  rw [execStats_legal State.reset_symLen_le, State.reset_enc, statsOf_empty]
  rfl

theorem execCompress_reset : exec .compress State.reset = .next { State.reset with done := true } := by
  have htree : buildTree (buildFrequencyTable State.reset.symInput) = .ok HuffTree.absent := by
    rw [State.reset_symInput, buildFrequencyTable_nil, buildTree_empty]
  have hsession : ((State.reset.setTable FreqTable.empty).setTree HuffTree.absent).setCodes CodeBook.empty =
      State.reset := rfl
  rw [execCompress_legal State.reset_symLen_le htree generateCodes_absentTree, State.reset_symInput,
    buildFrequencyTable_nil, hsession, compressTail_of_some (encodeSymbols_nil _ _), statsOf_empty]
  rfl

theorem execClear_reset : exec .clear State.reset = .next { State.reset with done := true } :=
  clearLeavesTheResetSession State.reset

/-- Settles O33, command by command: each writes what the reset state already holds, and completes. -/
theorem commandsOnTheResetState : Obligations.CommandsOnTheResetState :=
  ⟨execFreq_reset, execTree_reset, execCodes_reset, execEncode_reset, execDecode_reset .bitIn,
    execDecode_reset .bitOut, execStats_reset, execCompress_reset, execClear_reset⟩

end Sys2Proof.Machine
end
